-- ==== Sys2Proof/Word.lean ====
section
/-! DEFINITION. The word types of the block: bytes on the wire, 16-bit registers, clock values. -/

namespace Sys2Proof

/-- One byte of a frame (30_encoding R90). -/
abbrev Byte := BitVec 8

/-- One register, one checksum (10_state R20, R36). -/
abbrev Word := BitVec 16

/-- A clock value in microseconds or milliseconds. Its width `TIME_W` is a parameter (00_scope R11), so it is a number that
the operations keep below `2 ^ TIME_W` (log 3). -/
abbrev Time := Nat

end Sys2Proof
end

