-- ==== Sys2Proof/Machine/Bytes.lean ====
section
/-! DEFINITION. Byte order of the 16-bit fields of a frame: high byte first (20_memory R65, 30_encoding R95). -/

namespace Sys2Proof.Machine

/-- Bits 15:8 (00_scope R13). -/
def hiByte (w : Word) : Byte := w.extractLsb' 8 8

/-- Bits 7:0 (00_scope R13). -/
def loByte (w : Word) : Byte := w.extractLsb' 0 8

/-- `{hi, lo}`: `hi` in bits 15:8 (00_scope R13). -/
def pair (hi lo : Byte) : Word := hi ++ lo

/-- The two bytes of a field, high byte first (30_encoding R95). -/
def fieldBytes (w : Word) : List Byte := [hiByte w, loByte w]

/-- Register values on the wire, each high byte first (30_encoding R97, R99). -/
def valueBytes : List Word → List Byte
  | [] => []
  | w :: ws => hiByte w :: loByte w :: valueBytes ws

/-- The values held by a run of value bytes; an odd last byte holds none (30_encoding R99). -/
def bytesValues : List Byte → List Word
  | hi :: lo :: rest => pair hi lo :: bytesValues rest
  | _ => []

end Sys2Proof.Machine
end

