-- ==== Sys2Proof/Machine/Crc.lean ====
section
/-! DEFINITION. The CRC sub-block: the reflected 16-bit checksum with polynomial 0xA001 (40_crc R130 to R135). -/

namespace Sys2Proof.Machine

/-- `CRC.INIT`: the value the accumulator is loaded with (40_crc R130). -/
def crcInit : Word := 0xFFFF#16

/-- One of the eight shifts of `CRC.BYTE` (40_crc R131). -/
def crcShift (c : Word) : Word :=
  if c.getLsbD 0 then (c >>> 1) ^^^ 0xA001#16 else c >>> 1

/-- `n` shifts. -/
def crcShifts : Nat → Word → Word
  | 0, c => c
  | n + 1, c => crcShifts n (crcShift c)

/-- `CRC.BYTE(b)`: XOR into the low byte, then eight shifts (40_crc R131). -/
def crcByte (c : Word) (b : Byte) : Word := crcShifts 8 (c ^^^ b.setWidth 16)

/-- The accumulator after the bytes, from a starting value. -/
def crcFold : Word → List Byte → Word
  | c, [] => c
  | c, b :: bs => crcFold (crcByte c b) bs

/-- `CRC.OVER(bytes)` (40_crc R133). -/
def crcOver (bytes : List Byte) : Word := crcFold crcInit bytes

/-- The checksum as it is transmitted: low byte first (40_crc R135, 20_memory R64). -/
def crcBytes (body : List Byte) : List Byte := [loByte (crcOver body), hiByte (crcOver body)]

/-- A body with its checksum appended (40_crc R135, 30_encoding R90). -/
def withCrc (body : List Byte) : List Byte := body ++ crcBytes body

/-- The bytes the checksum covers: all but the last two (40_crc R134). -/
def crcCovered (f : List Byte) : List Byte := f.take (f.length - 2)

/-- `CRC.CHECK(f, n)` for a frame of at least 4 bytes (40_crc R134). -/
def crcCheck (f : List Byte) : Bool := f.drop (f.length - 2) == crcBytes (crcCovered f)

end Sys2Proof.Machine
end

