-- ==== Sys2Proof/Config.lean ====
section
/-! DEFINITION. The parameters of 00_scope R10 and R11: fixed quantities as constants, open ones as the fields of
`Config`, with the constraints of 46_regmap R216, R217 and 45_ident R209 and the spec's reference configuration. -/

namespace Sys2Proof

/-! ## Quantities the spec fixes (00_scope R10) -/

/-- Number of holding registers (10_state R36). -/
abbrev holdingSize : Nat := 48
/-- Number of input registers (10_state R36). -/
abbrev inputSize : Nat := 32
/-- Most registers in one request (00_scope R10). -/
abbrev maxRegs : Nat := 32
/-- Receive buffer length in bytes (10_state R22). -/
abbrev rxBuf : Nat := 64
/-- Transmit buffer length in bytes (10_state R29). -/
abbrev txMax : Nat := 69
/-- Statistics window length in milliseconds (00_scope R10). -/
abbrev windowMs : Time := 5000

/-! ## Registers and their attributes -/

/-- The two disjoint register banks (10_state R36). -/
inductive Bank where
  | holding
  | input
  deriving DecidableEq, Repr

/-- Registers in a bank (20_memory R60). -/
def Bank.size : Bank → Nat
  | .holding => holdingSize
  | .input => inputSize

/-- The internal writer roles of `REG.PORTWRITE` (46_regmap R224, R227). -/
inductive Role where
  | sensor
  | identify
  | cmd
  | diag
  deriving DecidableEq, Repr

/-- The single writer of a register: the bus or one internal role (46_regmap R216, R217 (d)). -/
inductive Owner where
  | bus
  | role (r : Role)
  deriving DecidableEq, Repr

/-- Whether the bus may write a register (46_regmap R216). -/
inductive Access where
  | rw
  | ro
  deriving DecidableEq, Repr

/-- Which values a bus write may store (46_regmap R216, R221). -/
inductive Policy where
  | any
  | enum (allowed : List Word)
  | range (lo hi : Word)
  deriving DecidableEq, Repr

/-- Persistence class; no effect inside the block (46_regmap R216). -/
inductive Persist where
  | volatile
  | persistent
  deriving DecidableEq, Repr

/-- One entry of `REGMAP` (46_regmap R216). -/
structure RegAttr where
  access : Access
  command : Bool
  policy : Policy
  owner : Owner
  persist : Persist
  scale : Int
  reset : Word
  deriving DecidableEq, Repr

/-! ## Diagnostics and statistics -/

/-- The six saturating diagnostic counters (10_state R33). -/
inductive Counter where
  | framesOk
  | crcErr
  | excSent
  | framesSent
  | overrun
  | anom
  deriving DecidableEq, Repr

/-- The seven diagnostic values (10_state R32). -/
inductive DiagKey where
  | counter (c : Counter)
  | lastExc
  deriving DecidableEq, Repr

/-- Every diagnostic value, in the order of 10_state R32. -/
def DiagKey.all : List DiagKey :=
  [.counter .framesOk, .counter .crcErr, .counter .excSent, .counter .framesSent, .counter .overrun, .lastExc,
   .counter .anom]

/-- `DIAG_MAP`: the input address that mirrors each diagnostic value, or none (46_regmap R228). -/
structure DiagMap where
  framesOk : Option Nat
  crcErr : Option Nat
  excSent : Option Nat
  framesSent : Option Nat
  overrun : Option Nat
  lastExc : Option Nat
  anom : Option Nat
  deriving DecidableEq, Repr

/-- The input address of a diagnostic value (46_regmap R228). -/
def DiagMap.addr (m : DiagMap) : DiagKey → Option Nat
  | .counter .framesOk => m.framesOk
  | .counter .crcErr => m.crcErr
  | .counter .excSent => m.excSent
  | .counter .framesSent => m.framesSent
  | .counter .overrun => m.overrun
  | .counter .anom => m.anom
  | .lastExc => m.lastExc

/-- The diagnostic value an input address mirrors, if any (46_regmap R228). -/
def DiagMap.keyAt (m : DiagMap) (a : Nat) : Option DiagKey :=
  DiagKey.all.find? fun k => m.addr k == some a

/-- The mirrored input addresses (46_regmap R228). -/
def DiagMap.addrs (m : DiagMap) : List Nat := DiagKey.all.filterMap m.addr

/-- The default: no diagnostic value is mapped (00_scope R11). -/
def DiagMap.unmapped : DiagMap := ⟨none, none, none, none, none, none, none⟩

/-- One statistics channel of `STAT_CH` (47_stats R235). -/
structure StatChannel where
  signed : Bool
  minAddr : Nat
  maxAddr : Nat
  meanAddr : Nat
  deriving DecidableEq, Repr

/-- The three output addresses of a channel (47_stats R235). -/
def StatChannel.outputs (c : StatChannel) : List Nat := [c.minAddr, c.maxAddr, c.meanAddr]

/-! ## The configuration -/

/-- The parameters of the step relation (00_scope R11, 10_state R45; log 2). -/
structure Config where
  baud : Nat
  bitsPerChar : Nat
  unitAddrReset : Byte
  holdingMap : Vector RegAttr holdingSize
  inputMap : Vector RegAttr inputSize
  diagMap : DiagMap
  statCh : List StatChannel
  ident : List Byte
  identifyAddr : Nat
  identify41Value : Word
  /-- `TIME_W`: bits of both clocks (decision D3). -/
  timeW : Nat
  /-- `DIAG_W`: bits of a diagnostic counter (decision D18). -/
  diagW : Nat
  /-- `WSC_W`: bits of a Write Sequence Counter (decision D19). -/
  wscW : Nat
  /-- `COUNT_W`: bits of a window's sample count (decision D23). -/
  countW : Nat
  deriving DecidableEq, Repr

/-- The attributes of a register, none outside the bank (46_regmap R216). -/
def Config.attr (c : Config) : Bank → Nat → Option RegAttr
  | .holding, a => c.holdingMap[a]?
  | .input, a => c.inputMap[a]?

/-- Whether a holding address is a command register (10_state R39, 46_regmap R216). -/
def Config.isCommand (c : Config) (a : Nat) : Bool :=
  match c.attr .holding a with
  | some r => r.command
  | none => false

/-- Whether the role owns the register (46_regmap R224); false outside the bank. -/
def Config.owns (c : Config) (r : Role) (b : Bank) (a : Nat) : Bool :=
  match c.attr b a with
  | some at' => at'.owner == .role r
  | none => false

/-- The output addresses of every channel (47_stats R235). -/
def Config.statOutputs (c : Config) : List Nat := c.statCh.flatMap StatChannel.outputs

/-! ## The constraints every configuration must meet -/

/-- A range is not empty (46_regmap R216: `lo ≤ hi`). -/
def Policy.ok : Policy → Bool
  | .any => true
  | .enum _ => true
  | .range lo hi => decide (lo ≤ hi)

/-- 46_regmap R216 and R217 (a), (b), (c) for one holding register. -/
def RegAttr.holdingOk (r : RegAttr) : Bool :=
  ((r.access == .rw) == (r.owner == .bus)) && r.policy.ok &&
  (if r.command then
     (r.access == .rw) && (match r.policy with | .range _ _ => false | _ => true)
   else
     (r.access == .ro) || (match r.policy with | .range _ _ => true | _ => false))

/-- 46_regmap R216 and R217 (a) for one input register: read-only, not a command register, not owned by the bus. -/
def RegAttr.inputOk (r : RegAttr) : Bool :=
  (r.access == .ro) && !r.command && r.policy.ok && (r.owner != .bus)

/-- 46_regmap R217: the whole register table, with (e) the nine known input addresses of 20_memory R66. -/
def Config.regmapOk (c : Config) : Bool :=
  c.holdingMap.toList.all RegAttr.holdingOk &&
  c.inputMap.toList.all RegAttr.inputOk &&
  (List.range 9).all fun i => c.owns .sensor .input (9 + i)

/-- 45_ident R209: the Identify register is a command register that accepts the non-zero value VID writes. -/
def Config.identifyOk (c : Config) : Bool :=
  (c.identify41Value != 0#16) &&
  match c.attr .holding c.identifyAddr with
  | some r =>
    r.command && (match r.policy with
      | .any => true
      | .enum allowed => allowed.contains c.identify41Value
      | .range _ _ => false)
  | none => false

/-- 47_stats R235, R249: the outputs are input addresses owned by the sensor role, no two the same (log 13). -/
def Config.statOk (c : Config) : Bool :=
  c.statOutputs.all (fun a => c.owns .sensor .input a) && decide c.statOutputs.Nodup

/-- 46_regmap R228: mirrored addresses are input addresses owned by `diag` whose reset value is the 0 of the diagnostic
values (10_state R48), no two the same (log 13). -/
def Config.diagOk (c : Config) : Bool :=
  c.diagMap.addrs.all (fun a => c.owns .diag .input a && (c.inputMap[a]?.map RegAttr.reset == some 0#16)) &&
  decide c.diagMap.addrs.Nodup

/-- 00_scope R11, 30_encoding R102: a bit rate above 0, 10 or 11 bits per character, an `IDENT` of at most 64 bytes. -/
def Config.lineOk (c : Config) : Bool :=
  decide (0 < c.baud) && (c.bitsPerChar == 10 || c.bitsPerChar == 11) && decide (c.ident.length ≤ 64)

/-- Every width is at least one bit, and a diagnostic counter that a register mirrors fits that register (00_scope R11,
46_regmap R228, decision D18; log 13). -/
def Config.widthsOk (c : Config) : Bool :=
  decide (0 < c.timeW) && decide (0 < c.diagW) && decide (0 < c.wscW) && decide (0 < c.countW) &&
  DiagKey.all.all fun k => k == .lastExc || c.diagMap.addr k == none || decide (c.diagW ≤ 16)

/-- The configurations the spec admits (93_implementation_defined part 1 refuses the others). -/
def Config.ok (c : Config) : Bool :=
  c.regmapOk && c.identifyOk && c.statOk && c.diagOk && c.lineOk && c.widthsOk

/-! ## The spec's reference configuration (95_test_vectors section 1) -/

/-- A plain bus-owned register that accepts every value (46_regmap R217 (c)). -/
def RegAttr.plain : RegAttr := ⟨.rw, false, .range 0x0000#16 0xFFFF#16, .bus, .volatile, 1, 0x0000#16⟩

/-- A read-only register owned by the sensor role. -/
def RegAttr.sensorRo : RegAttr := ⟨.ro, false, .any, .role .sensor, .volatile, 1, 0x0000#16⟩

/-- The first four holding registers of `TESTMAP` (95_test_vectors section 1). -/
def testmapHead : List RegAttr :=
  [⟨.ro, false, .any, .role .cmd, .volatile, 1, 0x1234#16⟩,
   ⟨.rw, false, .range 1#16 247#16, .bus, .volatile, 1, 16#16⟩,
   ⟨.rw, true, .any, .bus, .volatile, 1, 0x0000#16⟩,
   ⟨.rw, true, .enum [0x0000#16, 0xA55A#16], .bus, .volatile, 1, 0x0000#16⟩]

/-- The wind-speed channel (47_stats R235). -/
def windChannel : StatChannel := ⟨false, 0x000F, 0x0010, 0x0011⟩

/-- The reference configuration of 95_test_vectors section 1, with the defaults of 00_scope R11 (DESIGN CHOICE for the
open entries, log 2). -/
def Config.reference : Config where
  baud := 9600
  bitsPerChar := 10
  unitAddrReset := 0x00#8
  holdingMap := Vector.ofFn fun i => testmapHead.getD i.val RegAttr.plain
  inputMap := Vector.replicate inputSize RegAttr.sensorRo
  diagMap := DiagMap.unmapped
  statCh := [windChannel]
  ident := [0x12#8, 0x34#8, 0x00#8, 0x01#8, 0x01#8, 0x00#8, 0x02#8, 0x03#8]
  identifyAddr := 0x0002
  identify41Value := 5#16
  timeW := 32
  diagW := 16
  wscW := 16
  countW := 32

theorem Config.reference_ok : Config.reference.ok = true := by decide

end Sys2Proof
end

