-- ==== Sys2Proof/Syntax.lean ====
section
/-! DEFINITION. The frames of the block as instructions: one constructor per row of spec/opcode_table.json
(30_encoding R111, R119). Seven requests the block decodes, seven responses it emits. -/

namespace Sys2Proof

/-- The operands of the formats `RD` and `WS`: two 16-bit fields, or the payload of a frame whose length does not fit
the format (30_encoding R96, R98; 42_dispatcher R166; log 15). -/
inductive TwoFields where
  | fields (first second : Word)
  | badLength (payload : List Byte)
  deriving DecidableEq, Repr

/-- The operands of the format `WM`: start, count, byte count and the value bytes as received, or the payload of a frame
shorter than 9 bytes (30_encoding R99; 44_write R195, R196; log 15). -/
inductive WriteRun where
  | run (start count : Word) (byteCount : Byte) (data : List Byte)
  | short (payload : List Byte)
  deriving DecidableEq, Repr

/-- The three exception codes (60_exceptions R280). -/
inductive ExcCode where
  | illegalFunction
  | illegalAddress
  | illegalValue
  deriving DecidableEq, Repr

/-- The byte of an exception code (60_exceptions R280). -/
def ExcCode.byte : ExcCode → Byte
  | .illegalFunction => 0x01#8
  | .illegalAddress => 0x02#8
  | .illegalValue => 0x03#8

/-- The instructions: one constructor per row of spec/opcode_table.json. `unit` is the byte `f[0]` (30_encoding R92). -/
inductive Instr where
  /-- 0x03 read holding: start, count (43_read R181). -/
  | rdh (unit : Byte) (ops : TwoFields)
  /-- 0x04 read input: start, count (43_read R182). -/
  | rdi (unit : Byte) (ops : TwoFields)
  /-- 0x06 write single: address, value (44_write R191). -/
  | wrs (unit : Byte) (ops : TwoFields)
  /-- 0x10 write multiple (44_write R195). -/
  | wrm (unit : Byte) (ops : WriteRun)
  /-- 0x11 report identification; a frame of the right length has no payload (45_ident R206). -/
  | rid (unit : Byte) (payload : List Byte)
  /-- 0x41 vendor identify+info; a frame of the right length has no payload (45_ident R208). -/
  | vid (unit : Byte) (payload : List Byte)
  /-- Response to 0x03: the register values in address order (30_encoding R97). -/
  | rdhR (unit : Byte) (values : List Word)
  /-- Response to 0x04: the register values in address order (30_encoding R97). -/
  | rdiR (unit : Byte) (values : List Word)
  /-- Response to 0x06: the echo (30_encoding R98). -/
  | wrsR (unit : Byte) (addr value : Word)
  /-- Response to 0x10: start and count (30_encoding R100). -/
  | wrmR (unit : Byte) (start count : Word)
  /-- Response to 0x11: the identification bytes (30_encoding R102). -/
  | ridR (unit : Byte) (ident : List Byte)
  /-- Response to 0x41: the identification bytes (30_encoding R102). -/
  | vidR (unit : Byte) (ident : List Byte)
  /-- Exception response: the function byte with bit 7 set, and the code (30_encoding R110). -/
  | exc (unit : Byte) (function : Byte) (code : ExcCode)
  /-- A request with any other function code (42_dispatcher R167, 30_encoding R112). -/
  | unknown (unit : Byte) (function : Byte) (payload : List Byte)
  deriving DecidableEq, Repr

/-- The byte `f[0]` (30_encoding R92). -/
def Instr.unit : Instr → Byte
  | .rdh u _ | .rdi u _ | .wrs u _ | .wrm u _ | .rid u _ | .vid u _ => u
  | .rdhR u _ | .rdiR u _ | .wrsR u _ _ | .wrmR u _ _ | .ridR u _ | .vidR u _ => u
  | .exc u _ _ | .unknown u _ _ => u

/-- The byte `f[1]` (30_encoding R93, R111). -/
def Instr.function : Instr → Byte
  | .rdh _ _ | .rdhR _ _ => 0x03#8
  | .rdi _ _ | .rdiR _ _ => 0x04#8
  | .wrs _ _ | .wrsR _ _ _ => 0x06#8
  | .wrm _ _ | .wrmR _ _ _ => 0x10#8
  | .rid _ _ | .ridR _ _ => 0x11#8
  | .vid _ _ | .vidR _ _ => 0x41#8
  | .exc _ f _ => f
  | .unknown _ f _ => f

/-- A frame the block decodes (`direction: request`) rather than one it emits (30_encoding R119). -/
def Instr.isRequest : Instr → Bool
  | .rdh _ _ | .rdi _ _ | .wrs _ _ | .wrm _ _ | .rid _ _ | .vid _ _ | .unknown _ _ _ => true
  | .rdhR _ _ | .rdiR _ _ | .wrsR _ _ _ | .wrmR _ _ _ | .ridR _ _ | .vidR _ _ | .exc _ _ _ => false

/-- The six known function codes (30_encoding R111). -/
def knownFunctions : List Byte := [0x03#8, 0x04#8, 0x06#8, 0x10#8, 0x11#8, 0x41#8]

end Sys2Proof
end

