-- ==== Sys2Proof/WellFormed.lean ====
section
/-! DEFINITION. Which instructions are frames the spec describes: every field where it can be encoded, requests no longer
than the receive buffer, responses no longer than the transmit buffer (30_encoding R90 to R102, R110, R116). -/

namespace Sys2Proof

/-- A payload of a request that fits the receive buffer: 4 of the 64 bytes are address, function and checksum (R91). -/
def payloadFits (p : List Byte) : Bool := decide (p.length ≤ rxBuf - 4)

/-- The right-length form, or a payload whose length is not 4 (42_dispatcher R166). -/
def TwoFields.wf : TwoFields → Bool
  | .fields _ _ => true
  | .badLength p => (p.length != 4) && payloadFits p

/-- At least 9 bytes of frame, or a shorter payload (44_write R195). -/
def WriteRun.wf : WriteRun → Bool
  | .run _ _ _ data => decide (data.length ≤ rxBuf - 9)
  | .short p => decide (p.length < 5)

/-- A register response carries 1 to 32 values (30_encoding R97). -/
def valuesFit (vs : List Word) : Bool := decide (1 ≤ vs.length) && decide (vs.length ≤ maxRegs)

/-- An identification response carries at most 64 bytes (30_encoding R102). -/
def identFits (ident : List Byte) : Bool := decide (ident.length ≤ 64)

/-- Every response starts with the responder's own address, never 0 (42_dispatcher R169). -/
def responder (unit : Byte) : Bool := unit != 0x00#8

/-- The frames the spec describes. -/
def Instr.wf : Instr → Bool
  | .rdh _ ops => ops.wf
  | .rdi _ ops => ops.wf
  | .wrs _ ops => ops.wf
  | .wrm _ ops => ops.wf
  | .rid _ p => payloadFits p
  | .vid _ p => payloadFits p
  | .rdhR u vs => responder u && valuesFit vs
  | .rdiR u vs => responder u && valuesFit vs
  | .wrsR u _ _ => responder u
  | .wrmR u _ _ => responder u
  | .ridR u d => responder u && identFits d
  | .vidR u d => responder u && identFits d
  | .exc u f _ => responder u && f.getLsbD 7
  | .unknown _ f p => !knownFunctions.contains f && payloadFits p

end Sys2Proof
end

