-- ==== Sys2Proof/Decode.lean ====
section
/-! DEFINITION. From bytes to frames and back: the request decoder of the dispatcher (42_dispatcher R161, R162, R165, R166),
the decoder of responses, and the encoder, all from 30_encoding R90 to R119. -/

namespace Sys2Proof

open Sys2Proof.Machine

/-- Why bytes are no frame. -/
inductive DecodeError where
  /-- Fewer than 4 bytes (42_dispatcher R161). -/
  | tooShort
  /-- The trailing checksum does not match (42_dispatcher R162). -/
  | badChecksum
  /-- A response whose length or byte count does not fit its format (30_encoding R97 to R102, R110). -/
  | badLength
  /-- An exception response with a code outside 0x01 to 0x03 (60_exceptions R280). -/
  | badCode
  /-- A response with a function byte no response has (30_encoding R119). -/
  | badFunction
  deriving DecidableEq, Repr

/-- The payload of a frame: what lies between the function code and the checksum (30_encoding R90). -/
def framePayload (rest : List Byte) : List Byte := rest.take (rest.length - 2)

/-- The operands of `RD` and `WS`: exactly 8 bytes of frame, 4 of payload (30_encoding R96, R98). -/
def decodeTwoFields : List Byte → TwoFields
  | [a, b, c, d] => .fields (pair a b) (pair c d)
  | p => .badLength p

/-- The operands of `WM`: at least 9 bytes of frame, 5 of payload (30_encoding R99, 44_write R195). -/
def decodeWriteRun : List Byte → WriteRun
  | a :: b :: c :: d :: e :: data => .run (pair a b) (pair c d) e data
  | p => .short p

/-- The function-code map: the whole byte selects, any other value is an unknown function (30_encoding R111, R112). -/
def decodeFunction (unit fc : Byte) (payload : List Byte) : Instr :=
  if fc = 0x03#8 then .rdh unit (decodeTwoFields payload)
  else if fc = 0x04#8 then .rdi unit (decodeTwoFields payload)
  else if fc = 0x06#8 then .wrs unit (decodeTwoFields payload)
  else if fc = 0x10#8 then .wrm unit (decodeWriteRun payload)
  else if fc = 0x11#8 then .rid unit payload
  else if fc = 0x41#8 then .vid unit payload
  else .unknown unit fc payload

/-- The frame checks every decoder makes first: 4 bytes, then the checksum (42_dispatcher R161, R162). -/
def checkFrame (f : List Byte) : Except DecodeError (Byte × Byte × List Byte) :=
  match f with
  | unit :: fc :: rest =>
    if rest.length < 2 then .error .tooShort
    else if crcCheck f then .ok (unit, fc, framePayload rest)
    else .error .badChecksum
  | _ => .error .tooShort

/-- The decoder of requests: what the block makes of a closed frame (42_dispatcher R161, R162, R165). -/
def decode (f : List Byte) : Except DecodeError Instr :=
  match checkFrame f with
  | .ok (unit, fc, payload) => .ok (decodeFunction unit fc payload)
  | .error e => .error e

/-- The code of an exception response (60_exceptions R280). -/
def decodeExcCode (b : Byte) : Option ExcCode :=
  if b = 0x01#8 then some .illegalFunction
  else if b = 0x02#8 then some .illegalAddress
  else if b = 0x03#8 then some .illegalValue
  else none

/-- The payload of `RDR`: a byte count and that many bytes, 1 to 32 values (30_encoding R97). -/
def decodeValues : List Byte → Option (List Word)
  | n :: data =>
    if data.length = n.toNat ∧ 2 ≤ n.toNat ∧ n.toNat ≤ 2 * maxRegs ∧ n.toNat % 2 = 0 then some (bytesValues data)
    else none
  | [] => none

/-- The payload of `IDR`: a length byte and that many bytes, at most 64 (30_encoding R102). -/
def decodeIdent : List Byte → Option (List Byte)
  | n :: data => if data.length = n.toNat ∧ n.toNat ≤ 64 then some data else none
  | [] => none

/-- The payload of a `WS` echo and of `WMR`: two fields (30_encoding R98, R100). -/
def decodeEcho : List Byte → Option (Word × Word)
  | [a, b, c, d] => some (pair a b, pair c d)
  | _ => none

/-- A field decoded, or a response rejected by name. -/
def orReject {α : Type} (e : DecodeError) (o : Option α) (k : α → Instr) : Except DecodeError Instr :=
  match o with
  | some x => .ok (k x)
  | none => .error e

/-- The payload of an exception response by its function byte (30_encoding R110). -/
def decodeExc (unit fc : Byte) : List Byte → Except DecodeError Instr
  | [c] => orReject .badCode (decodeExcCode c) (.exc unit fc)
  | _ => .error .badLength

/-- The response rows of spec/opcode_table.json by function byte (30_encoding R93, R119). -/
def decodeAnswer (unit fc : Byte) (payload : List Byte) : Except DecodeError Instr :=
  if fc = 0x03#8 then orReject .badLength (decodeValues payload) (.rdhR unit)
  else if fc = 0x04#8 then orReject .badLength (decodeValues payload) (.rdiR unit)
  else if fc = 0x06#8 then orReject .badLength (decodeEcho payload) fun p => .wrsR unit p.1 p.2
  else if fc = 0x10#8 then orReject .badLength (decodeEcho payload) fun p => .wrmR unit p.1 p.2
  else if fc = 0x11#8 then orReject .badLength (decodeIdent payload) (.ridR unit)
  else if fc = 0x41#8 then orReject .badLength (decodeIdent payload) (.vidR unit)
  else if fc.getLsbD 7 then decodeExc unit fc payload
  else .error .badFunction

/-- The decoder of responses: what a listener on the bus makes of a frame the block emits (30_encoding R119). -/
def decodeResponse (f : List Byte) : Except DecodeError Instr :=
  match checkFrame f with
  | .ok (unit, fc, payload) => decodeAnswer unit fc payload
  | .error e => .error e

/-! ## The encoder -/

/-- The payload of `RD` and `WS` (30_encoding R96, R98). -/
def TwoFields.bytes : TwoFields → List Byte
  | .fields a b => fieldBytes a ++ fieldBytes b
  | .badLength p => p

/-- The payload of `WM` (30_encoding R99). -/
def WriteRun.bytes : WriteRun → List Byte
  | .run start count n data => fieldBytes start ++ fieldBytes count ++ n :: data
  | .short p => p

/-- The payload bytes of each row's format (30_encoding R96 to R102, R110). -/
def Instr.payload : Instr → List Byte
  | .rdh _ ops => ops.bytes
  | .rdi _ ops => ops.bytes
  | .wrs _ ops => ops.bytes
  | .wrm _ ops => ops.bytes
  | .rid _ p => p
  | .vid _ p => p
  | .rdhR _ vs => BitVec.ofNat 8 (2 * vs.length) :: valueBytes vs
  | .rdiR _ vs => BitVec.ofNat 8 (2 * vs.length) :: valueBytes vs
  | .wrsR _ a v => fieldBytes a ++ fieldBytes v
  | .wrmR _ a c => fieldBytes a ++ fieldBytes c
  | .ridR _ d => BitVec.ofNat 8 d.length :: d
  | .vidR _ d => BitVec.ofNat 8 d.length :: d
  | .exc _ _ c => [c.byte]
  | .unknown _ _ p => p

/-- The frame before its checksum (30_encoding R90, R118). -/
def Instr.body (i : Instr) : List Byte := i.unit :: i.function :: i.payload

/-- The whole frame: the body and its checksum, low byte first (30_encoding R90, R94). -/
def encode (i : Instr) : List Byte := withCrc i.body

/-! ## The opcode table's words (log 11) -/

/-- The unit address of the frames built from the table's words; any non-zero address would do (log 11). -/
def tableUnit : Byte := 0x10#8

/-- How many payload bytes the row's format has: 4, 5 (a run of no registers) or none; for an unknown function the
bytes the word itself gives (30_encoding R96, R98, R99, R101, R112). -/
def tablePayloadLength (nbits : Nat) (fc : Byte) : Nat :=
  if fc = 0x03#8 ∨ fc = 0x04#8 ∨ fc = 0x06#8 then 4
  else if fc = 0x10#8 then 5
  else if fc = 0x11#8 ∨ fc = 0x41#8 then 0
  else nbits / 8 - 1

/-- `n` bytes of a number, least significant first. -/
def numberBytes : Nat → Nat → List Byte
  | 0, _ => []
  | n + 1, w => BitVec.ofNat 8 w :: numberBytes n (w / 256)

/-- The frame a table word stands for: bit 0 is the least significant bit of the function code `f[1]`, later bytes count
on from it, bytes the word does not give are 0, and the checksum is the right one (log 11). -/
def tableFrame (nbits w : Nat) : List Byte :=
  let fc : Byte := BitVec.ofNat 8 w
  withCrc (tableUnit :: fc :: numberBytes (tablePayloadLength nbits fc) (w % 2 ^ nbits / 256))

/-- The request the block's decoder reads from a table word (log 11). -/
def decodeTableWord (nbits w : Nat) : Option Instr :=
  match decode (tableFrame nbits w) with
  | .ok i => some i
  | .error _ => none

end Sys2Proof
end

