-- ==== Sys2Proof/Machine/Memory.lean ====
section
/-! DEFINITION. The byte buffers `rx` and `tx` as lists of (index, byte) in canonical form: indices strictly rising, no
entry equal to what an unlisted index reads as (20_memory R60, 00_scope R14 MemRead and MemWrite). -/

namespace Sys2Proof.Machine

/-- A byte buffer: the indices that hold something else than the unlisted byte. -/
abbrev Memory := List Host.Cell

/-- What an index nothing has written reads as. DESIGN CHOICE (the spec leaves the contents unspecified, 10_state R47),
log 6. -/
def Memory.unlisted : Byte := 0x00#8

/-- One byte. -/
def Memory.read : Memory → Nat → Byte
  | [], _ => unlisted
  | c :: m, a => if c.1 = a then c.2 else Memory.read m a

/-- The buffer without an entry for the index. -/
def Memory.erase (m : Memory) (a : Nat) : Memory := m.filter fun c => c.1 != a

/-- A new entry at its place in the order. -/
def Memory.insert (c : Host.Cell) : Memory → Memory
  | [] => [c]
  | d :: m => if c.1 < d.1 then c :: d :: m else d :: Memory.insert c m

/-- Store one byte; storing the unlisted byte removes the entry. -/
def Memory.write (m : Memory) (a : Nat) (v : Byte) : Memory :=
  if v = unlisted then m.erase a else (m.erase a).insert (a, v)

/-- `MemRead(a, n)`: `n` bytes from index `a` (00_scope R14). -/
def Memory.readAll (m : Memory) : Nat → Nat → List Byte
  | _, 0 => []
  | a, n + 1 => m.read a :: Memory.readAll m (a + 1) n

/-- `MemWrite(a, n, v)`: the bytes from index `a` on (00_scope R14). -/
def Memory.writeAll (m : Memory) : Nat → List Byte → Memory
  | _, [] => m
  | a, b :: bs => Memory.writeAll (m.write a b) (a + 1) bs

/-- The canonical form: indices strictly rising, no unlisted byte listed. -/
abbrev Memory.wf (m : Memory) : Prop := m.Pairwise (fun c d => c.1 < d.1) ∧ ∀ c ∈ m, c.2 ≠ unlisted

/-- Every listed index lies below the buffer's size (20_memory R60). -/
abbrev Memory.within (m : Memory) (size : Nat) : Prop := ∀ c ∈ m, c.1 < size

end Sys2Proof.Machine
end

