-- ==== Sys2Proof/Machine/Time.lean ====
section
/-! DEFINITION. Elapsed time and the silence thresholds (41_transport R148, R149). -/

namespace Sys2Proof.Machine

/-- A number as a clock of `TIME_W` bits shows it (00_scope R11). -/
def clockValue (c : Config) (n : Nat) : Time := n % 2 ^ c.timeW

/-- `elapsed(now, then) = (now − then) mod 2^TIME_W` (00_scope R14, 41_transport R148). -/
def elapsed (c : Config) (now before : Time) : Time := (((now : Int) - before) % 2 ^ c.timeW).toNat

/-- `ceil(a / b)`. -/
def ceilDiv (a b : Nat) : Nat := (a + b - 1) / b

/-- `ceil(tenths · BITS_PER_CHAR · 10^6 / (10 · BAUD))` microseconds: `tenths / 10` character times (41_transport R149). -/
def silenceMicros (c : Config) (tenths : Nat) : Nat := ceilDiv (tenths * c.bitsPerChar * 10 ^ 6) (10 * c.baud)

/-- `T15`: 1.5 character times (41_transport R149). -/
def threshold15 (c : Config) : Time := clockValue c (silenceMicros c 15)

/-- `T35`: 3.5 character times (41_transport R149). -/
def threshold35 (c : Config) : Time := clockValue c (silenceMicros c 35)

/-- `0 < T15 < T35 < 2^TIME_W` (70_reset R323). -/
def thresholdsOk (c : Config) : Bool :=
  decide (0 < silenceMicros c 15) && decide (silenceMicros c 15 < silenceMicros c 35) &&
  decide (silenceMicros c 35 < 2 ^ c.timeW)

/-- The configurations the model has a step for (93_implementation_defined part 1, 70_reset R323; log 13). -/
def admittedConfig (c : Config) : Bool := c.ok && thresholdsOk c

end Sys2Proof.Machine
end

