-- ==== Sys2Proof/Machine/State.lean ====
section
/-! DEFINITION. The state of the block as plain data (10_state), its input events (00_scope R12), the reasons a step stops,
and the state after reset (10_state R46 to R50). -/

namespace Sys2Proof.Machine

/-! ## Why a step stops -/

/-- The machine stops. -/
inductive Fault where
  /-- Raised by `FRM.SEND` when the transmitter never reports idle: the step never ends (70_reset R331,
  93_implementation_defined U16: stuck). Safe: the model stops where the block waits for ever; log 7. -/
  | txNeverIdle
  /-- Raised when a response is longer than the 69-byte transmit buffer (10_state R29): no such byte exists. No frame
  the dispatcher builds reaches it while `IDENT` has at most 64 bytes. Safe; log 17. -/
  | txBufferOverrun
  deriving DecidableEq, Repr

/-- The model has no step. -/
inductive Refusal where
  /-- Raised by `exec` for an instruction that has no meaning yet. Safe. -/
  | notModelled (mnemonic : String)
  /-- Raised by `REG.PORTWRITE` when the role does not own the address (46_regmap R225: not an admitted event). Safe. -/
  | portWriteNotOwner
  /-- Raised by `REG.PORTWRITE` when the address lies outside the bank (46_regmap R225: not an admitted event). Safe. -/
  | portWriteOutsideBank
  /-- Raised by `STA.SAMPLE` for a channel outside `STAT_CH` (47_stats R237: not an admitted event). Safe. -/
  | sampleUnknownChannel
  /-- Raised by `REG.PORTREAD` when the address lies outside the bank (20_memory R61: no such register). Safe; log 12. -/
  | portReadOutsideBank
  /-- Raised by `WSCREAD` for an address that is no command register (10_state R39: no such counter). Safe; log 12. -/
  | wscReadNoCounter
  /-- Raised by every step of a configuration that breaks the constraints of 46_regmap R217, 45_ident R209 or
  70_reset R323 (93_implementation_defined part 1: refused). Safe; log 13. -/
  | configNotAdmitted
  deriving DecidableEq, Repr

/-- The outcome of an operation on a value of any type. -/
abbrev Result (α : Type) := Host.Outcome α Fault Refusal

/-- Go on from a next state; stop where the first operation stopped. -/
def andThen {α β : Type} (o : Result α) (k : α → Result β) : Result β :=
  match o with
  | .next x => k x
  | .fault f => .fault f
  | .refused r => .refused r

/-! ## Events -/

/-- An event on the internal port: the ones that may land between two register reads (20_memory R76). -/
inductive PortEvent where
  /-- `REG.PORTWRITE(role, bank, a, v)` (46_regmap R224). -/
  | portWrite (role : Role) (bank : Bank) (a : Nat) (v : Word)
  /-- `STA.SAMPLE(k, raw, t)` (47_stats R237). -/
  | sample (k : Nat) (raw : Word) (t : Time)
  deriving DecidableEq, Repr

/-- An input event (00_scope R12). -/
inductive Event where
  /-- A byte arrives from the line (41_transport R140). -/
  | rx (b : Byte)
  /-- The per-cycle entry point with its clock (41_transport R141), and the internal events that land between the
  register reads of the response this cycle may build: one batch after each read but the last (20_memory R76, log 4). -/
  | cycle (nowUs : Time) (between : List (List PortEvent))
  /-- An internal writer or a sample (46_regmap R224, 47_stats R237). -/
  | port (e : PortEvent)
  /-- The unit address is loaded (48_external_agents R263). -/
  | cfg (unit : Byte)
  /-- An internal consumer reads a Write Sequence Counter (46_regmap R223). -/
  | wscRead (a : Nat)
  /-- An internal agent reads a register (46_regmap R226). -/
  | portRead (bank : Bank) (a : Nat)
  deriving DecidableEq, Repr

/-! ## Outputs -/

/-- What happens on the line while a response is sent (41_transport R152). -/
inductive LineEvent where
  /-- The direction output changes to this level. -/
  | de (drive : Bool)
  /-- A byte is handed to the transmitter. -/
  | byte (b : Byte)
  /-- The transmitter reports that the last bit has left. -/
  | idle
  deriving DecidableEq, Repr

/-- The answer to an internal read. -/
inductive Answer where
  /-- `WSCREAD(a)` gave this counter (46_regmap R223). -/
  | wsc (a : Nat) (v : Nat)
  /-- `REG.PORTREAD(bank, a)` gave this value (46_regmap R226). -/
  | reg (bank : Bank) (a : Nat) (v : Word)
  deriving DecidableEq, Repr

/-! ## Parts of the state -/

/-- The state of the frame delimiter (10_state R21). -/
inductive FrmState where
  | idle
  | accumulating
  | ready
  deriving DecidableEq, Repr

/-- The seven diagnostic values: six counters of `DIAG_W` bits and a code (10_state R32 to R34; log 3). -/
structure Diag where
  framesOk : Nat
  crcErr : Nat
  excSent : Nat
  framesSent : Nat
  overrun : Nat
  anom : Nat
  lastExc : Byte
  deriving DecidableEq, Repr

/-- The window record of one statistics channel: `start` has `TIME_W` bits, `count` `COUNT_W` (10_state R41; log 3). -/
structure Window where
  isOpen : Bool
  start : Time
  count : Nat
  min : Int
  max : Int
  mean : Int
  deriving DecidableEq, Repr

/-- A window before its first sample: not open, the rest unspecified by the spec (10_state R50) and 0 here. DESIGN
CHOICE, log 5. -/
def Window.closed : Window := ⟨false, 0, 0, 0, 0, 0⟩

/-- The state of the block (10_state). -/
structure State where
  /-- The parameters of the step relation; no step changes them (10_state R45, log 2). -/
  cfg : Config
  /-- The checksum accumulator (R20). -/
  crc : Word
  /-- The frame delimiter (R21). -/
  frmState : FrmState
  /-- The receive buffer (R22). -/
  rx : Memory
  /-- How many bytes of `rx` are held (R22). -/
  rxLen : Nat
  /-- A byte of this frame was dropped (R23). -/
  rxOvf : Bool
  /-- The clock of the last cycle that appended a byte (R25). -/
  lastClk : Time
  /-- Bytes the receiver took from the line since the last cycle, oldest first (R26). -/
  uartQ : List Byte
  /-- The line direction: true drives (R27). -/
  de : Bool
  /-- The transmitter's status: true when the last bit has left (R28). -/
  txIdle : Bool
  /-- The transmitter will never report idle again (model's own; 93 U16, log 7). -/
  txHang : Bool
  /-- The transmit buffer (R29). -/
  tx : Memory
  /-- Its fill (R29). -/
  txLen : Nat
  /-- The 1.5 character-time threshold (R31). -/
  t15 : Time
  /-- The 3.5 character-time threshold (R31). -/
  t35 : Time
  /-- This device's configured address (R30). -/
  unitAddr : Byte
  /-- The diagnostic values (R32). -/
  diag : Diag
  /-- The holding bank (R36). -/
  holding : Vector Word holdingSize
  /-- The input bank (R36). -/
  input : Vector Word inputSize
  /-- The Write Sequence Counters, `WSC_W` bits each; those of command registers exist (R39; log 3). -/
  wsc : Vector Nat holdingSize
  /-- One window per channel of `STAT_CH` (R41). -/
  win : List Window
  /-- Input events not yet taken (model's own; 00_scope R12, log 1). -/
  inbox : List Event
  /-- Batches of internal events for the reads still to come in this cycle (model's own; 20_memory R76, log 4). -/
  sched : List (List PortEvent)
  /-- The `TX` outputs so far, oldest first (model's own; 00_scope R19, log 1). -/
  txLog : List (List Byte)
  /-- The trace of the line (model's own; 41_transport R152, log 1). -/
  line : List LineEvent
  /-- The answers given to internal reads (model's own; 46_regmap R223, R226, log 1). -/
  answers : List Answer
  deriving DecidableEq, Repr

/-! ## Reset -/

/-- The state after reset of a block with these parameters (10_state R46 to R50). The values of `crc`, `lastClk`, the
buffers' contents and a closed window's fields are DESIGN CHOICES (log 5, log 6), `txIdle` too (log 7). -/
def State.resetWith (c : Config) : State :=
  { cfg := c
    crc := 0x0000#16
    frmState := .idle
    rx := []
    rxLen := 0
    rxOvf := false
    lastClk := 0
    uartQ := []
    de := false
    txIdle := true
    txHang := false
    tx := []
    txLen := 0
    t15 := threshold15 c
    t35 := threshold35 c
    unitAddr := c.unitAddrReset
    diag := ⟨0, 0, 0, 0, 0, 0, 0x00#8⟩
    holding := c.holdingMap.map RegAttr.reset
    input := c.inputMap.map RegAttr.reset
    wsc := Vector.replicate holdingSize 0
    win := c.statCh.map fun _ => Window.closed
    inbox := []
    sched := []
    txLog := []
    line := []
    answers := [] }

/-- The state after reset with the spec's reference configuration (95_test_vectors section 1; DESIGN CHOICE, log 2). -/
def State.reset : State := State.resetWith Config.reference

end Sys2Proof.Machine
end

