-- ==== Sys2Proof/Machine/Regs.lean ====
section
/-! DEFINITION. Access to the parts of the state: register banks, Write Sequence Counters, windows, the received bytes, and
the mirror of the diagnostic values (10_state R22, R36, R39, R41; 46_regmap R228). -/

namespace Sys2Proof.Machine

/-- The current value of a diagnostic counter. -/
def Diag.counter (d : Diag) : Counter → Nat
  | .framesOk => d.framesOk
  | .crcErr => d.crcErr
  | .excSent => d.excSent
  | .framesSent => d.framesSent
  | .overrun => d.overrun
  | .anom => d.anom

/-- A diagnostic value as a register shows it; a mirrored counter has at most 16 bits (46_regmap R228; log 13). -/
def Diag.value (d : Diag) : DiagKey → Word
  | .counter c => BitVec.ofNat 16 (d.counter c)
  | .lastExc => d.lastExc.setWidth 16

/-- `H[a]` and `I[a]`; 0 outside the bank, where no rule reads (20_memory R61). -/
def State.readReg (s : State) : Bank → Nat → Word
  | .holding, a => (s.holding[a]?).getD 0#16
  | .input, a => (s.input[a]?).getD 0#16

/-- `H[a] <- v` and `I[a] <- v`; nothing outside the bank (20_memory R61). -/
def State.writeReg (s : State) (b : Bank) (a : Nat) (v : Word) : State :=
  match b with
  | .holding => { s with holding := s.holding.setIfInBounds a v }
  | .input => { s with input := s.input.setIfInBounds a v }

/-- `wsc[a]` (10_state R39). -/
def State.readWsc (s : State) (a : Nat) : Nat := (s.wsc[a]?).getD 0

/-- `win[k]` (10_state R41). -/
def State.window (s : State) (k : Nat) : Window := s.win.getD k Window.closed

/-- The register that mirrors a diagnostic value takes that value (46_regmap R228). -/
def State.mirror (s : State) (k : DiagKey) : State :=
  match s.cfg.diagMap.addr k with
  | some a => s.writeReg .input a (s.diag.value k)
  | none => s

/-- The bytes held in the receive buffer, first received first (10_state R22, R24). -/
def State.frame (s : State) : List Byte := s.rx.readAll 0 s.rxLen

end Sys2Proof.Machine
end

