-- ==== Sys2Proof/Machine/Operands.lean ====
section
/-! DEFINITION. The checks on a request's operands: register ranges, writability, value policies (46_regmap R218, R220,
R221; 44_write R196). None of them changes anything. -/

namespace Sys2Proof.Machine

/-- The results of the register file's checks (46_regmap R218, R220, R221). -/
inductive RegResult where
  | ok
  | addressError
  | valueError
  deriving DecidableEq, Repr

/-- `count` in 1 to 32 and the run inside the bank, the sum unbounded (46_regmap R218, 44_write R196 (2)). -/
def runInBank (bank : Bank) (start count : Word) : Bool :=
  decide (1 ≤ count.toNat) && decide (count.toNat ≤ maxRegs) && decide (start.toNat + count.toNat ≤ bank.size)

/-- Whether a policy lets a value in, by unsigned comparison (46_regmap R221). -/
def policyAccepts : Policy → Word → Bool
  | .any, _ => true
  | .enum allowed, v => allowed.contains v
  | .range lo hi, v => decide (lo ≤ v) && decide (v ≤ hi)

/-- `REG.CHECKWRITE(a, v)` (46_regmap R220, R221). -/
def checkWrite (c : Config) (a : Nat) (v : Word) : RegResult :=
  match c.attr .holding a with
  | none => .addressError
  | some r =>
    if r.access = .rw then (if policyAccepts r.policy v then .ok else .valueError)
    else .addressError

/-- `REG.CHECKWRITE` over a run of registers, addresses first, then values (44_write R195, R196 (4), (5)). -/
def checkRun (c : Config) (start : Nat) (values : List Word) : RegResult :=
  let results := (List.range values.length).map fun i => checkWrite c (start + i) (values.getD i 0#16)
  if results.contains .addressError then .addressError
  else if results.contains .valueError then .valueError
  else .ok

/-- All checks of a `WRM` of at least 9 bytes in their order: (2) count and run, (3) byte count and exact length,
(4) writable, (5) values (44_write R195, R196). -/
def checkWriteRun (c : Config) (start count : Word) (byteCount : Byte) (data : List Byte) : RegResult :=
  if runInBank .holding start count then
    if byteCount.toNat = 2 * count.toNat ∧ data.length = 2 * count.toNat then
      checkRun c start.toNat (bytesValues data)
    else .valueError
  else .addressError

end Sys2Proof.Machine
end

