-- ==== Sys2Proof/Machine/Flags.lean ====
section
/-! DEFINITION. The block has no condition codes (10_state R44); its flags are the diagnostic counters and their mirror
(10_state R33, R34; 46_regmap R228). -/

namespace Sys2Proof.Machine

/-- A saturating increment of a counter of this many bits: `sat16` when there are 16, and what a window's count does
(00_scope R13, 10_state R33, 47_stats R240, R245). -/
def satInc (width c : Nat) : Nat := if c + 1 < 2 ^ width then c + 1 else c

/-- `c <- sat16(c)` for one of the six counters, at their width `DIAG_W` (10_state R33). -/
def Diag.bump (width : Nat) (d : Diag) : Counter → Diag
  | .framesOk => { d with framesOk := satInc width d.framesOk }
  | .crcErr => { d with crcErr := satInc width d.crcErr }
  | .excSent => { d with excSent := satInc width d.excSent }
  | .framesSent => { d with framesSent := satInc width d.framesSent }
  | .overrun => { d with overrun := satInc width d.overrun }
  | .anom => { d with anom := satInc width d.anom }

/-- Count one event, and its mirror in the same step (10_state R33, 46_regmap R228). -/
def State.countEvent (c : Counter) (s : State) : State :=
  State.mirror { s with diag := s.diag.bump s.cfg.diagW c } (.counter c)

/-- `d_last_exc <- code`, and its mirror in the same step (10_state R34, 46_regmap R228). -/
def State.setLastExc (code : ExcCode) (s : State) : State :=
  State.mirror { s with diag := { s.diag with lastExc := code.byte } } .lastExc

end Sys2Proof.Machine
end

