-- ==== Sys2Proof/Machine/Sta.lean ====
section
/-! DEFINITION. The STA sub-block: `STA.SAMPLE` with its cases SEED, CLOSE and ACCUMULATE (47_stats R235 to R248). -/

namespace Sys2Proof.Machine

/-- The integer a raw sample stands for (47_stats R236). -/
def sampleValue (ch : StatChannel) (raw : Word) : Int :=
  if ch.signed then raw.toInt else (raw.toNat : Int)

/-- `low16(n)` (00_scope R13, 47_stats R248). -/
def low16 (n : Int) : Word := BitVec.ofInt 16 n

/-- A window holding one sample (47_stats R238, R239). -/
def Window.seeded (v : Int) (t : Time) : Window := ⟨true, t, 1, v, v, v⟩

/-- `ACCUMULATE`: the count of `COUNT_W` bits first, then the extrema and the mean by `tdiv` (47_stats R240, R241). -/
def Window.accumulate (countW : Nat) (w : Window) (v : Int) : Window :=
  let count := satInc countW w.count
  { w with
    count := count
    min := if v < w.min then v else w.min
    max := if w.max < v then v else w.max
    mean := w.mean + (v - w.mean).tdiv (count : Int) }

/-- The three results of a window go to the channel's output registers (47_stats R239). -/
def State.emit (ch : StatChannel) (w : Window) (s : State) : State :=
  ((s.writeReg .input ch.minAddr (low16 w.min)).writeReg .input ch.maxAddr (low16 w.max)).writeReg .input ch.meanAddr
    (low16 w.mean)

/-- `win[k] <- w`. -/
def State.setWindow (k : Nat) (w : Window) (s : State) : State := { s with win := s.win.set k w }

/-- `SEED(k, s, t)` (47_stats R238). -/
def seedWindow (k : Nat) (v : Int) (t : Time) (s : State) : State := s.setWindow k (Window.seeded v (clockValue s.cfg t))

/-- `CLOSE(k, s, t)`: emission and re-seeding in one step (47_stats R239). -/
def closeWindow (ch : StatChannel) (k : Nat) (v : Int) (t : Time) (s : State) : State :=
  (s.emit ch (s.window k)).setWindow k (Window.seeded v (clockValue s.cfg t))

/-- `ACCUMULATE(k, s)` (47_stats R240). -/
def accumulateWindow (k : Nat) (v : Int) (s : State) : State := s.setWindow k ((s.window k).accumulate s.cfg.countW v)

/-- The three cases of `STA.SAMPLE` on a channel of `STAT_CH` (47_stats R237). -/
def sampleChannel (ch : StatChannel) (k : Nat) (raw : Word) (t : Time) (s : State) : State :=
  let v := sampleValue ch raw
  if (s.window k).isOpen then
    if windowMs ≤ elapsed s.cfg t (s.window k).start then closeWindow ch k v t s
    else accumulateWindow k v s
  else seedWindow k v t s

/-- `STA.SAMPLE(k, raw, t)` (47_stats R237). -/
def staSample (k : Nat) (raw : Word) (t : Time) (s : State) : Result State :=
  match s.cfg.statCh[k]? with
  | some ch => .next (sampleChannel ch k raw t s)
  | none => .refused .sampleUnknownChannel

end Sys2Proof.Machine
end

