-- ==== Sys2Proof/Machine/Port.lean ====
section
/-! DEFINITION. The register file's write from the bus and its internal port: `REG.APPLYWRITE`, `REG.PORTWRITE`,
`REG.PORTREAD`, `WSCREAD` (46_regmap R222 to R226). -/

namespace Sys2Proof.Machine

/-- `wsc[a] <- (wsc[a] + 1) mod 2^WSC_W` (46_regmap R222). -/
def State.bumpWsc (a : Nat) (s : State) : State :=
  { s with wsc := s.wsc.setIfInBounds a ((s.readWsc a + 1) % 2 ^ s.cfg.wscW) }

/-- `REG.APPLYWRITE(a, v)`: the value, and the counter of a command register, in one step (46_regmap R222). -/
def applyWrite (a : Nat) (v : Word) (s : State) : State :=
  if s.cfg.isCommand a then (s.writeReg .holding a v).bumpWsc a else s.writeReg .holding a v

/-- `REG.APPLYWRITE` over a run, ascending (44_write R198). -/
def applyRun : Nat → List Word → State → State
  | _, [], s => s
  | a, v :: vs, s => applyRun (a + 1) vs (applyWrite a v s)

/-- The value a port write leaves in a register: a register that mirrors a diagnostic value keeps showing that value
(46_regmap R224, R228; DEDUCED, log 9). -/
def portValue (s : State) (bank : Bank) (a : Nat) (v : Word) : Word :=
  match bank, s.cfg.diagMap.keyAt a with
  | .input, some k => s.diag.value k
  | _, _ => v

/-- `REG.PORTWRITE(role, bank, a, v)`: only the owner's write is admitted; no policy check, no counter (46_regmap R224,
R225). -/
def portWrite (role : Role) (bank : Bank) (a : Nat) (v : Word) (s : State) : Result State :=
  if a < bank.size then
    if s.cfg.owns role bank a then .next (s.writeReg bank a (portValue s bank a v))
    else .refused .portWriteNotOwner
  else .refused .portWriteOutsideBank

/-- An event on the internal port (46_regmap R224, 47_stats R237). -/
def portStep : PortEvent → State → Result State
  | .portWrite role bank a v, s => portWrite role bank a v s
  | .sample k raw t, s => staSample k raw t s

/-- Internal events one after the other (20_memory R75). -/
def deliver : List PortEvent → State → Result State
  | [], s => .next s
  | e :: es, s => andThen (portStep e s) (deliver es)

/-- `REG.PORTREAD(bank, a)`: the value goes to the internal agent (46_regmap R226). -/
def portRead (bank : Bank) (a : Nat) (s : State) : Result State :=
  if a < bank.size then .next { s with answers := s.answers ++ [.reg bank a (s.readReg bank a)] }
  else .refused .portReadOutsideBank

/-- `WSCREAD(a)`: the counter goes to the internal consumer (46_regmap R223). -/
def wscRead (a : Nat) (s : State) : Result State :=
  if s.cfg.isCommand a then .next { s with answers := s.answers ++ [.wsc a (s.readWsc a)] }
  else .refused .wscReadNoCounter

/-- Whether the environment may issue the event: the writer owns the register, the channel exists (46_regmap R225,
47_stats R237, 48_external_agents R267). -/
def admitted (c : Config) : PortEvent → Bool
  | .portWrite role bank a _ => c.owns role bank a
  | .sample k _ _ => decide (k < c.statCh.length)

end Sys2Proof.Machine
end

