-- ==== Sys2Proof/Machine/Ops.lean ====
section
/-! DEFINITION. The operations the meanings share: building and sending a response, taking an exception and returning from
it, reading a run of registers (41_transport R147, R152; 42_dispatcher R169, R170; 60_exceptions R286, R289; 43_read R180). -/

namespace Sys2Proof.Machine

/-! ## Sending -/

/-- The body of a response in the transmit buffer (42_dispatcher R169). -/
def loadBody (body : List Byte) (s : State) : State := { s with tx := s.tx.writeAll 0 body, txLen := body.length }

/-- `CRC.APPEND`: the accumulator runs over the buffered body, its bytes follow, low byte first (40_crc R135). -/
def crcAppend (s : State) : State :=
  let body := s.tx.readAll 0 s.txLen
  { s with
    crc := crcOver body
    tx := s.tx.writeAll s.txLen (crcBytes body)
    txLen := s.txLen + 2 }

/-- Drive mode is asserted before the first bit (41_transport R152). -/
def driveOn (s : State) : State := { s with de := true, line := s.line ++ [.de true] }

/-- The bytes go to the transmitter in order; it is no longer idle (41_transport R152, 10_state R28). -/
def handOver : List Byte → State → State
  | [], s => s
  | b :: bs, s => handOver bs { s with txIdle := false, line := s.line ++ [.byte b] }

/-- The bit-flush wait: it ends when the last bit has left, or never (41_transport R152, 70_reset R331; log 7). -/
def waitIdle (s : State) : Result State :=
  if s.txHang then .fault .txNeverIdle else .next { s with txIdle := true, line := s.line ++ [.idle] }

/-- Back to receive mode, only after the wait; the frame is an output (41_transport R152, 70_reset R330). -/
def release (frame : List Byte) (s : State) : State :=
  { s with de := false, txLen := 0, line := s.line ++ [.de false], txLog := s.txLog ++ [frame] }

/-- `FRM.SEND` (41_transport R152). -/
def frmSend (s : State) : Result State :=
  let frame := s.tx.readAll 0 s.txLen
  andThen (waitIdle (handOver frame (driveOn s))) fun s => .next (release frame s)

/-- Build, append the checksum, send, count (42_dispatcher R169, R170). The transmit buffer has 69 bytes (10_state R29;
log 17). -/
def respond (body : List Byte) (s : State) : Result State :=
  if body.length + 2 ≤ txMax then
    andThen (frmSend (crcAppend (loadBody body s))) fun s => .next (s.countEvent .framesSent)
  else .fault .txBufferOverrun

/-! ## Taking an exception, and returning from it -/

/-- The entry of `raise Exc(code)` for a unicast request: both records, then the five-byte response (60_exceptions R282,
R286). `function` is the response's function byte, bit 7 set. -/
def takeException (function : Byte) (code : ExcCode) (s : State) : Result State :=
  let s := (s.countEvent .excSent).setLastExc code
  respond [s.unitAddr, function, code.byte] s

/-- `raise Exc(code)`: suppressed for a broadcast, nothing recorded, nothing sent (60_exceptions R286). -/
def raiseExc (unit fc : Byte) (code : ExcCode) (s : State) : Result State :=
  if unit = 0x00#8 then .next s else takeException (fc ||| 0x80#8) code s

/-- `FRM.CLEAR`: what stands for the return from an exception, and ends every frame (41_transport R147, 60_exceptions
R289). -/
def frmClear (s : State) : State := { s with rxLen := 0, rxOvf := false, frmState := .idle }

/-! ## Reading a run of registers -/

/-- The next batch of internal events lands (20_memory R76; log 4). -/
def deliverNext (s : State) : Result State :=
  match s.sched with
  | [] => .next s
  | batch :: later => deliver batch { s with sched := later }

/-- `n` registers from `a` on, one at a time in ascending order, a batch of internal events between two reads (43_read
R180, 20_memory R76). -/
def readRun (bank : Bank) : Nat → Nat → State → Result (List Word × State)
  | _, 0, s => .next ([], s)
  | a, n + 1, s =>
    let v := s.readReg bank a
    andThen (if n = 0 then .next s else deliverNext s) fun s =>
      andThen (readRun bank (a + 1) n s) fun p => .next (v :: p.1, p.2)

/-- `REG.READ(bank, start, count)`: none is `AddressError`; otherwise the registers of the run, read one at a time (46_regmap
R218, 43_read R180). -/
def regRead (bank : Bank) (start count : Word) (s : State) : Option (Result (List Word × State)) :=
  if runInBank bank start count then some (readRun bank start.toNat count.toNat s) else none

/-- The body of `RDR` (30_encoding R97). -/
def readBody (unit fc : Byte) (values : List Word) : List Byte :=
  unit :: fc :: BitVec.ofNat 8 (2 * values.length) :: valueBytes values

/-- The body of `IDR` (30_encoding R102). -/
def identBody (unit fc : Byte) (ident : List Byte) : List Byte :=
  unit :: fc :: BitVec.ofNat 8 ident.length :: ident

/-- The body of a `WS` echo and of `WMR` (30_encoding R98, R100). -/
def echoBody (unit fc : Byte) (a b : Word) : List Byte := unit :: fc :: (fieldBytes a ++ fieldBytes b)

/-- A frame of this block: its own address, which is not 0 (42_dispatcher R169, 41_transport R155; log 10). -/
def ownResponse (unit : Byte) (s : State) : Bool := unit == s.unitAddr && unit != 0x00#8

/-- The emission of a response row: this block's own frame is sent, another unit's is not (42_dispatcher R169, R170,
41_transport R155; log 10). -/
def emitResponse (unit : Byte) (body : List Byte) (s : State) : Result State :=
  if ownResponse unit s then respond body s else .next s

/-! ## The common body of the read functions -/

/-- `READ(bank, size)` for a unicast frame (43_read R180). -/
def readFunction (fc : Byte) (bank : Bank) (ops : TwoFields) (unit : Byte) (s : State) : Result State :=
  match ops with
  | .badLength _ => raiseExc unit fc .illegalValue s
  | .fields start count =>
    match regRead bank start count s with
    | some run => andThen run fun p => respond (readBody p.2.unitAddr fc p.1) p.2
    | none => raiseExc unit fc .illegalAddress s

/-- The broadcast filter: a broadcast of a function other than 0x06 and 0x10 has no effect (42_dispatcher R168). -/
def unicastOnly (unit : Byte) (s : State) (k : Result State) : Result State :=
  if unit = 0x00#8 then .next s else k

/-- An applied write is answered unless it was a broadcast (44_write R191, R193, R195). -/
def answerWrite (unit : Byte) (body : List Byte) (s : State) : Result State :=
  if unit = 0x00#8 then .next s else respond body s

end Sys2Proof.Machine
end

