-- ==== Sys2Proof/Machine/Exception.lean ====
section
/-! DEFINITION. The unknown function and the exception response (42_dispatcher R167, 60_exceptions R286). -/

namespace Sys2Proof.Machine

/-- A request with an unknown function code: `raise Exc(0x01)`; length and payload are not examined (42_dispatcher R167,
30_encoding R112). -/
def execUnknown (unit fc : Byte) (_payload : List Byte) (s : State) : Result State :=
  raiseExc unit fc .illegalFunction s

/-- `EXC`: this block takes the exception and sends the response (60_exceptions R286); another unit's exception response
is not this block's (log 10). -/
def execExc (unit function : Byte) (code : ExcCode) (s : State) : Result State :=
  if ownResponse unit s then takeException function code s else .next s

end Sys2Proof.Machine
end

