-- ==== Sys2Proof/Machine/Ident.lean ====
section
/-! DEFINITION. The identification functions 0x11 and 0x41 and their responses (45_ident R205 to R211). -/

namespace Sys2Proof.Machine

/-- `RID unit` (45_ident R206, R207). -/
def execRid (unit : Byte) (payload : List Byte) (s : State) : Result State :=
  unicastOnly unit s <|
    if payload = [] then respond (identBody s.unitAddr 0x11#8 s.cfg.ident) s
    else raiseExc unit 0x11#8 .illegalValue s

/-- `VID unit`: the Identify register is written as a qualifying write would, then the identification is returned
(45_ident R208, R210). -/
def execVid (unit : Byte) (payload : List Byte) (s : State) : Result State :=
  unicastOnly unit s <|
    if payload = [] then
      respond (identBody s.unitAddr 0x41#8 s.cfg.ident) (applyWrite s.cfg.identifyAddr s.cfg.identify41Value s)
    else raiseExc unit 0x41#8 .illegalValue s

/-- `RID.R`: the emission of the identification (45_ident R206, 30_encoding R102). -/
def execRidR (unit : Byte) (ident : List Byte) (s : State) : Result State :=
  emitResponse unit (identBody unit 0x11#8 ident) s

/-- `VID.R`: the emission of the identification (45_ident R208, 30_encoding R102). -/
def execVidR (unit : Byte) (ident : List Byte) (s : State) : Result State :=
  emitResponse unit (identBody unit 0x41#8 ident) s

end Sys2Proof.Machine
end

