-- ==== Sys2Proof/Machine/Read.lean ====
section
/-! DEFINITION. The read functions 0x03 and 0x04 and their responses (43_read R180 to R184). -/

namespace Sys2Proof.Machine

/-- `RDH unit, start, count`: `READ(H, 48)` (43_read R181). -/
def execRdh (unit : Byte) (ops : TwoFields) (s : State) : Result State :=
  unicastOnly unit s (readFunction 0x03#8 .holding ops unit s)

/-- `RDI unit, start, count`: `READ(I, 32)` (43_read R182). -/
def execRdi (unit : Byte) (ops : TwoFields) (s : State) : Result State :=
  unicastOnly unit s (readFunction 0x04#8 .input ops unit s)

/-- `RDH.R`: the emission of the response to 0x03 (43_read R180, 30_encoding R97). -/
def execRdhR (unit : Byte) (values : List Word) (s : State) : Result State :=
  emitResponse unit (readBody unit 0x03#8 values) s

/-- `RDI.R`: the emission of the response to 0x04 (43_read R180, 30_encoding R97). -/
def execRdiR (unit : Byte) (values : List Word) (s : State) : Result State :=
  emitResponse unit (readBody unit 0x04#8 values) s

end Sys2Proof.Machine
end

