-- ==== Sys2Proof/Machine/Write.lean ====
section
/-! DEFINITION. The write functions 0x06 and 0x10 and their responses (44_write R190 to R201). -/

namespace Sys2Proof.Machine

/-- `WRS unit, addr, value` (44_write R191, R193). -/
def execWrs (unit : Byte) (ops : TwoFields) (s : State) : Result State :=
  match ops with
  | .badLength _ => raiseExc unit 0x06#8 .illegalValue s
  | .fields addr value =>
    match checkWrite s.cfg addr.toNat value with
    | .addressError => raiseExc unit 0x06#8 .illegalAddress s
    | .valueError => raiseExc unit 0x06#8 .illegalValue s
    | .ok => answerWrite unit (echoBody s.unitAddr 0x06#8 addr value) (applyWrite addr.toNat value s)

/-- `WRM unit, start, [v0 .. v(count−1)]`: every check before the first write (44_write R195 to R198). -/
def execWrm (unit : Byte) (ops : WriteRun) (s : State) : Result State :=
  match ops with
  | .short _ => raiseExc unit 0x10#8 .illegalValue s
  | .run start count byteCount data =>
    match checkWriteRun s.cfg start count byteCount data with
    | .addressError => raiseExc unit 0x10#8 .illegalAddress s
    | .valueError => raiseExc unit 0x10#8 .illegalValue s
    | .ok =>
      answerWrite unit (echoBody s.unitAddr 0x10#8 start count) (applyRun start.toNat (bytesValues data) s)

/-- `WRS.R`: the emission of the echo (44_write R191, 30_encoding R98). -/
def execWrsR (unit : Byte) (addr value : Word) (s : State) : Result State :=
  emitResponse unit (echoBody unit 0x06#8 addr value) s

/-- `WRM.R`: the emission of start and count (44_write R195, 30_encoding R100). -/
def execWrmR (unit : Byte) (start count : Word) (s : State) : Result State :=
  emitResponse unit (echoBody unit 0x10#8 start count) s

end Sys2Proof.Machine
end

