-- ==== Sys2Proof/Machine/Dispatch.lean ====
section
/-! DEFINITION. The demultiplexer: one arm per row of spec/opcode_table.json (42_dispatcher R165, R171). -/

namespace Sys2Proof.Machine

def exec (i : Instr) (s : State) : Host.Outcome State Fault Refusal :=
  match i with
  | .rdh unit ops => Sys2Proof.Machine.execRdh unit ops s
  | .rdi unit ops => Sys2Proof.Machine.execRdi unit ops s
  | .wrs unit ops => Sys2Proof.Machine.execWrs unit ops s
  | .wrm unit ops => Sys2Proof.Machine.execWrm unit ops s
  | .rid unit payload => Sys2Proof.Machine.execRid unit payload s
  | .vid unit payload => Sys2Proof.Machine.execVid unit payload s
  | .rdhR unit values => Sys2Proof.Machine.execRdhR unit values s
  | .rdiR unit values => Sys2Proof.Machine.execRdiR unit values s
  | .wrsR unit addr value => Sys2Proof.Machine.execWrsR unit addr value s
  | .wrmR unit start count => Sys2Proof.Machine.execWrmR unit start count s
  | .ridR unit ident => Sys2Proof.Machine.execRidR unit ident s
  | .vidR unit ident => Sys2Proof.Machine.execVidR unit ident s
  | .exc unit function code => Sys2Proof.Machine.execExc unit function code s
  | .unknown unit function payload => Sys2Proof.Machine.execUnknown unit function payload s

end Sys2Proof.Machine
end

