-- ==== Sys2Proof/Machine/Cycle.lean ====
section
/-! DEFINITION. The FRM and DSP sub-blocks around `exec`: receiving bytes, closing a frame, validating and dispatching it,
and the other input events (41_transport R140 to R151; 42_dispatcher R160 to R171; 48_external_agents R263). -/

namespace Sys2Proof.Machine

/-! ## Receiving -/

/-- `RX(b)`: queued, or discarded while the block drives the line (41_transport R140). -/
def receive (b : Byte) (s : State) : State := if s.de then s else { s with uartQ := s.uartQ ++ [b] }

/-- The anomaly test, once per cycle, on the cycle's clock (41_transport R142, R143). -/
def anomalyTest (nowUs : Time) (s : State) : State :=
  if s.frmState = .accumulating ∧ s.t15 < elapsed s.cfg nowUs s.lastClk then s.countEvent .anom else s

/-- Queued bytes go to the receive buffer, oldest first; a byte beyond the 64th is lost (41_transport R144). -/
def storeBytes : List Byte → State → State
  | [], s => s
  | b :: bs, s =>
    storeBytes bs <|
      if s.rxLen < rxBuf then { s with rx := s.rx.write s.rxLen b, rxLen := s.rxLen + 1 }
      else { s with rxOvf := true }

/-- `FRM.APPEND(now_us)` (41_transport R142 to R144). -/
def frmAppend (nowUs : Time) (s : State) : State :=
  let s := anomalyTest nowUs s
  { storeBytes s.uartQ s with uartQ := [], lastClk := clockValue s.cfg nowUs, frmState := .accumulating }

/-! ## Dispatching -/

/-- The address check: this unit or a broadcast (42_dispatcher R163). -/
def addressed (unit : Byte) (s : State) : Bool := unit == 0x00#8 || unit == s.unitAddr

/-- `CRC.CHECK` leaves the accumulator at the checksum of the covered bytes (40_crc R134, 10_state R20). -/
def runCrcCheck (f : List Byte) (s : State) : State := { s with crc := crcOver (crcCovered f) }

/-- `DSP.PROCESS` on a closed frame (42_dispatcher R160 to R165, R171). -/
def dspProcess (s : State) : Result State :=
  let f := s.frame
  if s.rxOvf then .next (s.countEvent .overrun)
  else
    match decode f with
    | .ok i =>
      let s := runCrcCheck f s
      if addressed i.unit s then exec i (s.countEvent .framesOk) else .next s
    | .error .badChecksum => .next ((runCrcCheck f s).countEvent .crcErr)
    | .error _ => .next s

/-! ## The step -/

/-- Internal events that found no read to land before land after the cycle (20_memory R75; log 4). -/
def returnSched (s : State) : State :=
  { s with sched := [], inbox := s.sched.flatten.map Event.port ++ s.inbox }

/-- The silence of the current frame is longer than `T35` (41_transport R145). -/
def silenceOver (nowUs : Time) (s : State) : Bool :=
  s.frmState == .accumulating && decide (s.t35 < elapsed s.cfg nowUs s.lastClk)

/-- A cycle: append, or close and process, or nothing (41_transport R141, R145, R146, R150). -/
def cycleBody (nowUs : Time) (s : State) : Result State :=
  if s.uartQ = [] then
    if silenceOver nowUs s then
      andThen (dspProcess { s with frmState := .ready }) fun s => .next (frmClear s)
    else .next s
  else .next (frmAppend nowUs s)

/-- `CYCLE(now_us)` with the internal events that land inside it (41_transport R141, 20_memory R76). -/
def cycle (nowUs : Time) (between : List (List PortEvent)) (s : State) : Result State :=
  andThen (cycleBody nowUs { s with sched := between }) fun s => .next (returnSched s)

/-- One input event (00_scope R12). -/
def takeEvent : Event → State → Result State
  | .rx b, s => .next (receive b s)
  | .cycle nowUs between, s => cycle nowUs between s
  | .port e, s => portStep e s
  | .cfg unit, s => .next { s with unitAddr := unit }
  | .wscRead a, s => wscRead a s
  | .portRead bank a, s => portRead bank a s

/-- One step: the oldest input event; a block without one waits (20_memory R75, 70_reset R322; log 1). A configuration
that breaks the spec's constraints has no step (93_implementation_defined part 1; log 13). -/
def runStep (s : State) : Result State :=
  if admittedConfig s.cfg then
    match s.inbox with
    | [] => .next s
    | e :: later => takeEvent e { s with inbox := later }
  else .refused .configNotAdmitted

/-- The frame held in the receive buffer, its silence over, as the next thing the block processes (log 11). -/
def withFrame (s : State) (unit : Byte) (frame : List Byte) : State :=
  { s with
    unitAddr := unit
    frmState := .accumulating
    rx := Memory.writeAll [] 0 frame
    rxLen := frame.length
    rxOvf := false
    uartQ := []
    lastClk := 0
    inbox := .cycle (s.t35 + 1) [] :: s.inbox }

end Sys2Proof.Machine
end

