-- ==== Sys2Proof/Machine/Step.lean ====
section
/-! DEFINITION. The step of the block, and the state whose next step runs a given frame. -/

namespace Sys2Proof.Machine

/-- One step: the oldest input event (00_scope R12, 20_memory R75). -/
def step (s : State) : Host.Outcome State Fault Refusal := runStep s

/-- `s` with the table word's frame received and its closing cycle next (log 11). -/
def State.withFetchWord (s : State) (nbits w : Nat) : State := withFrame s tableUnit (tableFrame nbits w)

end Sys2Proof.Machine
end

