-- ==== Sys2Proof/Safety.lean ====
section
/-! DEFINITION. The terms the claims use: the invariant of the block between steps, a safe run, the state after a response
and after an exception, and what a frame of the machine's effects leaves alone. -/

namespace Sys2Proof.Machine

/-! ## The invariant -/

/-- The least integer a sample of the channel stands for (47_stats R236). -/
def StatChannel.lowest (ch : StatChannel) : Int := if ch.signed then -32768 else 0

/-- The greatest integer a sample of the channel stands for (47_stats R236). -/
def StatChannel.highest (ch : StatChannel) : Int := if ch.signed then 32767 else 65535

/-- An open window holds at least one sample, its fields have their widths, and `min ≤ mean ≤ max` inside the channel's range
(10_state R41, R42; 47_stats R242, R245). -/
structure Window.Ok (c : Config) (ch : StatChannel) (w : Window) : Prop where
  started : w.start < 2 ^ c.timeW
  counted : 1 ≤ w.count
  countFits : w.count < 2 ^ c.countW
  low : StatChannel.lowest ch ≤ w.min
  minMean : w.min ≤ w.mean
  meanMax : w.mean ≤ w.max
  high : w.max ≤ StatChannel.highest ch

/-- What holds between steps. -/
structure State.Inv (s : State) : Prop where
  /-- The configuration is one the spec admits (46_regmap R217, 45_ident R209). -/
  config : admittedConfig s.cfg = true
  /-- The receive buffer is in canonical form and has 64 bytes (10_state R22). -/
  rxForm : s.rx.wf ∧ s.rx.within rxBuf
  /-- The transmit buffer is in canonical form and has 69 bytes (10_state R29). -/
  txForm : s.tx.wf ∧ s.tx.within txMax
  /-- The fill of the receive buffer (10_state R22). -/
  rxFill : s.rxLen ≤ rxBuf
  /-- `READY` is left inside the step that enters it (10_state R21). -/
  notReady : s.frmState ≠ .ready
  /-- `rx_len = 0` if and only if `frm_state = IDLE` (10_state R22). -/
  idleEmpty : s.rxLen = 0 ↔ s.frmState = .idle
  /-- A byte is dropped only when the buffer is full (10_state R23). -/
  ovfFull : s.rxOvf = true → s.rxLen = rxBuf
  /-- Between steps the block receives (10_state R27). -/
  receiving : s.de = false
  /-- Between steps nothing is being sent (10_state R28). -/
  txQuiet : s.txIdle = true
  /-- The transmit buffer carries nothing between steps (10_state R29). -/
  txEmpty : s.txLen = 0
  /-- No internal event waits for a read between steps (model's own, log 4). -/
  schedEmpty : s.sched = []
  /-- One window per channel (10_state R41). -/
  windows : s.win.length = s.cfg.statCh.length
  /-- Every open window is as 10_state R42 says. -/
  windowsOk : ∀ (k : Nat) (ch : StatChannel), s.cfg.statCh[k]? = some ch → (s.window k).isOpen = true →
    Window.Ok s.cfg ch (s.window k)
  /-- A mirrored register always equals its diagnostic value (46_regmap R228). -/
  mirrored : ∀ (k : DiagKey) (a : Nat), s.cfg.diagMap.addr k = some a → s.readReg .input a = s.diag.value k
  /-- The last append's clock has `TIME_W` bits (10_state R25). -/
  lastClkFits : s.lastClk < 2 ^ s.cfg.timeW
  /-- The thresholds are the configured ones (10_state R31, 41_transport R149). -/
  thresholds : s.t15 = threshold15 s.cfg ∧ s.t35 = threshold35 s.cfg
  /-- A diagnostic counter has `DIAG_W` bits (10_state R33). -/
  diagFits : ∀ c : Counter, s.diag.counter c < 2 ^ s.cfg.diagW
  /-- A Write Sequence Counter has `WSC_W` bits (10_state R39). -/
  wscFits : ∀ a : Nat, s.readWsc a < 2 ^ s.cfg.wscW
  /-- The last exception code is 0 or one of the three codes (10_state R34). -/
  lastExcCode : s.diag.lastExc.toNat ≤ 3
  /-- Only command registers have a counter (10_state R39). -/
  noCounter : ∀ a : Nat, s.cfg.isCommand a = false → s.readWsc a = 0

/-! ## Safe runs -/

/-- No step of the run from here stops with a fault, however long it is. -/
def State.Safe (s : State) : Prop := ∀ (n : Nat) (f : Fault), Sys2Proof.core.run n s ≠ .fault f

/-! ## The state after a response and after an exception -/

/-- The trace of one sent frame: drive, every byte in order, the last bit has left, receive (41_transport R152). -/
def lineTrace (frame : List Byte) : List LineEvent :=
  .de true :: (frame.map LineEvent.byte ++ [.idle, .de false])

/-- The state after the body has been sent with its checksum and counted (42_dispatcher R169, R170; 41_transport R152;
40_crc R135). -/
def sent (body : List Byte) (s : State) : State :=
  State.countEvent .framesSent
    { s with
      crc := crcOver body
      tx := s.tx.writeAll 0 (withCrc body)
      txLen := 0
      de := false
      txIdle := true
      line := s.line ++ lineTrace (withCrc body)
      txLog := s.txLog ++ [withCrc body] }

/-- The state after an exception has been taken and answered (60_exceptions R282, R286). -/
def excepted (function : Byte) (code : ExcCode) (s : State) : State :=
  sent [s.unitAddr, function, code.byte] ((s.countEvent .excSent).setLastExc code)

/-- The state after `raise Exc(code)` in a request: nothing for a broadcast (60_exceptions R286). -/
def raised (unit fc : Byte) (code : ExcCode) (s : State) : State :=
  if unit = 0x00#8 then s else excepted (fc ||| 0x80#8) code s

/-- The state after a bus write of one holding register: the value and, for a command register, its counter
(46_regmap R222). -/
def written (a : Nat) (v : Word) (s : State) : State :=
  { s with
    holding := s.holding.setIfInBounds a v
    wsc := if s.cfg.isCommand a then s.wsc.setIfInBounds a ((s.readWsc a + 1) % 2 ^ s.cfg.wscW) else s.wsc }

/-! ## What a request may do -/

/-- The bus may write the holding register (46_regmap R220). -/
def writable (c : Config) (a : Nat) : Prop := ∃ r, c.attr .holding a = some r ∧ r.access = .rw

/-- The register's policy lets the value in (46_regmap R221). -/
def valueAllowed (c : Config) (a : Nat) (v : Word) : Prop :=
  ∃ r, c.attr .holding a = some r ∧ match r.policy with
    | .any => True
    | .enum allowed => v ∈ allowed
    | .range lo hi => lo.toNat ≤ v.toNat ∧ v.toNat ≤ hi.toNat

/-! ## What is left alone -/

/-- Everything but the register file, the diagnostics, the CRC accumulator, the transmit side and the schedule
inside a cycle is as before. -/
structure SameOutside (s t : State) : Prop where
  cfg : t.cfg = s.cfg
  frmState : t.frmState = s.frmState
  rx : ∀ i, t.rx.read i = s.rx.read i
  rxLen : t.rxLen = s.rxLen
  rxOvf : t.rxOvf = s.rxOvf
  lastClk : t.lastClk = s.lastClk
  uartQ : t.uartQ = s.uartQ
  txHang : t.txHang = s.txHang
  t15 : t.t15 = s.t15
  t35 : t.t35 = s.t35
  unitAddr : t.unitAddr = s.unitAddr
  win : t.win = s.win
  inbox : t.inbox = s.inbox
  answers : t.answers = s.answers

/-- The four diagnostic counters no function writes are as before (10_state R35). -/
structure SameCounters (s t : State) : Prop where
  framesOk : t.diag.framesOk = s.diag.framesOk
  crcErr : t.diag.crcErr = s.diag.crcErr
  overrun : t.diag.overrun = s.diag.overrun
  anom : t.diag.anom = s.diag.anom

/-- The diagnostic values a response or an exception writes (10_state R35). -/
def responseKeys : List DiagKey := [.counter .framesSent, .counter .excSent, .lastExc]

/-- Every input register but the mirrors of what a response writes is as before (46_regmap R228). -/
def SameInput (s t : State) : Prop :=
  ∀ a, (∀ k ∈ responseKeys, s.cfg.diagMap.addr k ≠ some a) → t.readReg .input a = s.readReg .input a

/-- The transmit side: nothing happened, or one frame was sent, its bytes are in the buffer from index 0 on, and every
other byte of the buffer is as before. -/
def SentAtMostOne (s t : State) : Prop :=
  (t.txLog = s.txLog ∧ t.line = s.line ∧ t.de = s.de ∧ t.txIdle = s.txIdle ∧ t.txLen = s.txLen ∧ t.crc = s.crc ∧
    t.diag = s.diag ∧ ∀ i, t.tx.read i = s.tx.read i) ∨
  ∃ body, t.txLog = s.txLog ++ [withCrc body] ∧ t.line = s.line ++ lineTrace (withCrc body) ∧ t.de = false ∧
    t.txIdle = true ∧ t.txLen = 0 ∧ t.crc = crcOver body ∧
    t.diag.framesSent = satInc s.cfg.diagW s.diag.framesSent ∧
    ∀ i, t.tx.read i = ((withCrc body)[i]?).getD (s.tx.read i)

/-- An event the environment may issue (48_external_agents R267): bytes, clocks and addresses are free, port events are
admitted ones, and the internal reads name what exists (log 12). -/
def eventAdmitted (c : Config) : Event → Prop
  | .rx _ => True
  | .cycle _ between => ∀ batch ∈ between, ∀ e ∈ batch, admitted c e = true
  | .port e => admitted c e = true
  | .cfg _ => True
  | .wscRead a => c.isCommand a = true
  | .portRead bank a => a < bank.size

/-- Every event the environment has scheduled for this cycle is one it may issue (46_regmap R225, 47_stats R237). -/
def schedAdmitted (s : State) : Prop := ∀ batch ∈ s.sched, ∀ e ∈ batch, admitted s.cfg e = true

end Sys2Proof.Machine
end

