-- ==== Sys2Proof/Certificates/Slice0/Obligations.lean ====
section
/-! DEFINITION. What is claimed of the block, for the provers. Each statement's docstring names the rules it formalises;
"model's choice" names the log entry or the spec's decision it rests on. -/

open Sys2Proof Sys2Proof.Machine

namespace Sys2Proof.Machine

/-! ## Hypotheses several statements share -/

/-- The next event is this one, in an admitted configuration. -/
structure NextEvent (s : State) (e : Event) (later : List Event) : Prop where
  config : admittedConfig s.cfg = true
  head : s.inbox = e :: later

/-- The next event is a cycle that finds no new byte and more than `T35` of silence: it closes the frame (41_transport
R145). -/
structure Closing (s : State) (now : Time) (between : List (List PortEvent)) (later : List Event) : Prop where
  next : NextEvent s (.cycle now between) later
  noByte : s.uartQ = []
  accumulating : s.frmState = .accumulating
  silent : s.t35 < elapsed s.cfg now s.lastClk

/-- A frame is dropped: nothing is sent, no holding register, Write Sequence Counter or window changes (60_exceptions
R283). -/
structure Dropped (s t : State) : Prop where
  txLog : t.txLog = s.txLog
  line : t.line = s.line
  holding : t.holding = s.holding
  wsc : t.wsc = s.wsc
  win : t.win = s.win
  unitAddr : t.unitAddr = s.unitAddr
  cfg : t.cfg = s.cfg

/-- Every input register but the mirror of one diagnostic value is as before (46_regmap R228). -/
def SameInputBut (k : DiagKey) (s t : State) : Prop :=
  ∀ a, s.cfg.diagMap.addr k ≠ some a → t.readReg .input a = s.readReg .input a

end Sys2Proof.Machine

/-! ## CRC -/

/-- 40_crc R130 and R133: the empty input gives 0xFFFF, and the accumulator starts there and takes the bytes one by one. -/
def Obligations.ChecksumIsAFoldFromFFFF : Prop :=
  crcInit = 0xFFFF#16 ∧ crcOver [] = 0xFFFF#16 ∧
    (∀ bytes b, crcOver (bytes ++ [b]) = crcByte (crcOver bytes) b) ∧
    crcOver [0x00#8] = 0x40BF#16 ∧ crcOver [0x01#8, 0x03#8, 0x00#8, 0x00#8, 0x00#8, 0x01#8] = 0x0A84#16

/-- 40_crc R136: `CRC.BYTE` is a bijection on the accumulator for a fixed byte, and different bytes give different
accumulators. -/
def Obligations.CrcByteIsBijective : Prop :=
  (∀ b, Function.Bijective fun c => crcByte c b) ∧ ∀ c, Function.Injective (crcByte c)

/-- 40_crc R134: the check compares the checksum of all but the last two bytes with the last two, low byte first, and
this holds exactly when the accumulator over the whole frame ends at zero. -/
def Obligations.CheckPassesExactlyOnZeroResidue : Prop :=
  ∀ f : List Byte, 4 ≤ f.length →
    (crcCheck f = true ↔
      crcOver (f.take (f.length - 2)) = pair (f.getD (f.length - 1) 0#8) (f.getD (f.length - 2) 0#8)) ∧
    (crcCheck f = true ↔ crcOver f = 0x0000#16)

/-! ## Encoding -/

/-- 30_encoding R90 to R99, R101, R112: decoding the encoding of a well-formed request gives it back, every operand at
every value. -/
def Obligations.RequestsRoundTrip : Prop :=
  ∀ i : Instr, i.isRequest = true → i.wf = true → decode (encode i) = .ok i

/-- 30_encoding R97 to R102, R110: the same for the responses. -/
def Obligations.ResponsesRoundTrip : Prop :=
  ∀ i : Instr, i.isRequest = false → i.wf = true → decodeResponse (encode i) = .ok i

/-- 30_encoding R90, R94: a decoded frame is the encoding of what was decoded, so every bit of it counts. -/
def Obligations.DecodedFramesReencode : Prop :=
  ∀ (f : List Byte) (i : Instr), decode f = .ok i → encode i = f ∧ i.isRequest = true

/-- 42_dispatcher R161, R162, R165 and 30_encoding R111: frames under 4 bytes and frames whose checksum fails are rejected
by name; any other frame decodes to a request with its first two bytes as unit and function, and an unknown function
takes its whole payload. -/
def Obligations.EveryFrameIsRejectedOrDecoded : Prop :=
  (∀ f : List Byte, f.length < 4 → decode f = .error .tooShort) ∧
  (∀ f : List Byte, 4 ≤ f.length → crcCheck f = false → decode f = .error .badChecksum) ∧
  ∀ (unit fc : Byte) (payload : List Byte), ∃ i, decode (withCrc (unit :: fc :: payload)) = .ok i ∧
    i.isRequest = true ∧ i.unit = unit ∧ i.function = fc ∧ i.payload = payload ∧
    (fc ∉ knownFunctions → i = .unknown unit fc payload)

/-- 95_test_vectors sections 3.3 to 3.6: frames written out in the spec decode to the requests they stand for. -/
def Obligations.SpecFramesDecode : Prop :=
  decode [0x10#8, 0x04#8, 0x00#8, 0x09#8, 0x00#8, 0x09#8, 0xE3#8, 0x4F#8] = .ok (.rdi 0x10#8 (.fields 9#16 9#16)) ∧
  decode [0x10#8, 0x06#8, 0x00#8, 0x03#8, 0xA5#8, 0x5A#8, 0x81#8, 0xE0#8] =
    .ok (.wrs 0x10#8 (.fields 3#16 0xA55A#16)) ∧
  decode [0x10#8, 0x41#8, 0xCC#8, 0x40#8] = .ok (.vid 0x10#8 []) ∧
  decode [0x10#8, 0x2B#8, 0x4C#8, 0x6F#8] = .ok (.unknown 0x10#8 0x2B#8 []) ∧
  decodeResponse [0x10#8, 0x86#8, 0x03#8, 0x52#8, 0x64#8] = .ok (.exc 0x10#8 0x86#8 .illegalValue)

/-! ## FRM -/

/-- 41_transport R140: a received byte goes to the tail of the queue, or is discarded while the block drives the line;
nothing else changes. -/
def Obligations.ReceivedByteIsQueuedUnlessDriving : Prop :=
  ∀ (s : State) (b : Byte) (later : List Event), NextEvent s (.rx b) later →
    (s.de = false → step s = .next { s with inbox := later, uartQ := s.uartQ ++ [b] }) ∧
    (s.de = true → step s = .next { s with inbox := later })

/-- 41_transport R144: a cycle with new bytes appends them oldest first up to 64 bytes, drops the rest and marks the
overflow, and restarts the silence clock; no holding register, counter of REG or window changes, nothing is sent. -/
def Obligations.CycleAppendsReceivedBytes : Prop :=
  ∀ (s : State) (now : Time) (between : List (List PortEvent)) (later : List Event),
    NextEvent s (.cycle now between) later → s.uartQ ≠ [] → s.rxLen ≤ rxBuf →
    ∃ t, step s = .next t ∧
      t.frame = (s.frame ++ s.uartQ).take rxBuf ∧
      t.rxLen = min rxBuf (s.rxLen + s.uartQ.length) ∧
      t.rxOvf = (s.rxOvf || decide (rxBuf < s.rxLen + s.uartQ.length)) ∧
      t.uartQ = [] ∧ t.lastClk = clockValue s.cfg now ∧ t.frmState = .accumulating ∧
      t.holding = s.holding ∧ t.wsc = s.wsc ∧ t.win = s.win ∧ t.txLog = s.txLog ∧ t.unitAddr = s.unitAddr ∧
      t.line = s.line ∧ t.crc = s.crc ∧ t.tx = s.tx ∧ SameInputBut (.counter .anom) s t

/-- 41_transport R142, R143 (the spec's own choice, D5): a cycle with new bytes counts one framing anomaly, once however
many bytes there are, when the frame was open and more than `T15` has passed; no other diagnostic value changes. -/
def Obligations.LateBytesCountOneAnomaly : Prop :=
  ∀ (s : State) (now : Time) (between : List (List PortEvent)) (later : List Event),
    NextEvent s (.cycle now between) later → s.uartQ ≠ [] →
    ∃ t, step s = .next t ∧
      t.diag = (if s.frmState = .accumulating ∧ s.t15 < elapsed s.cfg now s.lastClk then
        { s.diag with anom := satInc s.cfg.diagW s.diag.anom } else s.diag)

/-- 41_transport R150: a cycle without new bytes while idle, or with a silence not longer than `T35`, changes nothing
(the internal events scheduled inside it land after it: model's choice, log 4). -/
def Obligations.QuietCycleChangesNothing : Prop :=
  ∀ (s : State) (now : Time) (between : List (List PortEvent)) (later : List Event),
    NextEvent s (.cycle now between) later → s.uartQ = [] →
    (s.frmState = .idle ∨ ¬ s.t35 < elapsed s.cfg now s.lastClk) →
    step s = .next { s with inbox := between.flatten.map Event.port ++ later, sched := [] }

/-- 41_transport R145, R147: a cycle that closes a frame and goes on leaves the delimiter idle and empty, whatever became
of the frame. -/
def Obligations.ClosedFrameIsCleared : Prop :=
  ∀ (s t : State) (now : Time) (between : List (List PortEvent)) (later : List Event),
    Closing s now between later → step s = .next t → t.frmState = .idle ∧ t.rxLen = 0 ∧ t.rxOvf = false

/-- 41_transport R141, R146 and 42_dispatcher R163 to R165: a closed frame that decodes to a request for this unit or a
broadcast is counted and run by `exec`; then the delimiter is cleared, and internal events that found no read to
land before are put first in the queue (model's choice, log 4). -/
def Obligations.StepRunsTheDecodedFrame : Prop :=
  ∀ (s : State) (now : Time) (between : List (List PortEvent)) (later : List Event) (i : Instr),
    Closing s now between later → s.rxOvf = false → decode s.frame = .ok i →
    (i.unit = 0x00#8 ∨ i.unit = s.unitAddr) →
    step s =
      match exec i (State.countEvent .framesOk
          { s with
            inbox := later
            sched := between
            frmState := .ready
            crc := crcOver (s.frame.take (s.frame.length - 2)) }) with
      | .next t =>
        .next { t with
          frmState := .idle
          rxLen := 0
          rxOvf := false
          sched := []
          inbox := t.sched.flatten.map Event.port ++ t.inbox }
      | .fault f => .fault f
      | .refused r => .refused r

/-- 42_dispatcher R160: an overflowed frame is dropped and counts one overrun, no other diagnostic value, and the checksum
is not tested. -/
def Obligations.OverflowedFrameIsDropped : Prop :=
  ∀ (s : State) (now : Time) (between : List (List PortEvent)) (later : List Event),
    Closing s now between later → s.rxOvf = true →
    ∃ t, step s = .next t ∧ Dropped s t ∧ t.diag = { s.diag with overrun := satInc s.cfg.diagW s.diag.overrun } ∧
      t.crc = s.crc ∧ SameInputBut (.counter .overrun) s t

/-- 42_dispatcher R161: a closed frame under 4 bytes is dropped and no diagnostic value changes. -/
def Obligations.ShortFrameIsDropped : Prop :=
  ∀ (s : State) (now : Time) (between : List (List PortEvent)) (later : List Event),
    Closing s now between later → s.rxOvf = false → s.rxLen < 4 →
    ∃ t, step s = .next t ∧ Dropped s t ∧ t.diag = s.diag ∧ t.input = s.input

/-- 42_dispatcher R162: a checksum mismatch, whoever the frame is for, counts one CRC error and the frame is dropped. -/
def Obligations.CorruptFrameIsDropped : Prop :=
  ∀ (s : State) (now : Time) (between : List (List PortEvent)) (later : List Event),
    Closing s now between later → s.rxOvf = false → 4 ≤ s.rxLen → crcCheck s.frame = false →
    ∃ t, step s = .next t ∧ Dropped s t ∧ t.diag = { s.diag with crcErr := satInc s.cfg.diagW s.diag.crcErr } ∧
      SameInputBut (.counter .crcErr) s t

/-- 42_dispatcher R163: a good frame for another unit is dropped and no diagnostic value changes. -/
def Obligations.ForeignFrameIsDropped : Prop :=
  ∀ (s : State) (now : Time) (between : List (List PortEvent)) (later : List Event) (i : Instr),
    Closing s now between later → s.rxOvf = false → decode s.frame = .ok i →
    i.unit ≠ 0x00#8 → i.unit ≠ s.unitAddr →
    ∃ t, step s = .next t ∧ Dropped s t ∧ t.diag = s.diag ∧ t.input = s.input

/-- 70_reset R331, 93_implementation_defined U16: while the transmitter never reports idle, the emission of a response of
this block never ends, and so no unicast request ends; the model stops with a fault by name (model's choice, log 7). -/
def Obligations.EmissionWaitsForTheTransmitter : Prop :=
  ∀ (s : State) (i : Instr), s.txHang = true →
    (i.isRequest = false → i.wf = true → i.unit = s.unitAddr → exec i s = .fault .txNeverIdle) ∧
    (i.isRequest = true → i.unit ≠ 0x00#8 → s.cfg.ident.length ≤ 64 → schedAdmitted s →
      exec i s = .fault .txNeverIdle)

/-- 41_transport R152: sending puts the line in drive mode, hands over every byte of the transmit buffer in order, waits
for the last bit to leave, and only then reverts to receive mode; the buffer is empty and the frame is an output. -/
def Obligations.SendDrivesTheLineInOrder : Prop :=
  ∀ s : State, s.txHang = false →
    let frame := s.tx.readAll 0 s.txLen
    ∃ t, frmSend s = .next t ∧
      t.line = s.line ++ .de true :: (frame.map LineEvent.byte ++ [.idle, .de false]) ∧
      t.txLog = s.txLog ++ [frame] ∧ t.de = false ∧ t.txIdle = true ∧ t.txLen = 0 ∧
      t.diag = s.diag ∧ t.holding = s.holding ∧ t.input = s.input ∧ t.wsc = s.wsc ∧ t.win = s.win

/-! ## DSP and exceptions -/

/-- 42_dispatcher R169 to R171, 60_exceptions R286, 41_transport R155, 30_encoding R93: every unicast request the dispatcher
hands over (`exec` takes every unit but 0 for this block's: model's choice, log 14), whatever its operands, is answered by
exactly one frame of this block, which carries the request's function code, or that code with bit 7 set and an exception
code; every broadcast ends and is answered by nothing. -/
def Obligations.UnicastRequestsAreAnsweredOnce : Prop :=
  ∀ (s : State) (i : Instr), i.isRequest = true → s.txHang = false → s.cfg.ident.length ≤ 64 → schedAdmitted s →
    ∃ t, exec i s = .next t ∧
      (i.unit = 0x00#8 → t.txLog = s.txLog ∧ t.line = s.line ∧ t.diag = s.diag) ∧
      (i.unit ≠ 0x00#8 → ∃ rest, t.txLog = s.txLog ++ [withCrc (s.unitAddr :: rest)] ∧
        t.diag.framesSent = satInc s.cfg.diagW s.diag.framesSent ∧
        (rest.head? = some i.function ∨ ∃ code : ExcCode, rest = [i.function ||| 0x80#8, code.byte]))

/-- 10_state R29, 30_encoding R102: a response longer than the 69 bytes of the transmit buffer, which no admitted
configuration can build, stops with a fault by name (model's choice, log 17). -/
def Obligations.OversizeResponsesStop : Prop :=
  ∀ s : State,
    (∀ i : Instr, i.isRequest = false → i.unit = s.unitAddr → i.unit ≠ 0x00#8 → 69 < (encode i).length →
      exec i s = .fault .txBufferOverrun) ∧
    (∀ unit : Byte, unit ≠ 0x00#8 → 64 < s.cfg.ident.length →
      exec (.rid unit []) s = .fault .txBufferOverrun ∧ exec (.vid unit []) s = .fault .txBufferOverrun)

/-- 60_exceptions R286: a suppressed exception changes nothing; any other counts one exception and one sent frame, records
the code, sends unit address, function with bit 7 set, code and checksum, and changes no register, counter of REG or
window, nothing of the receive side, the configuration, the events or the answers. -/
def Obligations.ExceptionIsRecordedAndAnswered : Prop :=
  ∀ (unit fc : Byte) (code : ExcCode) (s : State),
    (unit = 0x00#8 → raiseExc unit fc code s = .next s) ∧
    (unit ≠ 0x00#8 → s.txHang = false → ∃ t, raiseExc unit fc code s = .next t ∧
      t.diag = { s.diag with
        excSent := satInc s.cfg.diagW s.diag.excSent
        lastExc := code.byte
        framesSent := satInc s.cfg.diagW s.diag.framesSent } ∧
      t.txLog = s.txLog ++ [withCrc [s.unitAddr, fc ||| 0x80#8, code.byte]] ∧
      t.line = s.line ++ lineTrace (withCrc [s.unitAddr, fc ||| 0x80#8, code.byte]) ∧
      t.de = false ∧ t.txLen = 0 ∧
      t.holding = s.holding ∧ t.wsc = s.wsc ∧ t.sched = s.sched ∧ SameOutside s t ∧ SameCounters s t ∧ SameInput s t)

/-- 42_dispatcher R167: an unknown function code raises the illegal-function exception, whatever the payload. -/
def Obligations.UnknownFunctionRaisesIllegalFunction : Prop :=
  ∀ (unit fc : Byte) (payload : List Byte) (s : State), s.txHang = false →
    exec (.unknown unit fc payload) s = .next (raised unit fc .illegalFunction s)

/-- 42_dispatcher R168: a broadcast of a read, of an identification or of an unknown function has no effect. -/
def Obligations.BroadcastOfNonWriteHasNoEffect : Prop :=
  ∀ (ops : TwoFields) (payload : List Byte) (fc : Byte) (s : State),
    exec (.rdh 0x00#8 ops) s = .next s ∧ exec (.rdi 0x00#8 ops) s = .next s ∧
    exec (.rid 0x00#8 payload) s = .next s ∧ exec (.vid 0x00#8 payload) s = .next s ∧
    exec (.unknown 0x00#8 fc payload) s = .next s

/-- 41_transport R155, 42_dispatcher R170, 60_exceptions R286: whatever the instruction, a broadcast puts nothing on the
wire and records no exception. -/
def Obligations.BroadcastIsNeverAnswered : Prop :=
  ∀ (i : Instr) (s t : State), i.unit = 0x00#8 → exec i s = .next t →
    t.txLog = s.txLog ∧ t.line = s.line ∧ t.diag = s.diag

/-- 41_transport R155, 42_dispatcher R169: a step drives the line only for the answer to a unicast request: the frame that
this very cycle closes names this block, whose address is not 0. What it sends is one frame that begins with the block's
own address and carries a right checksum. So a block with unit address 0 never transmits (70_reset R337). -/
def Obligations.OnlyUnicastRequestsAreAnswered : Prop :=
  ∀ s t : State, step s = .next t →
    (t.txLog = s.txLog ∧ t.line = s.line) ∨
    ∃ now between later i frame, Closing s now between later ∧ s.rxOvf = false ∧ decode s.frame = .ok i ∧
      i.unit = s.unitAddr ∧ i.unit ≠ 0x00#8 ∧
      t.txLog = s.txLog ++ [frame] ∧ t.line = s.line ++ lineTrace frame ∧
      frame.head? = some s.unitAddr ∧ crcCheck frame = true

/-! ## Reads -/

/-- 43_read R180, R181 and 20_memory R76: a read of holding registers answers the values in address order, the value of
each register as it stands when its turn comes: the internal events scheduled between two reads have landed, and nothing
else has changed. -/
def Obligations.ReadHoldingAnswersTheRun : Prop :=
  ∀ (s : State) (unit : Byte) (start count : Word), unit ≠ 0x00#8 → s.txHang = false → schedAdmitted s →
    1 ≤ count.toNat → count.toNat ≤ 32 → start.toNat + count.toNat ≤ 48 →
    ∃ values u, values.length = count.toNat ∧
      (∀ i < count.toNat, ∃ si, deliver (s.sched.take i).flatten s = .next si ∧
        values[i]? = some (si.readReg .holding (start.toNat + i))) ∧
      deliver (s.sched.take (count.toNat - 1)).flatten s = .next u ∧
      exec (.rdh unit (.fields start count)) s =
        .next (sent (s.unitAddr :: 0x03#8 :: BitVec.ofNat 8 (2 * count.toNat) :: valueBytes values)
          { u with sched := s.sched.drop (count.toNat - 1) })

/-- 43_read R180, R182 and 20_memory R62, R76: the same for input registers, from the input bank. -/
def Obligations.ReadInputAnswersTheRun : Prop :=
  ∀ (s : State) (unit : Byte) (start count : Word), unit ≠ 0x00#8 → s.txHang = false → schedAdmitted s →
    1 ≤ count.toNat → count.toNat ≤ 32 → start.toNat + count.toNat ≤ 32 →
    ∃ values u, values.length = count.toNat ∧
      (∀ i < count.toNat, ∃ si, deliver (s.sched.take i).flatten s = .next si ∧
        values[i]? = some (si.readReg .input (start.toNat + i))) ∧
      deliver (s.sched.take (count.toNat - 1)).flatten s = .next u ∧
      exec (.rdi unit (.fields start count)) s =
        .next (sent (s.unitAddr :: 0x04#8 :: BitVec.ofNat 8 (2 * count.toNat) :: valueBytes values)
          { u with sched := s.sched.drop (count.toNat - 1) })

/-- 43_read R183: a read of no register, of more than 32 or beyond the bank raises illegal address, the sum unbounded; a
frame of the wrong length raises illegal value. -/
def Obligations.BadReadsRaise : Prop :=
  ∀ (s : State) (unit : Byte), s.txHang = false →
    (∀ payload, exec (.rdh unit (.badLength payload)) s = .next (raised unit 0x03#8 .illegalValue s) ∧
      exec (.rdi unit (.badLength payload)) s = .next (raised unit 0x04#8 .illegalValue s)) ∧
    (∀ start count : Word, count.toNat < 1 ∨ 32 < count.toNat ∨ 48 < start.toNat + count.toNat →
      exec (.rdh unit (.fields start count)) s = .next (raised unit 0x03#8 .illegalAddress s)) ∧
    (∀ start count : Word, count.toNat < 1 ∨ 32 < count.toNat ∨ 32 < start.toNat + count.toNat →
      exec (.rdi unit (.fields start count)) s = .next (raised unit 0x04#8 .illegalAddress s))

/-! ## Writes -/

/-- 44_write R191, R193, 46_regmap R222: an accepted single write stores the value, bumps the counter of a command
register, and is echoed unless it was a broadcast. -/
def Obligations.AcceptedWriteSingleStoresAndEchoes : Prop :=
  ∀ (s : State) (unit : Byte) (addr value : Word), s.txHang = false →
    writable s.cfg addr.toNat → valueAllowed s.cfg addr.toNat value →
    (unit ≠ 0x00#8 → exec (.wrs unit (.fields addr value)) s =
      .next (sent (s.unitAddr :: 0x06#8 :: [hiByte addr, loByte addr, hiByte value, loByte value])
        (written addr.toNat value s))) ∧
    (unit = 0x00#8 → exec (.wrs unit (.fields addr value)) s = .next (written addr.toNat value s))

/-- 44_write R192: a single write of the wrong length, to a register the bus may not write, or of a value outside its
policy changes no register and raises illegal value, illegal address, illegal value. -/
def Obligations.RejectedWriteSingleRaises : Prop :=
  ∀ (s : State) (unit : Byte), s.txHang = false →
    (∀ payload, exec (.wrs unit (.badLength payload)) s = .next (raised unit 0x06#8 .illegalValue s)) ∧
    (∀ addr value : Word, ¬ writable s.cfg addr.toNat →
      exec (.wrs unit (.fields addr value)) s = .next (raised unit 0x06#8 .illegalAddress s)) ∧
    (∀ addr value : Word, writable s.cfg addr.toNat → ¬ valueAllowed s.cfg addr.toNat value →
      exec (.wrs unit (.fields addr value)) s = .next (raised unit 0x06#8 .illegalValue s))

/-- 44_write R195, R198: when every register of the run is writable and every value allowed, the run is written, each
command register in it gets exactly one count, nothing else of REG changes, and start and count are answered unless it
was a broadcast. -/
def Obligations.AcceptedWriteMultipleWritesTheRun : Prop :=
  ∀ (s : State) (unit : Byte) (start count : Word) (byteCount : Byte) (values : List Word), s.txHang = false →
    1 ≤ count.toNat → count.toNat ≤ 32 → start.toNat + count.toNat ≤ 48 →
    byteCount.toNat = 2 * count.toNat → values.length = count.toNat →
    (∀ i v, values[i]? = some v → writable s.cfg (start.toNat + i) ∧ valueAllowed s.cfg (start.toNat + i) v) →
    ∃ w, (∀ a, w.readReg .holding a =
        if start.toNat ≤ a then (values[a - start.toNat]?).getD (s.readReg .holding a) else s.readReg .holding a) ∧
      (∀ a, w.readWsc a =
        if start.toNat ≤ a ∧ a < start.toNat + count.toNat ∧ s.cfg.isCommand a = true then
          (s.readWsc a + 1) % 2 ^ s.cfg.wscW
        else s.readWsc a) ∧
      w = { s with holding := w.holding, wsc := w.wsc } ∧
      exec (.wrm unit (.run start count byteCount (valueBytes values))) s =
        if unit = 0x00#8 then .next w
        else .next (sent (s.unitAddr :: 0x10#8 :: [hiByte start, loByte start, hiByte count, loByte count]) w)

/-- 44_write R196, R197: the checks of a multiple write in their order, the first failure decides, and nothing is
written. -/
def Obligations.RejectedWriteMultipleRaises : Prop :=
  ∀ (s : State) (unit : Byte), s.txHang = false →
    (∀ payload, exec (.wrm unit (.short payload)) s = .next (raised unit 0x10#8 .illegalValue s)) ∧
    ∀ (start count : Word) (byteCount : Byte) (data : List Byte),
      let inRange := 1 ≤ count.toNat ∧ count.toNat ≤ 32 ∧ start.toNat + count.toNat ≤ 48
      let sized := byteCount.toNat = 2 * count.toNat ∧ data.length = 2 * count.toNat
      let allWritable := ∀ i < count.toNat, writable s.cfg (start.toNat + i)
      let allAllowed := ∀ i v, (bytesValues data)[i]? = some v → valueAllowed s.cfg (start.toNat + i) v
      (¬ inRange → exec (.wrm unit (.run start count byteCount data)) s =
        .next (raised unit 0x10#8 .illegalAddress s)) ∧
      (inRange → ¬ sized → exec (.wrm unit (.run start count byteCount data)) s =
        .next (raised unit 0x10#8 .illegalValue s)) ∧
      (inRange → sized → ¬ allWritable → exec (.wrm unit (.run start count byteCount data)) s =
        .next (raised unit 0x10#8 .illegalAddress s)) ∧
      (inRange → sized → allWritable → ¬ allAllowed → exec (.wrm unit (.run start count byteCount data)) s =
        .next (raised unit 0x10#8 .illegalValue s))

/-- 44_write R201: what a single write stores, a later read of that register returns, after a unicast and after a
broadcast write. -/
def Obligations.ReadReturnsTheWrittenValue : Prop :=
  ∀ (s : State) (unit reader : Byte) (addr value : Word), s.txHang = false → reader ≠ 0x00#8 →
    writable s.cfg addr.toNat → valueAllowed s.cfg addr.toNat value →
    ∃ t t', exec (.wrs unit (.fields addr value)) s = .next t ∧
      exec (.rdh reader (.fields addr 1#16)) t = .next t' ∧
      t'.txLog = t.txLog ++ [withCrc [s.unitAddr, 0x03#8, 0x02#8, hiByte value, loByte value]]

/-! ## Identification -/

/-- 45_ident R206: report identification answers the length and bytes of `IDENT` and changes nothing else; a payload raises
illegal value. -/
def Obligations.ReportIdentificationAnswersIdent : Prop :=
  ∀ (s : State) (unit : Byte), unit ≠ 0x00#8 → s.txHang = false → s.cfg.ident.length ≤ 64 →
    exec (.rid unit []) s =
      .next (sent (s.unitAddr :: 0x11#8 :: BitVec.ofNat 8 s.cfg.ident.length :: s.cfg.ident) s) ∧
    ∀ payload, payload ≠ [] → exec (.rid unit payload) s = .next (raised unit 0x11#8 .illegalValue s)

/-- 45_ident R208, R210: vendor identify writes the Identify register and bumps its counter, exactly as a single write of
that value would, then answers `IDENT`; a payload raises illegal value and triggers nothing. -/
def Obligations.VendorIdentifyWritesAndAnswers : Prop :=
  ∀ (s : State) (unit : Byte), unit ≠ 0x00#8 → s.txHang = false → admittedConfig s.cfg = true →
    exec (.vid unit []) s =
      .next (sent (s.unitAddr :: 0x41#8 :: BitVec.ofNat 8 s.cfg.ident.length :: s.cfg.ident)
        { s with
          holding := s.holding.setIfInBounds s.cfg.identifyAddr s.cfg.identify41Value
          wsc := s.wsc.setIfInBounds s.cfg.identifyAddr ((s.readWsc s.cfg.identifyAddr + 1) % 2 ^ s.cfg.wscW) }) ∧
    exec (.wrs 0x00#8 (.fields (BitVec.ofNat 16 s.cfg.identifyAddr) s.cfg.identify41Value)) s =
      .next { s with
        holding := s.holding.setIfInBounds s.cfg.identifyAddr s.cfg.identify41Value
        wsc := s.wsc.setIfInBounds s.cfg.identifyAddr ((s.readWsc s.cfg.identifyAddr + 1) % 2 ^ s.cfg.wscW) } ∧
    ∀ payload, payload ≠ [] → exec (.vid unit payload) s = .next (raised unit 0x41#8 .illegalValue s)

/-! ## Response rows -/

/-- 42_dispatcher R169, R170: the emission of a response row of this block (RDH.R, RDI.R, WRS.R, WRM.R, RID.R, VID.R)
sends exactly its encoding and counts it; a response of another unit, or of unit 0, is not sent (model's choice,
log 10). -/
def Obligations.ResponseRowsSendTheirEncoding : Prop :=
  ∀ (s : State) (i : Instr), i.isRequest = false → (∀ u f c, i ≠ .exc u f c) →
    (i.wf = true → s.txHang = false → i.unit = s.unitAddr →
      exec i s = .next (sent i.body s) ∧ (sent i.body s).txLog = s.txLog ++ [encode i]) ∧
    (i.unit ≠ s.unitAddr ∨ i.unit = 0x00#8 → exec i s = .next s)

/-- 60_exceptions R286: the emission of an exception response of this block records the exception and sends the frame's
encoding; the exception of another unit, or of unit 0, is not this block's (model's choice, log 10). -/
def Obligations.ExceptionRowIsTaken : Prop :=
  ∀ (s : State) (unit function : Byte) (code : ExcCode),
    (unit ≠ 0x00#8 → s.txHang = false → unit = s.unitAddr →
      exec (.exc unit function code) s = .next (excepted function code s) ∧
      (excepted function code s).txLog = s.txLog ++ [encode (.exc unit function code)]) ∧
    (unit ≠ s.unitAddr ∨ unit = 0x00#8 → exec (.exc unit function code) s = .next s)

/-- 30_encoding R93, R97 to R102: a request this unit accepts is answered by its response row: the two runs end in the same
state, where a write function's response row starts from the state after its writes (44_write R195, R198; 45_ident R208). -/
def Obligations.RequestsEndInTheirResponseRows : Prop :=
  ∀ (s : State) (unit : Byte), unit = s.unitAddr → unit ≠ 0x00#8 →
    (∀ start count : Word, s.sched = [] → runInBank .holding start count = true →
      exec (.rdh unit (.fields start count)) s =
        exec (.rdhR unit ((List.range count.toNat).map fun i => s.readReg .holding (start.toNat + i))) s) ∧
    (∀ start count : Word, s.sched = [] → runInBank .input start count = true →
      exec (.rdi unit (.fields start count)) s =
        exec (.rdiR unit ((List.range count.toNat).map fun i => s.readReg .input (start.toNat + i))) s) ∧
    (∀ addr value : Word, checkWrite s.cfg addr.toNat value = .ok →
      exec (.wrs unit (.fields addr value)) s = exec (.wrsR unit addr value) (written addr.toNat value s)) ∧
    (∀ (start count : Word) (byteCount : Byte) (data : List Byte),
      checkWriteRun s.cfg start count byteCount data = .ok →
      exec (.wrm unit (.run start count byteCount data)) s =
        exec (.wrmR unit start count) (applyRun start.toNat (bytesValues data) s)) ∧
    exec (.rid unit []) s = exec (.ridR unit s.cfg.ident) s ∧
    exec (.vid unit []) s =
      exec (.vidR unit s.cfg.ident) (written s.cfg.identifyAddr s.cfg.identify41Value s) ∧
    ∀ (fc : Byte) (payload : List Byte),
      exec (.unknown unit fc payload) s = exec (.exc unit (fc ||| 0x80#8) .illegalFunction) s

/-! ## Frames -/

/-- 20_memory R71 and 60_exceptions R286: a read, an identification report, an unknown function and every response row
change no register, Write Sequence Counter or window; the diagnostics but the three a response writes, the receive side
and the configuration stay; in the transmit buffer only the bytes of the frame sent change. With events scheduled
between reads this is said of the state they lead to by `ReadHoldingAnswersTheRun` and `ReadInputAnswersTheRun`. -/
def Obligations.NonWritingFrame : Prop :=
  ∀ (i : Instr) (s t : State), exec i s = .next t →
    (match i with
      | .wrs _ _ | .wrm _ _ | .vid _ _ => False
      | .rdh _ _ | .rdi _ _ => s.sched = []
      | _ => True) →
    t.holding = s.holding ∧ t.wsc = s.wsc ∧ t.sched = s.sched ∧ SameOutside s t ∧ SameCounters s t ∧ SameInput s t ∧
    SentAtMostOne s t

/-- 20_memory R72, 44_write R191, R195, 45_ident R208: a write function changes no holding register and no counter
outside the registers its frame names (the Identify register for 0x41), no input register, no window, nothing of the
receive side; in the transmit buffer only the bytes of the frame sent change. -/
def Obligations.WritingFrame : Prop :=
  ∀ (i : Instr) (s t : State), exec i s = .next t →
    (match i with | .wrs _ _ | .wrm _ _ | .vid _ _ => True | _ => False) →
    (∀ a, (match i with
        | .wrs _ (.fields addr _) => a ≠ addr.toNat
        | .wrm _ (.run start count _ _) => a < start.toNat ∨ start.toNat + count.toNat ≤ a
        | .vid _ _ => a ≠ s.cfg.identifyAddr
        | _ => True) →
      t.readReg .holding a = s.readReg .holding a ∧ t.readWsc a = s.readWsc a) ∧
    t.sched = s.sched ∧ SameOutside s t ∧ SameCounters s t ∧ SameInput s t ∧ SentAtMostOne s t

/-! ## REG -/

/-- 46_regmap R220, R221: the address part and the value part of `REG.CHECKWRITE`. -/
def Obligations.CheckWriteAnswers : Prop :=
  ∀ (c : Config) (a : Nat) (v : Word),
    (checkWrite c a v = .addressError ↔ ¬ writable c a) ∧
    (checkWrite c a v = .valueError ↔ writable c a ∧ ¬ valueAllowed c a v) ∧
    (checkWrite c a v = .ok ↔ writable c a ∧ valueAllowed c a v) ∧
    (0x002F < a → checkWrite c a v = .addressError)

/-- 46_regmap R222: `REG.APPLYWRITE` stores the value and counts exactly once on a command register, modulo `2^WSC_W`; no
other register and no other counter changes. -/
def Obligations.ApplyWriteStoresAndCounts : Prop :=
  ∀ (s : State) (a : Nat) (v : Word), a < 48 →
    (∀ b, (applyWrite a v s).readReg .holding b = if b = a then v else s.readReg .holding b) ∧
    (∀ b, (applyWrite a v s).readReg .input b = s.readReg .input b) ∧
    ∀ b, (applyWrite a v s).readWsc b =
      if b = a ∧ s.cfg.isCommand a = true then (s.readWsc a + 1) % 2 ^ s.cfg.wscW else s.readWsc b

/-- 46_regmap R218, R219, 43_read R180: the `REG.READ` that RDH and RDI run gives an address error outside the bank, the sum
unbounded; inside it the run's values in address order, each as it stands when its turn comes, and writes nothing of its
own: with nothing scheduled the state is as before. Access, policy and owner play no part. (Where scheduled events land is
the model's choice, log 4.) -/
def Obligations.RegReadGivesTheRun : Prop :=
  ∀ (s : State) (bank : Bank) (start count : Word),
    (count.toNat < 1 ∨ 32 < count.toNat ∨ bank.size < start.toNat + count.toNat → regRead bank start count s = none) ∧
    (1 ≤ count.toNat → count.toNat ≤ 32 → start.toNat + count.toNat ≤ bank.size → schedAdmitted s →
      ∃ values u, regRead bank start count s = some (.next (values, { u with sched := s.sched.drop (count.toNat - 1) })) ∧
        values.length = count.toNat ∧
        (∀ i < count.toNat, ∃ si, deliver (s.sched.take i).flatten s = .next si ∧
          values[i]? = some (si.readReg bank (start.toNat + i))) ∧
        deliver (s.sched.take (count.toNat - 1)).flatten s = .next u ∧
        (s.sched = [] → u = s))

/-- 46_regmap R224: a port write by the owner stores the value, whatever the policy, and counts nothing. A register that
mirrors a diagnostic value keeps showing it (model's reading of R228, log 9). -/
def Obligations.PortWriteByTheOwnerStores : Prop :=
  ∀ (s : State) (role : Role) (bank : Bank) (a : Nat) (v : Word) (later : List Event),
    NextEvent s (.port (.portWrite role bank a v)) later → s.cfg.owns role bank a = true →
    ∃ t, step s = .next t ∧
      (bank = .holding → ∀ x, t.readReg .holding x = if x = a then v else s.readReg .holding x) ∧
      (bank = .holding → t.input = s.input) ∧
      (bank = .input → (∀ k, s.cfg.diagMap.addr k ≠ some a) →
        ∀ x, t.readReg .input x = if x = a then v else s.readReg .input x) ∧
      (∀ k, bank = .input → s.cfg.diagMap.addr k = some a →
        ∀ x, t.readReg .input x = if x = a then s.diag.value k else s.readReg .input x) ∧
      (bank = .input → t.holding = s.holding) ∧
      t.wsc = s.wsc ∧ t.win = s.win ∧ t.diag = s.diag ∧ t.inbox = later ∧ t.txLog = s.txLog

/-- 46_regmap R225, 47_stats R237 (the spec's own choices, D21 and D36): a port write by a role that does not own the
address, a port write outside the bank and a sample of no channel are no admitted events: each is refused by name. -/
def Obligations.EventsNotAdmittedAreRefused : Prop :=
  (∀ (s : State) (role : Role) (bank : Bank) (a : Nat) (v : Word) (later : List Event),
    NextEvent s (.port (.portWrite role bank a v)) later →
    (a < bank.size → s.cfg.owns role bank a = false → step s = .refused .portWriteNotOwner) ∧
    (bank.size ≤ a → step s = .refused .portWriteOutsideBank)) ∧
  ∀ (s : State) (k : Nat) (raw : Word) (t : Time) (later : List Event),
    NextEvent s (.port (.sample k raw t)) later → s.cfg.statCh.length ≤ k → step s = .refused .sampleUnknownChannel

/-- 46_regmap R223, R226: the internal reads answer the counter and the register and change nothing else; an address that
has none is refused by name (model's choice, log 12). -/
def Obligations.InternalReadsAnswer : Prop :=
  ∀ (s : State) (a : Nat) (bank : Bank) (later : List Event),
    (NextEvent s (.wscRead a) later →
      (s.cfg.isCommand a = true →
        step s = .next { s with inbox := later, answers := s.answers ++ [.wsc a (s.readWsc a)] }) ∧
      (s.cfg.isCommand a = false → step s = .refused .wscReadNoCounter)) ∧
    (NextEvent s (.portRead bank a) later →
      (a < bank.size →
        step s = .next { s with inbox := later, answers := s.answers ++ [.reg bank a (s.readReg bank a)] }) ∧
      (bank.size ≤ a → step s = .refused .portReadOutsideBank))

/-! ## STA -/

/-- 47_stats R238: the first sample seeds the window, which starts at the event's time as a clock of `TIME_W` bits, and
writes no register. -/
def Obligations.FirstSampleSeeds : Prop :=
  ∀ (s : State) (k : Nat) (ch : StatChannel) (raw : Word) (t : Time) (later : List Event),
    NextEvent s (.port (.sample k raw t)) later → s.cfg.statCh[k]? = some ch → k < s.win.length →
    (s.window k).isOpen = false →
    let v := sampleValue ch raw
    step s = .next { s with inbox := later, win := s.win.set k ⟨true, clockValue s.cfg t, 1, v, v, v⟩ }

/-- 47_stats R239: a sample at or past 5000 ms emits the three results of the window and opens the next, seeded by the same
sample at its own time. -/
def Obligations.LateSampleClosesTheWindow : Prop :=
  ∀ (s : State) (k : Nat) (ch : StatChannel) (raw : Word) (t : Time) (later : List Event),
    NextEvent s (.port (.sample k raw t)) later → s.cfg.statCh[k]? = some ch → k < s.win.length →
    (s.window k).isOpen = true → 5000 ≤ elapsed s.cfg t (s.window k).start →
    let v : Int := if ch.signed then raw.toInt else raw.toNat
    ∃ u, step s = .next u ∧ u.win = s.win.set k ⟨true, clockValue s.cfg t, 1, v, v, v⟩ ∧
      u.readReg .input ch.minAddr = BitVec.ofInt 16 (s.window k).min ∧
      u.readReg .input ch.maxAddr = BitVec.ofInt 16 (s.window k).max ∧
      u.readReg .input ch.meanAddr = BitVec.ofInt 16 (s.window k).mean ∧
      (∀ a, a ∉ [ch.minAddr, ch.maxAddr, ch.meanAddr] → u.readReg .input a = s.readReg .input a) ∧
      u.holding = s.holding ∧ u.wsc = s.wsc ∧ u.diag = s.diag

/-- 47_stats R240, R245: a sample inside the window counts first, saturating at `2^COUNT_W - 1` for the configured width,
moves the extrema, and moves the mean by the truncated quotient; no register is written. -/
def Obligations.EarlySampleAccumulates : Prop :=
  ∀ (s : State) (k : Nat) (ch : StatChannel) (raw : Word) (t : Time) (later : List Event),
    NextEvent s (.port (.sample k raw t)) later → s.cfg.statCh[k]? = some ch → k < s.win.length →
    (s.window k).isOpen = true → elapsed s.cfg t (s.window k).start < 5000 →
    let v := sampleValue ch raw
    let w := s.window k
    let n : Nat := if w.count + 1 < 2 ^ s.cfg.countW then w.count + 1 else w.count
    step s = .next { s with
      inbox := later
      win := s.win.set k
        ⟨true, w.start, n, min w.min v, max w.max v, w.mean + (v - w.mean).tdiv (n : Int)⟩ }

/-- 47_stats R249: a sample touches neither another channel's window nor its outputs, and leaves its own channel with an
open window. -/
def Obligations.ChannelsAreIndependent : Prop :=
  ∀ (s : State) (k : Nat) (raw : Word) (t : Time) (later : List Event),
    NextEvent s (.port (.sample k raw t)) later → k < s.cfg.statCh.length →
    ∃ u, step s = .next u ∧ (k < s.win.length → (u.window k).isOpen = true) ∧
      ∀ j ch, j ≠ k → s.cfg.statCh[j]? = some ch → u.window j = s.window j ∧
        ∀ a ∈ ch.outputs, u.readReg .input a = s.readReg .input a

/-! ## Reset, configuration, whole machine -/

/-- 10_state R47 to R50, the spec's own choices (D26): what reset leaves in every part of the state the spec gives a value
for, for every configuration. -/
def Obligations.ResetValues : Prop :=
  State.reset = State.resetWith Config.reference ∧
  ∀ c : Config, let s := State.resetWith c
    s.cfg = c ∧ s.frmState = .idle ∧ s.rxLen = 0 ∧ s.rxOvf = false ∧ s.uartQ = [] ∧ s.de = false ∧ s.txLen = 0 ∧
    (∀ x, s.diag.counter x = 0) ∧ s.diag.lastExc = 0#8 ∧ (∀ a, s.readWsc a = 0) ∧
    (∀ b a r, c.attr b a = some r → s.readReg b a = r.reset) ∧ s.unitAddr = c.unitAddrReset ∧
    (∀ k, (s.window k).isOpen = false) ∧
    (0 < c.baud → silenceMicros c 35 < 2 ^ c.timeW →
      s.t15 = (15 * c.bitsPerChar * 10 ^ 6 + 10 * c.baud - 1) / (10 * c.baud) ∧
      s.t35 = (35 * c.bitsPerChar * 10 ^ 6 + 10 * c.baud - 1) / (10 * c.baud))

/-- 48_external_agents R263, 10_state R30, R31, R45: `CFG` loads the unit address and changes nothing else; no other event
changes it; and no step at all changes the thresholds, the configuration, or whether the transmitter hangs (`txHang` is the
model's own field, log 7). -/
def Obligations.OnlyCfgChangesTheUnitAddress : Prop :=
  (∀ (s : State) (unit : Byte) (later : List Event), NextEvent s (.cfg unit) later →
    step s = .next { s with inbox := later, unitAddr := unit }) ∧
  (∀ s t : State, step s = .next t → t.cfg = s.cfg ∧ t.t15 = s.t15 ∧ t.t35 = s.t35 ∧ t.txHang = s.txHang) ∧
  ∀ s t : State, step s = .next t → (∀ unit later, s.inbox ≠ .cfg unit :: later) → t.unitAddr = s.unitAddr

/-- 10_state R33: a step leaves a diagnostic counter as it is, or counts it once and never past its greatest value; so no step
decreases, clears or wraps one. -/
def Obligations.DiagnosticCountersNeverDecrease : Prop :=
  ∀ (s t : State) (c : Counter), step s = .next t →
    t.diag.counter c = s.diag.counter c ∨
      (t.diag.counter c = s.diag.counter c + 1 ∧ s.diag.counter c + 1 < 2 ^ s.cfg.diagW)

/-- 46_regmap R222, R224, 10_state R38, R39: a Write Sequence Counter changes only in a cycle that closes a frame for this
block or a broadcast that decodes to WRS, WRM or a unicast VID; then by one count, modulo `2^WSC_W`; and a counter that is
not a command register's never changes. So a port write, also one inside a cycle, a read and a dropped frame count nothing. -/
def Obligations.OnlyBusWritesAreCounted : Prop :=
  ∀ (s t : State), step s = .next t →
    (t.wsc ≠ s.wsc → ∃ now between later i, Closing s now between later ∧ s.rxOvf = false ∧ decode s.frame = .ok i ∧
      (i.unit = 0x00#8 ∨ i.unit = s.unitAddr) ∧
      match i with | .wrs _ _ | .wrm _ _ => True | .vid unit _ => unit ≠ 0x00#8 | _ => False) ∧
    (∀ a, t.readWsc a = s.readWsc a ∨ t.readWsc a = (s.readWsc a + 1) % 2 ^ s.cfg.wscW) ∧
    ∀ a, s.cfg.isCommand a = false → t.readWsc a = s.readWsc a

/-- 70_reset R322 and 93_implementation_defined part 1: a block without an event waits, and a configuration that breaks
the spec's constraints has no step (model's choices, log 1 and log 13). -/
def Obligations.NoEventNoStep : Prop :=
  ∀ s : State,
    (admittedConfig s.cfg = true → s.inbox = [] → step s = .next s) ∧
    (admittedConfig s.cfg = false → step s = .refused .configNotAdmitted)

/-- The invariant holds after reset, for every admitted configuration (10_state R47 to R50). Four of its parts rest on the
model's choices: `tx_idle` at reset (log 7), the empty schedule (log 4), the buffers' canonical form and contents (log 6),
the clock of the last append (log 5); that `State.reset` uses the reference configuration is log 2. -/
def Obligations.ResetHasInvariant : Prop :=
  State.reset.Inv ∧ ∀ c : Config, admittedConfig c = true → (State.resetWith c).Inv

/-- Every step from a state with the invariant leads to a state with the invariant (10_state R21 to R23, R25, R27, R31, R33,
R34, R39, R42; 46_regmap R228; the buffers' canonical form is the model's, log 6, and so is the empty schedule, log 4). -/
def Obligations.StepKeepsInvariant : Prop :=
  ∀ s t : State, s.Inv → step s = .next t → t.Inv

/-- 60_exceptions R289, 70_reset R331: while the transmitter reports idle, every event the environment may issue
(48_external_agents R267; the internal reads: log 12) is taken: the step answers a next state, which has the invariant
again, and any event it puts into the queue itself (log 4) may be issued too. So a run of such events never stops, and no
run, whatever its events, stops with a fault. -/
def Obligations.AdmittedEventsAlwaysStep : Prop :=
  (∀ (s : State) (e : Event) (later : List Event), s.Inv → s.txHang = false → s.inbox = e :: later →
    eventAdmitted s.cfg e →
    ∃ t, step s = .next t ∧ t.Inv ∧ t.txHang = false ∧ t.cfg = s.cfg ∧
      ∀ x ∈ t.inbox, x ∈ later ∨ eventAdmitted s.cfg x) ∧
  (∀ (s : State) (n : Nat), s.Inv → s.txHang = false → (∀ e ∈ s.inbox, eventAdmitted s.cfg e) →
    ∃ t, Sys2Proof.core.run n s = .next t) ∧
  ∀ s : State, s.Inv → s.txHang = false → s.Safe
end

