-- ==== Sys2Proof/Laws/Bytes.lean ====
section
/-! SUPPORT. Byte order and the checksum: fields survive the wire, a body with its checksum passes the check. -/

namespace Sys2Proof.Machine

@[simp] theorem pair_hiByte_loByte (w : Word) : pair (hiByte w) (loByte w) = w := by
  apply BitVec.eq_of_getLsbD_eq
  intro i hi
  simp only [pair, hiByte, loByte, BitVec.getLsbD_append, BitVec.getLsbD_extractLsb']
  by_cases h : i < 8
  · simp [h]
  · have h2 : i - 8 < 8 := by omega
    have h3 : 8 + (i - 8) = i := by omega
    simp [h, h2, h3]

@[simp] theorem hiByte_pair (hi lo : Byte) : hiByte (pair hi lo) = hi := by
  apply BitVec.eq_of_getLsbD_eq
  intro i h
  simp only [pair, hiByte, BitVec.getLsbD_extractLsb', BitVec.getLsbD_append]
  simp [h]

@[simp] theorem loByte_pair (hi lo : Byte) : loByte (pair hi lo) = lo := by
  apply BitVec.eq_of_getLsbD_eq
  intro i h
  simp only [pair, loByte, BitVec.getLsbD_extractLsb', BitVec.getLsbD_append]
  simp [h]

@[simp] theorem length_fieldBytes (w : Word) : (fieldBytes w).length = 2 := rfl

@[simp] theorem length_valueBytes (vs : List Word) : (valueBytes vs).length = 2 * vs.length := by
  induction vs with
  | nil => rfl
  | cons v vs ih => simp [valueBytes, ih]; omega

/-- Register values survive the wire. -/
@[simp] theorem bytesValues_valueBytes (vs : List Word) : bytesValues (valueBytes vs) = vs := by
  induction vs with
  | nil => rfl
  | cons v vs ih => simp [valueBytes, bytesValues, ih]

/-- An even run of value bytes is the bytes of the values it holds. -/
theorem valueBytes_bytesValues (bs : List Byte) (h : bs.length % 2 = 0) : valueBytes (bytesValues bs) = bs := by
  fun_induction bytesValues bs with
  | case1 hi lo rest ih =>
    have h2 : rest.length % 2 = 0 := by simp only [List.length_cons] at h; omega
    simp [valueBytes, ih h2]
  | case2 bs hne =>
    match bs, h with
    | [], _ => rfl
    | [_], h => simp at h
    | a :: b :: r, _ => exact absurd rfl (hne a b r)

@[simp] theorem length_bytesValues (bs : List Byte) : (bytesValues bs).length = bs.length / 2 := by
  fun_induction bytesValues bs with
  | case1 hi lo rest ih => simp only [List.length_cons, ih]; omega
  | case2 bs hne =>
    match bs with
    | [] => rfl
    | [_] => simp
    | a :: b :: r => exact absurd rfl (hne a b r)

/-! ## The checksum -/

@[simp] theorem length_crcBytes (body : List Byte) : (crcBytes body).length = 2 := rfl

@[simp] theorem length_withCrc (body : List Byte) : (withCrc body).length = body.length + 2 := by simp [withCrc]

@[simp] theorem crcCovered_withCrc (body : List Byte) : crcCovered (withCrc body) = body := by
  simp [crcCovered, withCrc]

/-- A body with its checksum passes the check (40_crc R134, R135). -/
@[simp] theorem crcCheck_withCrc (body : List Byte) : crcCheck (withCrc body) = true := by
  rw [crcCheck, crcCovered_withCrc]
  simp [withCrc]

/-- A frame that passes the check is its covered bytes with their checksum. -/
theorem withCrc_crcCovered {f : List Byte} (h : crcCheck f = true) : withCrc (crcCovered f) = f := by
  rw [crcCheck, beq_iff_eq] at h
  rw [withCrc, ← h, crcCovered, List.take_append_drop]

theorem crcFold_append (c : Word) (xs ys : List Byte) : crcFold c (xs ++ ys) = crcFold (crcFold c xs) ys := by
  induction xs generalizing c with
  | nil => rfl
  | cons x xs ih => simp [crcFold, ih]

/-- The accumulator over a body followed by more bytes (40_crc R133). -/
theorem crcOver_append (xs ys : List Byte) : crcOver (xs ++ ys) = crcFold (crcOver xs) ys := crcFold_append _ _ _

end Sys2Proof.Machine
end

