-- ==== Sys2Proof/Laws/Config.lean ====
section
/-! SUPPORT. What an admitted configuration guarantees: who owns the mirrored registers and the statistics outputs, and that
no two of them are the same (46_regmap R228, 47_stats R249; log 13). -/

namespace Sys2Proof.Machine

theorem admittedConfig_parts {c : Config} (h : admittedConfig c = true) :
    c.regmapOk = true ∧ c.identifyOk = true ∧ c.statOk = true ∧ c.diagOk = true ∧ c.lineOk = true ∧
    c.widthsOk = true := by
  simp only [admittedConfig, Config.ok, Bool.and_eq_true, and_assoc] at h
  exact ⟨h.1, h.2.1, h.2.2.1, h.2.2.2.1, h.2.2.2.2.1, h.2.2.2.2.2.1⟩

/-- Every width is at least one bit (log 13). -/
theorem widths_pos {c : Config} (h : admittedConfig c = true) : 0 < c.timeW ∧ 0 < c.diagW ∧ 0 < c.wscW ∧ 0 < c.countW := by
  have hw := (admittedConfig_parts h).2.2.2.2.2
  simp only [Config.widthsOk, Bool.and_eq_true, decide_eq_true_eq] at hw
  exact ⟨hw.1.1.1.1, hw.1.1.1.2, hw.1.1.2, hw.1.2⟩

/-- A mirrored counter fits its register (46_regmap R228, log 13). -/
theorem diagW_le_of_mapped {c : Config} (h : admittedConfig c = true) {x : Counter}
    (hx : c.diagMap.addr (.counter x) ≠ none) : c.diagW ≤ 16 := by
  have hw := (admittedConfig_parts h).2.2.2.2.2
  simp only [Config.widthsOk, Bool.and_eq_true, List.all_eq_true] at hw
  have := hw.2 (.counter x) (by cases x <;> simp [DiagKey.all])
  simpa [hx] using this

theorem diagKey_mem_all (k : DiagKey) : k ∈ DiagKey.all := by
  cases k with
  | counter c => cases c <;> simp [DiagKey.all]
  | lastExc => simp [DiagKey.all]

/-- Values of a `filterMap` without repeats come from one element each. -/
theorem eq_of_filterMap_nodup {α β : Type} {f : α → Option β} {l : List α} (h : (l.filterMap f).Nodup) {x y : α}
    (hx : x ∈ l) (hy : y ∈ l) {b : β} (h1 : f x = some b) (h2 : f y = some b) : x = y := by
  induction l with
  | nil => cases hx
  | cons z l ih =>
    by_cases hz : f z = none
    · rw [List.filterMap_cons_none hz] at h
      have hxz : x ≠ z := by rintro rfl; simp [h1] at hz
      have hyz : y ≠ z := by rintro rfl; simp [h2] at hz
      exact ih h (List.mem_of_ne_of_mem hxz hx) (List.mem_of_ne_of_mem hyz hy)
    · obtain ⟨w, hw⟩ := Option.ne_none_iff_exists'.mp hz
      rw [List.filterMap_cons_some hw] at h
      obtain ⟨hn, hd⟩ := List.nodup_cons.mp h
      rcases List.mem_cons.mp hx with rfl | hx' <;> rcases List.mem_cons.mp hy with rfl | hy'
      · rfl
      · rw [hw] at h1
        cases h1
        exact absurd (List.mem_filterMap.mpr ⟨y, hy', h2⟩) hn
      · rw [hw] at h2
        cases h2
        exact absurd (List.mem_filterMap.mpr ⟨x, hx', h1⟩) hn
      · exact ih hd hx' hy'

/-- No register mirrors two diagnostic values (46_regmap R228, log 13). -/
theorem diagMap_inj {c : Config} (h : c.diagOk = true) {k k' : DiagKey} {a : Nat}
    (h1 : c.diagMap.addr k = some a) (h2 : c.diagMap.addr k' = some a) : k = k' := by
  simp only [Config.diagOk, Bool.and_eq_true, decide_eq_true_eq] at h
  exact eq_of_filterMap_nodup h.2 (diagKey_mem_all k) (diagKey_mem_all k') h1 h2

/-- A mirrored register is an input register owned by `diag` (46_regmap R228). -/
theorem diagMap_owned {c : Config} (h : c.diagOk = true) {k : DiagKey} {a : Nat} (h1 : c.diagMap.addr k = some a) :
    c.owns .diag .input a = true := by
  simp only [Config.diagOk, Bool.and_eq_true, List.all_eq_true] at h
  exact (h.1 a (List.mem_filterMap.mpr ⟨k, diagKey_mem_all k, h1⟩)).1

/-- The value found at a mirrored address is the one mirrored there (46_regmap R228). -/
theorem keyAt_eq {c : Config} (h : c.diagOk = true) {k : DiagKey} {a : Nat} (h1 : c.diagMap.addr k = some a) :
    c.diagMap.keyAt a = some k := by
  unfold DiagMap.keyAt
  cases hf : DiagKey.all.find? fun k => c.diagMap.addr k == some a with
  | none =>
    rw [List.find?_eq_none] at hf
    exact absurd h1 (by simpa using hf k (diagKey_mem_all k))
  | some k' => rw [diagMap_inj h h1 (by simpa using List.find?_some hf)]

/-- No register has two owners. -/
theorem owner_unique {c : Config} {r r' : Role} {b : Bank} {a : Nat} (h : c.owns r b a = true)
    (h' : c.owns r' b a = true) : r = r' := by
  unfold Config.owns at h h'
  cases hx : c.attr b a with
  | none => simp [hx] at h
  | some x =>
    have h1 : x.owner = .role r := by simpa [hx] using h
    have h2 : x.owner = .role r' := by simpa [hx] using h'
    exact Owner.role.inj (h1.symm.trans h2)

/-- The outputs of a channel: input registers owned by the sensor role, none of them mirrored (47_stats R235). -/
theorem output_owned {c : Config} (h : c.statOk = true) {ch : StatChannel} (hm : ch ∈ c.statCh) {a : Nat}
    (ha : a ∈ ch.outputs) : c.owns .sensor .input a = true := by
  simp only [Config.statOk, Bool.and_eq_true, List.all_eq_true] at h
  exact h.1 a (List.mem_flatMap.mpr ⟨ch, hm, ha⟩)

theorem output_not_mirrored {c : Config} (h : admittedConfig c = true) {ch : StatChannel} (hm : ch ∈ c.statCh) {a : Nat}
    (ha : a ∈ ch.outputs) (k : DiagKey) : c.diagMap.addr k ≠ some a := by
  obtain ⟨-, -, h3, h4, -, -⟩ := admittedConfig_parts h
  intro hk
  have := owner_unique (output_owned h3 hm ha) (diagMap_owned h4 hk)
  cases this

/-- The three outputs of a channel differ (47_stats R235, log 13). -/
theorem outputs_nodup {c : Config} (h : c.statOk = true) {ch : StatChannel} (hm : ch ∈ c.statCh) : ch.outputs.Nodup := by
  simp only [Config.statOk, Bool.and_eq_true, decide_eq_true_eq] at h
  exact (List.nodup_flatMap.mp h.2).1 ch hm

/-- Two channels share no output (47_stats R249, log 13). -/
theorem outputs_disjoint {c : Config} (h : c.statOk = true) {j k : Nat} {x y : StatChannel} (hj : c.statCh[j]? = some x)
    (hk : c.statCh[k]? = some y) (hne : j ≠ k) : List.Disjoint x.outputs y.outputs := by
  simp only [Config.statOk, Bool.and_eq_true, decide_eq_true_eq] at h
  have hp := (List.nodup_flatMap.mp h.2).2
  obtain ⟨hjl, rfl⟩ := List.getElem?_eq_some_iff.mp hj
  obtain ⟨hkl, rfl⟩ := List.getElem?_eq_some_iff.mp hk
  rw [List.pairwise_iff_getElem] at hp
  rcases Nat.lt_or_gt_of_ne hne with hl | hl
  · exact hp j k hjl hkl hl
  · exact (hp k j hkl hjl hl).symm

/-- The Identify register is a command register that accepts the value of 0x41 (45_ident R209). -/
theorem identify_isCommand {c : Config} (h : c.identifyOk = true) : c.isCommand c.identifyAddr = true := by
  simp only [Config.identifyOk, Bool.and_eq_true] at h
  unfold Config.isCommand
  split
  · rename_i r hr
    rw [hr] at h
    simp only [Bool.and_eq_true] at h
    exact h.2.1
  · rename_i hr
    rw [hr] at h
    simp at h

end Sys2Proof.Machine
end

