-- ==== Sys2Proof/Laws/Decode.lean ====
section
/-! SUPPORT. The decoders and the encoder: frames taken apart and put together, operands that survive both ways. -/

namespace Sys2Proof

open Sys2Proof.Machine

/-! ## Frames -/

/-- A body of at least two bytes with its checksum passes the frame checks and comes apart as it was. -/
theorem checkFrame_withCrc (unit fc : Byte) (payload : List Byte) :
    checkFrame (withCrc (unit :: fc :: payload)) = .ok (unit, fc, payload) := by
  have h := crcCheck_withCrc (unit :: fc :: payload)
  simp only [withCrc, List.cons_append] at h ⊢
  simp [checkFrame, h, framePayload]

theorem decode_withCrc (unit fc : Byte) (payload : List Byte) :
    decode (withCrc (unit :: fc :: payload)) = .ok (decodeFunction unit fc payload) := by
  rw [decode, checkFrame_withCrc]

theorem decodeResponse_withCrc (unit fc : Byte) (payload : List Byte) :
    decodeResponse (withCrc (unit :: fc :: payload)) = decodeAnswer unit fc payload := by
  rw [decodeResponse, checkFrame_withCrc]

/-- A frame that passes the checks is its body with the checksum. -/
theorem checkFrame_ok {f : List Byte} {unit fc : Byte} {payload : List Byte}
    (h : checkFrame f = .ok (unit, fc, payload)) : f = withCrc (unit :: fc :: payload) ∧ 4 ≤ f.length := by
  unfold checkFrame at h
  split at h
  · rename_i u c rest
    split at h
    · simp at h
    · rename_i hl
      split at h
      · rename_i hc
        obtain ⟨rfl, rfl, rfl⟩ : u = unit ∧ c = fc ∧ framePayload rest = payload := by simpa using h
        have hcov : crcCovered (u :: c :: rest) = u :: c :: framePayload rest := by
          have h2 : (u :: c :: rest).length - 2 = (rest.length - 2) + 1 + 1 := by simp; omega
          rw [crcCovered, h2]
          rfl
        refine ⟨?_, by simp; omega⟩
        rw [← hcov, withCrc_crcCovered hc]
      · simp at h
  · simp at h

/-- A frame under 4 bytes is rejected (42_dispatcher R161). -/
theorem decode_short {f : List Byte} (h : f.length < 4) : decode f = .error .tooShort := by
  match f with
  | [] => rfl
  | [_] => rfl
  | u :: c :: r =>
    have hr : r.length < 2 := by simp only [List.length_cons] at h; omega
    simp [decode, checkFrame, hr]

/-- A frame with a wrong checksum is rejected (42_dispatcher R162). -/
theorem decode_badChecksum {f : List Byte} (h : 4 ≤ f.length) (hc : crcCheck f = false) :
    decode f = .error .badChecksum := by
  match f with
  | [] => simp at h
  | [_] => simp at h
  | u :: c :: r =>
    have hr : ¬ r.length < 2 := by simp only [List.length_cons] at h; omega
    simp [decode, checkFrame, hr, hc]

/-! ## Operands -/

@[simp] theorem bytes_decodeTwoFields (p : List Byte) : (decodeTwoFields p).bytes = p := by
  unfold decodeTwoFields
  split <;> simp [TwoFields.bytes, fieldBytes]

@[simp] theorem bytes_decodeWriteRun (p : List Byte) : (decodeWriteRun p).bytes = p := by
  unfold decodeWriteRun
  split <;> simp [WriteRun.bytes, fieldBytes]

theorem decodeTwoFields_bytes {ops : TwoFields} (h : ops.wf = true) : decodeTwoFields ops.bytes = ops := by
  cases ops with
  | fields a b => simp [TwoFields.bytes, fieldBytes, decodeTwoFields]
  | badLength p =>
    have hl : p.length ≠ 4 := by
      have := h
      simp only [TwoFields.wf, Bool.and_eq_true, bne_iff_ne] at this
      exact this.1
    simp only [TwoFields.bytes]
    unfold decodeTwoFields
    split
    · exact absurd rfl hl
    · rfl

theorem decodeWriteRun_bytes {ops : WriteRun} (h : ops.wf = true) : decodeWriteRun ops.bytes = ops := by
  cases ops with
  | run start count n data => simp [WriteRun.bytes, fieldBytes, decodeWriteRun]
  | short p =>
    have hl : p.length < 5 := by simpa [WriteRun.wf] using h
    simp only [WriteRun.bytes]
    unfold decodeWriteRun
    split
    · simp at hl; omega
    · rfl

/-! ## The function-code map -/

/-- A decoded request has the bytes it was decoded from (30_encoding R111). -/
theorem decodeFunction_fields (unit fc : Byte) (payload : List Byte) :
    (decodeFunction unit fc payload).unit = unit ∧ (decodeFunction unit fc payload).function = fc ∧
    (decodeFunction unit fc payload).payload = payload ∧ (decodeFunction unit fc payload).isRequest = true := by
  unfold decodeFunction
  repeat' split
  all_goals simp_all [Instr.unit, Instr.function, Instr.payload, Instr.isRequest]

/-- A function code outside the map is an unknown function (30_encoding R112). -/
theorem decodeFunction_unknown {unit fc : Byte} {payload : List Byte} (h : fc ∉ knownFunctions) :
    decodeFunction unit fc payload = .unknown unit fc payload := by
  simp only [knownFunctions, List.mem_cons, List.not_mem_nil, or_false, not_or] at h
  obtain ⟨h1, h2, h3, h4, h5, h6⟩ := h
  simp [decodeFunction, h1, h2, h3, h4, h5, h6]

/-! ## Lengths -/

/-- The body of a well-formed response fits the transmit buffer with its checksum (30_encoding R116). -/
theorem length_body_response {i : Instr} (hr : i.isRequest = false) (hw : i.wf = true) :
    i.body.length + 2 ≤ txMax := by
  cases i <;> simp [Instr.isRequest] at hr <;> simp [Instr.wf, valuesFit, identFits, maxRegs] at hw <;>
    simp [Instr.body, Instr.payload, txMax] <;> omega

/-- A well-formed response names a unit that is not 0 (42_dispatcher R169). -/
theorem unit_ne_zero_response {i : Instr} (hr : i.isRequest = false) (hw : i.wf = true) : i.unit ≠ 0x00#8 := by
  cases i <;> simp [Instr.isRequest] at hr <;> simp [Instr.wf, responder] at hw <;> simp [Instr.unit, hw]


theorem length_encode (i : Instr) : (encode i).length = i.payload.length + 4 := by
  simp [encode, Instr.body]

end Sys2Proof
end

