-- ==== Sys2Proof/Laws/Memory.lean ====
section
/-! SUPPORT. The byte buffers: a read after a write, and that every operation keeps the canonical form and the size. -/

namespace Sys2Proof.Machine

@[simp] theorem Memory.read_nil (a : Nat) : Memory.read [] a = Memory.unlisted := rfl

@[simp] theorem Memory.read_cons (c : Host.Cell) (m : Memory) (a : Nat) :
    Memory.read (c :: m) a = if c.1 = a then c.2 else Memory.read m a := rfl

theorem Memory.erase_cons (c : Host.Cell) (m : Memory) (a : Nat) :
    Memory.erase (c :: m) a = if c.1 = a then Memory.erase m a else c :: Memory.erase m a := by
  by_cases h : c.1 = a <;> simp [Memory.erase, h]

theorem Memory.read_erase (m : Memory) (a b : Nat) :
    (m.erase a).read b = if a = b then Memory.unlisted else m.read b := by
  induction m with
  | nil => simp [Memory.erase]
  | cons c m ih =>
    rw [Memory.erase_cons]
    split
    · rename_i h
      rw [ih]
      split <;> simp_all
    · rename_i h
      simp only [Memory.read_cons, ih]
      by_cases hb : c.1 = b
      · have : a ≠ b := fun hab => h (hb.trans hab.symm)
        simp [hb, this]
      · simp [hb]

theorem Memory.read_insert (c : Host.Cell) (m : Memory) (a : Nat) (h : ∀ d ∈ m, d.1 ≠ c.1) :
    (m.insert c).read a = if c.1 = a then c.2 else m.read a := by
  induction m with
  | nil => simp [Memory.insert]
  | cons d m ih =>
    rw [Memory.insert]
    split
    · rfl
    · have hd : d.1 ≠ c.1 := h d (by simp)
      rw [Memory.read_cons, ih fun e he => h e (by simp [he])]
      simp only [Memory.read_cons]
      split <;> split <;> simp_all

theorem Memory.mem_erase {m : Memory} {a : Nat} {c : Host.Cell} : c ∈ m.erase a ↔ c ∈ m ∧ c.1 ≠ a := by
  simp [Memory.erase]

/-- A read after a write: the value at its place, the old value everywhere else. -/
theorem Memory.read_write (m : Memory) (a b : Nat) (v : Byte) :
    (m.write a v).read b = if a = b then v else m.read b := by
  rw [Memory.write]
  split
  · rename_i h
    rw [Memory.read_erase, h]
  · rw [Memory.read_insert _ _ _ fun d hd => (Memory.mem_erase.mp hd).2, Memory.read_erase]
    split <;> simp_all

/-- A read after `MemWrite`: the written byte inside the run, the old value outside. -/
theorem Memory.read_writeAll (m : Memory) (a i : Nat) (bs : List Byte) :
    (m.writeAll a bs).read i = if a ≤ i then (bs[i - a]?).getD (m.read i) else m.read i := by
  induction bs generalizing m a with
  | nil => simp [Memory.writeAll]
  | cons b bs ih =>
    rw [Memory.writeAll, ih, Memory.read_write]
    by_cases h1 : a + 1 ≤ i
    · have h2 : a ≤ i := by omega
      have h3 : i - a = (i - (a + 1)) + 1 := by omega
      have h4 : a ≠ i := by omega
      simp [h1, h2, h3, h4]
    · by_cases h2 : a = i
      · simp [h2]
      · have h3 : ¬ a ≤ i := by omega
        simp [h1, h2, h3]

theorem Memory.writeAll_append (m : Memory) (a : Nat) (xs ys : List Byte) :
    m.writeAll a (xs ++ ys) = (m.writeAll a xs).writeAll (a + xs.length) ys := by
  induction xs generalizing m a with
  | nil => rfl
  | cons x xs ih => simp [Memory.writeAll, ih, Nat.add_assoc, Nat.add_comm 1]

@[simp] theorem Memory.length_readAll (m : Memory) (a n : Nat) : (m.readAll a n).length = n := by
  induction n generalizing a with
  | zero => rfl
  | succ n ih => simp [Memory.readAll, ih]

theorem Memory.getElem_readAll (m : Memory) (a n i : Nat) (h : i < (m.readAll a n).length) :
    (m.readAll a n)[i] = m.read (a + i) := by
  induction n generalizing a i with
  | zero => simp at h
  | succ n ih =>
    cases i with
    | zero => rfl
    | succ i =>
      simp only [Memory.readAll, List.getElem_cons_succ]
      rw [ih]
      congr 1
      omega

/-- `MemRead` of what `MemWrite` stored. -/
theorem Memory.readAll_writeAll (m : Memory) (a : Nat) (bs : List Byte) :
    (m.writeAll a bs).readAll a bs.length = bs := by
  apply List.ext_getElem (by simp)
  intro i h1 h2
  rw [Memory.getElem_readAll, Memory.read_writeAll]
  simp [h2]

/-- `MemRead` before the place of a `MemWrite`. -/
theorem Memory.readAll_writeAll_before (m : Memory) (a b n : Nat) (bs : List Byte) (h : a + n ≤ b) :
    (m.writeAll b bs).readAll a n = m.readAll a n := by
  apply List.ext_getElem (by simp)
  intro i h1 h2
  rw [Memory.getElem_readAll, Memory.getElem_readAll, Memory.read_writeAll]
  have : i < n := by simpa using h2
  rw [if_neg (by omega)]

theorem Memory.readAll_succ (m : Memory) (a n : Nat) :
    m.readAll a (n + 1) = m.readAll a n ++ [m.read (a + n)] := by
  induction n generalizing a with
  | zero => rfl
  | succ n ih =>
    rw [Memory.readAll, ih, Memory.readAll]
    simp [Nat.add_assoc, Nat.add_comm 1]

theorem Memory.readAll_write_before (m : Memory) (a b n : Nat) (v : Byte) (h : a + n ≤ b) :
    (m.write b v).readAll a n = m.readAll a n :=
  Memory.readAll_writeAll_before m a b n [v] h

/-! ## The canonical form -/

theorem Memory.wf_nil : Memory.wf [] := by simp [Memory.wf]

theorem Memory.wf_erase {m : Memory} (h : m.wf) (a : Nat) : (m.erase a).wf :=
  ⟨h.1.filter _, fun c hc => h.2 c (Memory.mem_erase.mp hc).1⟩

theorem Memory.mem_insert {c d : Host.Cell} {m : Memory} : d ∈ m.insert c ↔ d = c ∨ d ∈ m := by
  induction m with
  | nil => simp [Memory.insert]
  | cons e m ih =>
    rw [Memory.insert]
    split
    · simp
    · simp only [List.mem_cons, ih]
      tauto

theorem Memory.wf_insert {m : Memory} {c : Host.Cell} (h : m.wf) (hc : c.2 ≠ Memory.unlisted)
    (hm : ∀ d ∈ m, d.1 ≠ c.1) : (m.insert c).wf := by
  refine ⟨?_, ?_⟩
  · obtain ⟨h1, -⟩ := h
    induction m with
    | nil => simp [Memory.insert]
    | cons d m ih =>
      rw [List.pairwise_cons] at h1
      rw [Memory.insert]
      split
      · rename_i hlt
        refine List.pairwise_cons.mpr ⟨?_, List.pairwise_cons.mpr h1⟩
        intro e he
        rcases List.mem_cons.mp he with rfl | he
        · exact hlt
        · exact Nat.lt_trans hlt (h1.1 e he)
      · rename_i hge
        refine List.pairwise_cons.mpr ⟨?_, ih (fun e he => hm e (by simp [he])) h1.2⟩
        intro e he
        rcases Memory.mem_insert.mp he with rfl | he
        · have := hm d (by simp)
          omega
        · exact h1.1 e he
  · intro d hd
    rcases Memory.mem_insert.mp hd with rfl | hd
    · exact hc
    · exact h.2 d hd

/-- A write keeps the canonical form. -/
theorem Memory.wf_write {m : Memory} (h : m.wf) (a : Nat) (v : Byte) : (m.write a v).wf := by
  rw [Memory.write]
  split
  · exact Memory.wf_erase h a
  · rename_i hv
    exact Memory.wf_insert (Memory.wf_erase h a) hv fun d hd => (Memory.mem_erase.mp hd).2

/-- `MemWrite` keeps the canonical form. -/
theorem Memory.wf_writeAll {m : Memory} (h : m.wf) (a : Nat) (bs : List Byte) : (m.writeAll a bs).wf := by
  induction bs generalizing m a with
  | nil => exact h
  | cons b bs ih => exact ih (Memory.wf_write h a b) (a + 1)

/-- A write inside the buffer keeps the buffer's size. -/
theorem Memory.within_write {m : Memory} {size : Nat} (h : m.within size) {a : Nat} (ha : a < size) (v : Byte) :
    (m.write a v).within size := by
  intro c hc
  rw [Memory.write] at hc
  split at hc
  · exact h c (Memory.mem_erase.mp hc).1
  · rcases Memory.mem_insert.mp hc with rfl | hc
    · exact ha
    · exact h c (Memory.mem_erase.mp hc).1

/-- `MemWrite` inside the buffer keeps the buffer's size. -/
theorem Memory.within_writeAll {m : Memory} {size : Nat} (h : m.within size) (a : Nat) (bs : List Byte)
    (ha : a + bs.length ≤ size) : (m.writeAll a bs).within size := by
  induction bs generalizing m a with
  | nil => exact h
  | cons b bs ih =>
    have hl : a + (bs.length + 1) ≤ size := ha
    exact ih (Memory.within_write h (by omega) b) (a + 1) (by omega)

end Sys2Proof.Machine
end

