-- ==== Sys2Proof/Laws/State.lean ====
section
/-! SUPPORT. What each update of the state leaves alone, and what it writes: no later proof unfolds an update. -/

namespace Sys2Proof.Machine

/-! ## Going on from an outcome -/

@[simp] theorem andThen_next {α β : Type} (x : α) (k : α → Result β) : andThen (.next x) k = k x := rfl

@[simp] theorem andThen_fault {α β : Type} (f : Fault) (k : α → Result β) : andThen (.fault f) k = .fault f := rfl

@[simp] theorem andThen_refused {α β : Type} (r : Refusal) (k : α → Result β) : andThen (.refused r) k = .refused r := rfl

/-- A sequence ends in a next state exactly when both parts do. -/
theorem andThen_eq_next {α β : Type} {o : Result α} {k : α → Result β} {y : β} :
    andThen o k = .next y ↔ ∃ x, o = .next x ∧ k x = .next y := by
  cases o <;> simp

/-- A sequence ends in a fault exactly when one of its parts does. -/
theorem andThen_eq_fault {α β : Type} {o : Result α} {k : α → Result β} {f : Fault} :
    andThen o k = .fault f ↔ o = .fault f ∨ ∃ x, o = .next x ∧ k x = .fault f := by
  cases o <;> simp

theorem andThen_assoc {α β γ : Type} (o : Result α) (k : α → Result β) (l : β → Result γ) :
    andThen (andThen o k) l = andThen o fun x => andThen (k x) l := by
  cases o <;> rfl

/-- What `writeReg` leaves alone. -/
@[simp] theorem State.writeReg_frame (s : State) (b : Bank) (a : Nat) (v : Word) :
    (s.writeReg b a v).cfg = s.cfg ∧ (s.writeReg b a v).crc = s.crc ∧
    (s.writeReg b a v).frmState = s.frmState ∧ (s.writeReg b a v).rx = s.rx ∧
    (s.writeReg b a v).rxLen = s.rxLen ∧ (s.writeReg b a v).rxOvf = s.rxOvf ∧
    (s.writeReg b a v).lastClk = s.lastClk ∧ (s.writeReg b a v).uartQ = s.uartQ ∧
    (s.writeReg b a v).de = s.de ∧ (s.writeReg b a v).txIdle = s.txIdle ∧
    (s.writeReg b a v).txHang = s.txHang ∧ (s.writeReg b a v).tx = s.tx ∧ (s.writeReg b a v).txLen = s.txLen ∧
    (s.writeReg b a v).t15 = s.t15 ∧ (s.writeReg b a v).t35 = s.t35 ∧
    (s.writeReg b a v).unitAddr = s.unitAddr ∧ (s.writeReg b a v).diag = s.diag ∧
    (s.writeReg b a v).wsc = s.wsc ∧ (s.writeReg b a v).win = s.win ∧ (s.writeReg b a v).inbox = s.inbox ∧
    (s.writeReg b a v).sched = s.sched ∧ (s.writeReg b a v).txLog = s.txLog ∧
    (s.writeReg b a v).line = s.line ∧ (s.writeReg b a v).answers = s.answers := by
  cases b <;> simp [State.writeReg]

/-- What `mirror` leaves alone. -/
@[simp] theorem State.mirror_frame (s : State) (k : DiagKey) :
    (s.mirror k).cfg = s.cfg ∧ (s.mirror k).crc = s.crc ∧ (s.mirror k).frmState = s.frmState ∧
    (s.mirror k).rx = s.rx ∧ (s.mirror k).rxLen = s.rxLen ∧ (s.mirror k).rxOvf = s.rxOvf ∧
    (s.mirror k).lastClk = s.lastClk ∧ (s.mirror k).uartQ = s.uartQ ∧ (s.mirror k).de = s.de ∧
    (s.mirror k).txIdle = s.txIdle ∧ (s.mirror k).txHang = s.txHang ∧ (s.mirror k).tx = s.tx ∧
    (s.mirror k).txLen = s.txLen ∧ (s.mirror k).t15 = s.t15 ∧ (s.mirror k).t35 = s.t35 ∧
    (s.mirror k).unitAddr = s.unitAddr ∧ (s.mirror k).diag = s.diag ∧ (s.mirror k).holding = s.holding ∧
    (s.mirror k).wsc = s.wsc ∧ (s.mirror k).win = s.win ∧ (s.mirror k).inbox = s.inbox ∧
    (s.mirror k).sched = s.sched ∧ (s.mirror k).txLog = s.txLog ∧ (s.mirror k).line = s.line ∧
    (s.mirror k).answers = s.answers := by
  cases h : s.cfg.diagMap.addr k <;> simp [State.mirror, h, State.writeReg]

/-- What `countEvent` leaves alone. -/
@[simp] theorem State.countEvent_frame (s : State) (c : Counter) :
    (s.countEvent c).cfg = s.cfg ∧ (s.countEvent c).crc = s.crc ∧ (s.countEvent c).frmState = s.frmState ∧
    (s.countEvent c).rx = s.rx ∧ (s.countEvent c).rxLen = s.rxLen ∧ (s.countEvent c).rxOvf = s.rxOvf ∧
    (s.countEvent c).lastClk = s.lastClk ∧ (s.countEvent c).uartQ = s.uartQ ∧ (s.countEvent c).de = s.de ∧
    (s.countEvent c).txIdle = s.txIdle ∧ (s.countEvent c).txHang = s.txHang ∧ (s.countEvent c).tx = s.tx ∧
    (s.countEvent c).txLen = s.txLen ∧ (s.countEvent c).t15 = s.t15 ∧ (s.countEvent c).t35 = s.t35 ∧
    (s.countEvent c).unitAddr = s.unitAddr ∧ (s.countEvent c).holding = s.holding ∧
    (s.countEvent c).wsc = s.wsc ∧ (s.countEvent c).win = s.win ∧ (s.countEvent c).inbox = s.inbox ∧
    (s.countEvent c).sched = s.sched ∧ (s.countEvent c).txLog = s.txLog ∧ (s.countEvent c).line = s.line ∧
    (s.countEvent c).answers = s.answers := by
  simp [State.countEvent]

/-- What `setLastExc` leaves alone. -/
@[simp] theorem State.setLastExc_frame (s : State) (e : ExcCode) :
    (s.setLastExc e).cfg = s.cfg ∧ (s.setLastExc e).crc = s.crc ∧ (s.setLastExc e).frmState = s.frmState ∧
    (s.setLastExc e).rx = s.rx ∧ (s.setLastExc e).rxLen = s.rxLen ∧ (s.setLastExc e).rxOvf = s.rxOvf ∧
    (s.setLastExc e).lastClk = s.lastClk ∧ (s.setLastExc e).uartQ = s.uartQ ∧ (s.setLastExc e).de = s.de ∧
    (s.setLastExc e).txIdle = s.txIdle ∧ (s.setLastExc e).txHang = s.txHang ∧ (s.setLastExc e).tx = s.tx ∧
    (s.setLastExc e).txLen = s.txLen ∧ (s.setLastExc e).t15 = s.t15 ∧ (s.setLastExc e).t35 = s.t35 ∧
    (s.setLastExc e).unitAddr = s.unitAddr ∧ (s.setLastExc e).holding = s.holding ∧
    (s.setLastExc e).wsc = s.wsc ∧ (s.setLastExc e).win = s.win ∧ (s.setLastExc e).inbox = s.inbox ∧
    (s.setLastExc e).sched = s.sched ∧ (s.setLastExc e).txLog = s.txLog ∧ (s.setLastExc e).line = s.line ∧
    (s.setLastExc e).answers = s.answers := by
  simp [State.setLastExc]

/-- What `setWindow` leaves alone. -/
@[simp] theorem State.setWindow_frame (s : State) (k : Nat) (w : Window) :
    (s.setWindow k w).cfg = s.cfg ∧ (s.setWindow k w).crc = s.crc ∧ (s.setWindow k w).frmState = s.frmState ∧
    (s.setWindow k w).rx = s.rx ∧ (s.setWindow k w).rxLen = s.rxLen ∧ (s.setWindow k w).rxOvf = s.rxOvf ∧
    (s.setWindow k w).lastClk = s.lastClk ∧ (s.setWindow k w).uartQ = s.uartQ ∧ (s.setWindow k w).de = s.de ∧
    (s.setWindow k w).txIdle = s.txIdle ∧ (s.setWindow k w).txHang = s.txHang ∧ (s.setWindow k w).tx = s.tx ∧
    (s.setWindow k w).txLen = s.txLen ∧ (s.setWindow k w).t15 = s.t15 ∧ (s.setWindow k w).t35 = s.t35 ∧
    (s.setWindow k w).unitAddr = s.unitAddr ∧ (s.setWindow k w).diag = s.diag ∧
    (s.setWindow k w).holding = s.holding ∧ (s.setWindow k w).input = s.input ∧ (s.setWindow k w).wsc = s.wsc ∧
    (s.setWindow k w).inbox = s.inbox ∧ (s.setWindow k w).sched = s.sched ∧ (s.setWindow k w).txLog = s.txLog ∧
    (s.setWindow k w).line = s.line ∧ (s.setWindow k w).answers = s.answers := by
  simp [State.setWindow]

/-- What `emit` leaves alone. -/
@[simp] theorem State.emit_frame (s : State) (ch : StatChannel) (w : Window) :
    (s.emit ch w).cfg = s.cfg ∧ (s.emit ch w).crc = s.crc ∧ (s.emit ch w).frmState = s.frmState ∧
    (s.emit ch w).rx = s.rx ∧ (s.emit ch w).rxLen = s.rxLen ∧ (s.emit ch w).rxOvf = s.rxOvf ∧
    (s.emit ch w).lastClk = s.lastClk ∧ (s.emit ch w).uartQ = s.uartQ ∧ (s.emit ch w).de = s.de ∧
    (s.emit ch w).txIdle = s.txIdle ∧ (s.emit ch w).txHang = s.txHang ∧ (s.emit ch w).tx = s.tx ∧
    (s.emit ch w).txLen = s.txLen ∧ (s.emit ch w).t15 = s.t15 ∧ (s.emit ch w).t35 = s.t35 ∧
    (s.emit ch w).unitAddr = s.unitAddr ∧ (s.emit ch w).diag = s.diag ∧ (s.emit ch w).holding = s.holding ∧
    (s.emit ch w).wsc = s.wsc ∧ (s.emit ch w).win = s.win ∧ (s.emit ch w).inbox = s.inbox ∧
    (s.emit ch w).sched = s.sched ∧ (s.emit ch w).txLog = s.txLog ∧ (s.emit ch w).line = s.line ∧
    (s.emit ch w).answers = s.answers := by
  simp [State.emit, State.writeReg]

/-- What `bumpWsc` leaves alone. -/
@[simp] theorem State.bumpWsc_frame (s : State) (a : Nat) :
    (s.bumpWsc a).cfg = s.cfg ∧ (s.bumpWsc a).crc = s.crc ∧ (s.bumpWsc a).frmState = s.frmState ∧
    (s.bumpWsc a).rx = s.rx ∧ (s.bumpWsc a).rxLen = s.rxLen ∧ (s.bumpWsc a).rxOvf = s.rxOvf ∧
    (s.bumpWsc a).lastClk = s.lastClk ∧ (s.bumpWsc a).uartQ = s.uartQ ∧ (s.bumpWsc a).de = s.de ∧
    (s.bumpWsc a).txIdle = s.txIdle ∧ (s.bumpWsc a).txHang = s.txHang ∧ (s.bumpWsc a).tx = s.tx ∧
    (s.bumpWsc a).txLen = s.txLen ∧ (s.bumpWsc a).t15 = s.t15 ∧ (s.bumpWsc a).t35 = s.t35 ∧
    (s.bumpWsc a).unitAddr = s.unitAddr ∧ (s.bumpWsc a).diag = s.diag ∧ (s.bumpWsc a).holding = s.holding ∧
    (s.bumpWsc a).input = s.input ∧ (s.bumpWsc a).win = s.win ∧ (s.bumpWsc a).inbox = s.inbox ∧
    (s.bumpWsc a).sched = s.sched ∧ (s.bumpWsc a).txLog = s.txLog ∧ (s.bumpWsc a).line = s.line ∧
    (s.bumpWsc a).answers = s.answers := by
  simp [State.bumpWsc]

/-- What `applyWrite` leaves alone. -/
@[simp] theorem applyWrite_frame (s : State) (a : Nat) (v : Word) :
    (applyWrite a v s).cfg = s.cfg ∧ (applyWrite a v s).crc = s.crc ∧
    (applyWrite a v s).frmState = s.frmState ∧ (applyWrite a v s).rx = s.rx ∧
    (applyWrite a v s).rxLen = s.rxLen ∧ (applyWrite a v s).rxOvf = s.rxOvf ∧
    (applyWrite a v s).lastClk = s.lastClk ∧ (applyWrite a v s).uartQ = s.uartQ ∧
    (applyWrite a v s).de = s.de ∧ (applyWrite a v s).txIdle = s.txIdle ∧
    (applyWrite a v s).txHang = s.txHang ∧ (applyWrite a v s).tx = s.tx ∧ (applyWrite a v s).txLen = s.txLen ∧
    (applyWrite a v s).t15 = s.t15 ∧ (applyWrite a v s).t35 = s.t35 ∧
    (applyWrite a v s).unitAddr = s.unitAddr ∧ (applyWrite a v s).diag = s.diag ∧
    (applyWrite a v s).input = s.input ∧ (applyWrite a v s).win = s.win ∧ (applyWrite a v s).inbox = s.inbox ∧
    (applyWrite a v s).sched = s.sched ∧ (applyWrite a v s).txLog = s.txLog ∧
    (applyWrite a v s).line = s.line ∧ (applyWrite a v s).answers = s.answers := by
  unfold applyWrite; split <;> simp [State.writeReg]

/-- What `applyRun` leaves alone. -/
@[simp] theorem applyRun_frame (s : State) (a : Nat) (vs : List Word) :
    (applyRun a vs s).cfg = s.cfg ∧ (applyRun a vs s).crc = s.crc ∧ (applyRun a vs s).frmState = s.frmState ∧
    (applyRun a vs s).rx = s.rx ∧ (applyRun a vs s).rxLen = s.rxLen ∧ (applyRun a vs s).rxOvf = s.rxOvf ∧
    (applyRun a vs s).lastClk = s.lastClk ∧ (applyRun a vs s).uartQ = s.uartQ ∧ (applyRun a vs s).de = s.de ∧
    (applyRun a vs s).txIdle = s.txIdle ∧ (applyRun a vs s).txHang = s.txHang ∧ (applyRun a vs s).tx = s.tx ∧
    (applyRun a vs s).txLen = s.txLen ∧ (applyRun a vs s).t15 = s.t15 ∧ (applyRun a vs s).t35 = s.t35 ∧
    (applyRun a vs s).unitAddr = s.unitAddr ∧ (applyRun a vs s).diag = s.diag ∧
    (applyRun a vs s).input = s.input ∧ (applyRun a vs s).win = s.win ∧ (applyRun a vs s).inbox = s.inbox ∧
    (applyRun a vs s).sched = s.sched ∧ (applyRun a vs s).txLog = s.txLog ∧ (applyRun a vs s).line = s.line ∧
    (applyRun a vs s).answers = s.answers := by
  induction vs generalizing s a with
  | nil => simp [applyRun]
  | cons v vs ih => simp [applyRun, ih]

/-- What `sampleChannel` leaves alone. -/
@[simp] theorem sampleChannel_frame (s : State) (ch : StatChannel) (k : Nat) (raw : Word) (t : Time) :
    (sampleChannel ch k raw t s).cfg = s.cfg ∧ (sampleChannel ch k raw t s).crc = s.crc ∧
    (sampleChannel ch k raw t s).frmState = s.frmState ∧ (sampleChannel ch k raw t s).rx = s.rx ∧
    (sampleChannel ch k raw t s).rxLen = s.rxLen ∧ (sampleChannel ch k raw t s).rxOvf = s.rxOvf ∧
    (sampleChannel ch k raw t s).lastClk = s.lastClk ∧ (sampleChannel ch k raw t s).uartQ = s.uartQ ∧
    (sampleChannel ch k raw t s).de = s.de ∧ (sampleChannel ch k raw t s).txIdle = s.txIdle ∧
    (sampleChannel ch k raw t s).txHang = s.txHang ∧ (sampleChannel ch k raw t s).tx = s.tx ∧
    (sampleChannel ch k raw t s).txLen = s.txLen ∧ (sampleChannel ch k raw t s).t15 = s.t15 ∧
    (sampleChannel ch k raw t s).t35 = s.t35 ∧ (sampleChannel ch k raw t s).unitAddr = s.unitAddr ∧
    (sampleChannel ch k raw t s).diag = s.diag ∧ (sampleChannel ch k raw t s).holding = s.holding ∧
    (sampleChannel ch k raw t s).wsc = s.wsc ∧ (sampleChannel ch k raw t s).inbox = s.inbox ∧
    (sampleChannel ch k raw t s).sched = s.sched ∧ (sampleChannel ch k raw t s).txLog = s.txLog ∧
    (sampleChannel ch k raw t s).line = s.line ∧ (sampleChannel ch k raw t s).answers = s.answers := by
  simp only [sampleChannel, seedWindow, closeWindow, accumulateWindow]
  split
  · split <;> simp
  · simp

/-- What `frmClear` leaves alone. -/
@[simp] theorem frmClear_frame (s : State) :
    (frmClear s).cfg = s.cfg ∧ (frmClear s).crc = s.crc ∧ (frmClear s).rx = s.rx ∧
    (frmClear s).lastClk = s.lastClk ∧ (frmClear s).uartQ = s.uartQ ∧ (frmClear s).de = s.de ∧
    (frmClear s).txIdle = s.txIdle ∧ (frmClear s).txHang = s.txHang ∧ (frmClear s).tx = s.tx ∧
    (frmClear s).txLen = s.txLen ∧ (frmClear s).t15 = s.t15 ∧ (frmClear s).t35 = s.t35 ∧
    (frmClear s).unitAddr = s.unitAddr ∧ (frmClear s).diag = s.diag ∧ (frmClear s).holding = s.holding ∧
    (frmClear s).input = s.input ∧ (frmClear s).wsc = s.wsc ∧ (frmClear s).win = s.win ∧
    (frmClear s).inbox = s.inbox ∧ (frmClear s).sched = s.sched ∧ (frmClear s).txLog = s.txLog ∧
    (frmClear s).line = s.line ∧ (frmClear s).answers = s.answers := by
  simp [frmClear]

/-- What `runCrcCheck` leaves alone. -/
@[simp] theorem runCrcCheck_frame (s : State) (f : List Byte) :
    (runCrcCheck f s).cfg = s.cfg ∧ (runCrcCheck f s).frmState = s.frmState ∧ (runCrcCheck f s).rx = s.rx ∧
    (runCrcCheck f s).rxLen = s.rxLen ∧ (runCrcCheck f s).rxOvf = s.rxOvf ∧
    (runCrcCheck f s).lastClk = s.lastClk ∧ (runCrcCheck f s).uartQ = s.uartQ ∧ (runCrcCheck f s).de = s.de ∧
    (runCrcCheck f s).txIdle = s.txIdle ∧ (runCrcCheck f s).txHang = s.txHang ∧ (runCrcCheck f s).tx = s.tx ∧
    (runCrcCheck f s).txLen = s.txLen ∧ (runCrcCheck f s).t15 = s.t15 ∧ (runCrcCheck f s).t35 = s.t35 ∧
    (runCrcCheck f s).unitAddr = s.unitAddr ∧ (runCrcCheck f s).diag = s.diag ∧
    (runCrcCheck f s).holding = s.holding ∧ (runCrcCheck f s).input = s.input ∧ (runCrcCheck f s).wsc = s.wsc ∧
    (runCrcCheck f s).win = s.win ∧ (runCrcCheck f s).inbox = s.inbox ∧ (runCrcCheck f s).sched = s.sched ∧
    (runCrcCheck f s).txLog = s.txLog ∧ (runCrcCheck f s).line = s.line ∧
    (runCrcCheck f s).answers = s.answers := by
  simp [runCrcCheck]

/-- What `returnSched` leaves alone. -/
@[simp] theorem returnSched_frame (s : State) :
    (returnSched s).cfg = s.cfg ∧ (returnSched s).crc = s.crc ∧ (returnSched s).frmState = s.frmState ∧
    (returnSched s).rx = s.rx ∧ (returnSched s).rxLen = s.rxLen ∧ (returnSched s).rxOvf = s.rxOvf ∧
    (returnSched s).lastClk = s.lastClk ∧ (returnSched s).uartQ = s.uartQ ∧ (returnSched s).de = s.de ∧
    (returnSched s).txIdle = s.txIdle ∧ (returnSched s).txHang = s.txHang ∧ (returnSched s).tx = s.tx ∧
    (returnSched s).txLen = s.txLen ∧ (returnSched s).t15 = s.t15 ∧ (returnSched s).t35 = s.t35 ∧
    (returnSched s).unitAddr = s.unitAddr ∧ (returnSched s).diag = s.diag ∧
    (returnSched s).holding = s.holding ∧ (returnSched s).input = s.input ∧ (returnSched s).wsc = s.wsc ∧
    (returnSched s).win = s.win ∧ (returnSched s).txLog = s.txLog ∧ (returnSched s).line = s.line ∧
    (returnSched s).answers = s.answers := by
  simp [returnSched]

/-- What `anomalyTest` leaves alone. -/
@[simp] theorem anomalyTest_frame (s : State) (now : Time) :
    (anomalyTest now s).cfg = s.cfg ∧ (anomalyTest now s).crc = s.crc ∧
    (anomalyTest now s).frmState = s.frmState ∧ (anomalyTest now s).rx = s.rx ∧
    (anomalyTest now s).rxLen = s.rxLen ∧ (anomalyTest now s).rxOvf = s.rxOvf ∧
    (anomalyTest now s).lastClk = s.lastClk ∧ (anomalyTest now s).uartQ = s.uartQ ∧
    (anomalyTest now s).de = s.de ∧ (anomalyTest now s).txIdle = s.txIdle ∧
    (anomalyTest now s).txHang = s.txHang ∧ (anomalyTest now s).tx = s.tx ∧
    (anomalyTest now s).txLen = s.txLen ∧ (anomalyTest now s).t15 = s.t15 ∧ (anomalyTest now s).t35 = s.t35 ∧
    (anomalyTest now s).unitAddr = s.unitAddr ∧ (anomalyTest now s).holding = s.holding ∧
    (anomalyTest now s).wsc = s.wsc ∧ (anomalyTest now s).win = s.win ∧ (anomalyTest now s).inbox = s.inbox ∧
    (anomalyTest now s).sched = s.sched ∧ (anomalyTest now s).txLog = s.txLog ∧
    (anomalyTest now s).line = s.line ∧ (anomalyTest now s).answers = s.answers := by
  unfold anomalyTest; split <;> simp

/-- What `storeBytes` leaves alone. -/
@[simp] theorem storeBytes_frame (s : State) (bs : List Byte) :
    (storeBytes bs s).cfg = s.cfg ∧ (storeBytes bs s).crc = s.crc ∧ (storeBytes bs s).frmState = s.frmState ∧
    (storeBytes bs s).lastClk = s.lastClk ∧ (storeBytes bs s).uartQ = s.uartQ ∧ (storeBytes bs s).de = s.de ∧
    (storeBytes bs s).txIdle = s.txIdle ∧ (storeBytes bs s).txHang = s.txHang ∧ (storeBytes bs s).tx = s.tx ∧
    (storeBytes bs s).txLen = s.txLen ∧ (storeBytes bs s).t15 = s.t15 ∧ (storeBytes bs s).t35 = s.t35 ∧
    (storeBytes bs s).unitAddr = s.unitAddr ∧ (storeBytes bs s).diag = s.diag ∧
    (storeBytes bs s).holding = s.holding ∧ (storeBytes bs s).input = s.input ∧ (storeBytes bs s).wsc = s.wsc ∧
    (storeBytes bs s).win = s.win ∧ (storeBytes bs s).inbox = s.inbox ∧ (storeBytes bs s).sched = s.sched ∧
    (storeBytes bs s).txLog = s.txLog ∧ (storeBytes bs s).line = s.line ∧
    (storeBytes bs s).answers = s.answers := by
  induction bs generalizing s with
  | nil => simp [storeBytes]
  | cons b bs ih => unfold storeBytes; split <;> simp [ih]

/-- What `frmAppend` leaves alone. -/
@[simp] theorem frmAppend_frame (s : State) (now : Time) :
    (frmAppend now s).cfg = s.cfg ∧ (frmAppend now s).crc = s.crc ∧ (frmAppend now s).de = s.de ∧
    (frmAppend now s).txIdle = s.txIdle ∧ (frmAppend now s).txHang = s.txHang ∧ (frmAppend now s).tx = s.tx ∧
    (frmAppend now s).txLen = s.txLen ∧ (frmAppend now s).t15 = s.t15 ∧ (frmAppend now s).t35 = s.t35 ∧
    (frmAppend now s).unitAddr = s.unitAddr ∧ (frmAppend now s).holding = s.holding ∧
    (frmAppend now s).wsc = s.wsc ∧ (frmAppend now s).win = s.win ∧ (frmAppend now s).inbox = s.inbox ∧
    (frmAppend now s).sched = s.sched ∧ (frmAppend now s).txLog = s.txLog ∧ (frmAppend now s).line = s.line ∧
    (frmAppend now s).answers = s.answers := by
  simp [frmAppend]

end Sys2Proof.Machine
end

