-- ==== Sys2Proof/Laws/Regs.lean ====
section
/-! SUPPORT. Register banks and counters: what a read gives after each operation. -/

namespace Sys2Proof.Machine

/-! ## Reads depend on the banks alone -/

theorem State.readReg_congr {s t : State} (h : t.holding = s.holding) (i : t.input = s.input) (b : Bank) (a : Nat) :
    t.readReg b a = s.readReg b a := by
  cases b <;> simp [State.readReg, h, i]

theorem State.readReg_holding_congr {s t : State} (h : t.holding = s.holding) (a : Nat) :
    t.readReg .holding a = s.readReg .holding a := by
  simp [State.readReg, h]

theorem State.readReg_input_congr {s t : State} (h : t.input = s.input) (a : Nat) :
    t.readReg .input a = s.readReg .input a := by
  simp [State.readReg, h]

theorem State.readWsc_congr {s t : State} (h : t.wsc = s.wsc) (a : Nat) : t.readWsc a = s.readWsc a := by
  simp [State.readWsc, h]

theorem State.window_congr {s t : State} (h : t.win = s.win) (k : Nat) : t.window k = s.window k := by
  simp [State.window, h]

/-! ## Register writes -/

theorem Vector.getD_setIfInBounds {α : Type} {n : Nat} (v : Vector α n) (a i : Nat) (x d : α) :
    ((v.setIfInBounds a x)[i]?).getD d = if a = i ∧ a < n then x else (v[i]?).getD d := by
  rw [Vector.getElem?_setIfInBounds]
  by_cases h : a = i
  · by_cases h2 : a < n
    · simp [h] at *; simp [h2]
    · have h3 : ¬ i < n := h ▸ h2
      simp [h, h3]
  · simp [h]

/-- A read after a write of a register: the value at its place when it exists, the old value everywhere else. -/
theorem State.readReg_writeReg (s : State) (b b' : Bank) (a a' : Nat) (v : Word) :
    (s.writeReg b a v).readReg b' a' = if b = b' ∧ a = a' ∧ a < b.size then v else s.readReg b' a' := by
  cases b <;> cases b' <;>
    simp [State.writeReg, State.readReg, Vector.getD_setIfInBounds, Bank.size]

@[simp] theorem State.writeReg_holding_input (s : State) (a : Nat) (v : Word) :
    (s.writeReg .holding a v).input = s.input := rfl

@[simp] theorem State.writeReg_input_holding (s : State) (a : Nat) (v : Word) :
    (s.writeReg .input a v).holding = s.holding := rfl

/-- A counter after its increment: every other counter stays. -/
theorem State.readWsc_bumpWsc (s : State) (a b : Nat) :
    (s.bumpWsc a).readWsc b = if a = b ∧ a < holdingSize then (s.readWsc a + 1) % 2 ^ s.cfg.wscW else s.readWsc b := by
  simp only [State.readWsc, State.bumpWsc, Vector.getD_setIfInBounds]

/-- A bus write as one record update (46_regmap R222). -/
theorem applyWrite_eq_written (a : Nat) (v : Word) (s : State) : applyWrite a v s = written a v s := by
  unfold applyWrite written
  split <;> simp_all [State.writeReg, State.bumpWsc, State.readWsc]

/-! ## Diagnostics and their mirrors -/

@[simp] theorem Diag.counter_bump (width : Nat) (d : Diag) (c c' : Counter) :
    (d.bump width c).counter c' = if c = c' then satInc width (d.counter c) else d.counter c' := by
  cases c <;> cases c' <;> simp [Diag.bump, Diag.counter]

@[simp] theorem Diag.lastExc_bump (width : Nat) (d : Diag) (c : Counter) : (d.bump width c).lastExc = d.lastExc := by cases c <;> rfl

@[simp] theorem State.countEvent_diag (s : State) (c : Counter) : (s.countEvent c).diag = s.diag.bump s.cfg.diagW c := by
  simp [State.countEvent]

@[simp] theorem State.setLastExc_diag (s : State) (e : ExcCode) :
    (s.setLastExc e).diag = { s.diag with lastExc := e.byte } := by
  simp [State.setLastExc]

/-- An input register after a mirror update: the mirror shows the value, every other register stays. -/
theorem State.readReg_mirror (s : State) (k : DiagKey) (a : Nat) :
    (s.mirror k).readReg .input a =
      if s.cfg.diagMap.addr k = some a ∧ a < inputSize then s.diag.value k else s.readReg .input a := by
  unfold State.mirror
  cases h : s.cfg.diagMap.addr k with
  | none => simp
  | some x =>
    simp only [State.readReg_writeReg, Bank.size, true_and, Option.some.injEq]
    by_cases hx : x = a
    · subst hx; rfl
    · simp [hx]

theorem State.readReg_countEvent (s : State) (c : Counter) (a : Nat) :
    (s.countEvent c).readReg .input a =
      if s.cfg.diagMap.addr (.counter c) = some a ∧ a < inputSize then
        BitVec.ofNat 16 (satInc s.cfg.diagW (s.diag.counter c))
      else s.readReg .input a := by
  unfold State.countEvent
  rw [State.readReg_mirror]
  simp only [Diag.value, Diag.counter_bump, if_pos]
  rfl

theorem State.readReg_setLastExc (s : State) (e : ExcCode) (a : Nat) :
    (s.setLastExc e).readReg .input a =
      if s.cfg.diagMap.addr .lastExc = some a ∧ a < inputSize then e.byte.setWidth 16 else s.readReg .input a := by
  unfold State.setLastExc
  rw [State.readReg_mirror]
  rfl

/-- A count leaves every input register but its mirror. -/
theorem State.readReg_countEvent_other {s : State} {c : Counter} {a : Nat}
    (h : s.cfg.diagMap.addr (.counter c) ≠ some a) :
    (s.countEvent c).readReg .input a = s.readReg .input a := by
  rw [State.readReg_countEvent, if_neg fun hc => h hc.1]

/-- The last exception code leaves every input register but its mirror. -/
theorem State.readReg_setLastExc_other {s : State} {e : ExcCode} {a : Nat}
    (h : s.cfg.diagMap.addr .lastExc ≠ some a) :
    (s.setLastExc e).readReg .input a = s.readReg .input a := by
  rw [State.readReg_setLastExc, if_neg fun hc => h hc.1]

/-! ## Saturation -/

/-- A saturating counter never decreases (10_state R33). -/
theorem le_satInc (width c : Nat) : c ≤ satInc width c := by
  unfold satInc
  split <;> omega

/-- A saturating counter keeps its width (10_state R33, 47_stats R245). -/
theorem satInc_lt {width c : Nat} (h : c < 2 ^ width) : satInc width c < 2 ^ width := by
  unfold satInc
  split <;> assumption

/-- A saturating count of at least one bit is never zero after its increment (47_stats R240). -/
theorem satInc_pos {width c : Nat} (h : 0 < width) : 1 ≤ satInc width c := by
  unfold satInc
  split
  · omega
  · rename_i hc
    have : 2 ^ 1 ≤ 2 ^ width := Nat.pow_le_pow_right (by omega) h
    omega

/-! ## Clocks -/

/-- A stored clock has `TIME_W` bits (00_scope R11). -/
theorem clockValue_lt (c : Config) (n : Nat) : clockValue c n < 2 ^ c.timeW := Nat.mod_lt _ (by positivity)

/-- Elapsed time is the difference while that is shorter than the wrap period (41_transport R148). -/
theorem elapsed_of_le {c : Config} {now before : Time} (h : before ≤ now) (hl : now - before < 2 ^ c.timeW) :
    elapsed c now before = now - before := by
  unfold elapsed
  rw [← Int.natCast_sub h]
  norm_cast
  exact Nat.mod_eq_of_lt hl

/-- Elapsed time does not see how often the clock has wrapped (41_transport R148). -/
theorem elapsed_clockValue (c : Config) (now before : Time) :
    elapsed c (clockValue c now) (clockValue c before) = elapsed c now before := by
  unfold elapsed clockValue
  push_cast
  rw [← Int.sub_emod]

/-! ## Windows -/

@[simp] theorem State.readReg_setWindow (s : State) (k : Nat) (w : Window) (b : Bank) (a : Nat) :
    (s.setWindow k w).readReg b a = s.readReg b a := by cases b <;> rfl

theorem State.window_setWindow (s : State) (k j : Nat) (w : Window) :
    (s.setWindow k w).window j = if k = j ∧ k < s.win.length then w else s.window j := by
  simp only [State.window, State.setWindow, List.getD_eq_getElem?_getD, List.getElem?_set]
  by_cases h : k = j
  · subst h
    by_cases h2 : k < s.win.length <;> simp [h2]
  · simp [h]

@[simp] theorem State.length_win_setWindow (s : State) (k : Nat) (w : Window) :
    (s.setWindow k w).win.length = s.win.length := by
  simp [State.setWindow]

end Sys2Proof.Machine
end

