-- ==== Sys2Proof/Laws/Ops.lean ====
section
/-! SUPPORT. One lemma per shared operation that says everything it can do: sending, exceptions, port events, reading a
run. -/

namespace Sys2Proof.Machine

/-! ## Sending -/

theorem handOver_eq (bs : List Byte) (s : State) :
    handOver bs s =
      { s with txIdle := if bs = [] then s.txIdle else false, line := s.line ++ bs.map LineEvent.byte } := by
  induction bs generalizing s with
  | nil => simp [handOver]
  | cons b bs ih => rw [handOver, ih]; simp

/-- The transmit buffer after the body and its checksum: the frame from index 0 on. -/
theorem crcAppend_loadBody (body : List Byte) (s : State) :
    crcAppend (loadBody body s) =
      { s with
        crc := crcOver body
        tx := s.tx.writeAll 0 (withCrc body)
        txLen := (withCrc body).length } := by
  rw [length_withCrc]
  simp only [crcAppend, loadBody, Memory.readAll_writeAll, withCrc, Memory.writeAll_append, Nat.zero_add]

/-- A response that fits: sent, and the state after it is `sent body s` (42_dispatcher R169, R170). -/
theorem respond_eq {body : List Byte} {s : State} (hl : body.length + 2 ≤ txMax) (hh : s.txHang = false) :
    respond body s = .next (sent body s) := by
  rw [respond, if_pos hl, frmSend, crcAppend_loadBody]
  simp only [Memory.readAll_writeAll, driveOn, handOver_eq, waitIdle, hh, Bool.false_eq_true, ↓reduceIte,
    andThen_next, release]
  rw [sent]
  simp [lineTrace, hh]

/-- A response that fits, while the transmitter never reports idle (70_reset R331). -/
theorem respond_eq_fault {body : List Byte} {s : State} (hl : body.length + 2 ≤ txMax) (hh : s.txHang = true) :
    respond body s = .fault .txNeverIdle := by
  rw [respond, if_pos hl, frmSend, crcAppend_loadBody]
  simp [driveOn, handOver_eq, waitIdle, hh]

/-- What a response can end in. -/
theorem respond_cases (body : List Byte) (s : State) :
    (body.length + 2 ≤ txMax ∧ s.txHang = false ∧ respond body s = .next (sent body s)) ∨
    (body.length + 2 ≤ txMax ∧ s.txHang = true ∧ respond body s = .fault .txNeverIdle) ∨
    (¬ body.length + 2 ≤ txMax ∧ respond body s = .fault .txBufferOverrun) := by
  by_cases hl : body.length + 2 ≤ txMax
  · cases hh : s.txHang
    · exact .inl ⟨hl, rfl, respond_eq hl hh⟩
    · exact .inr (.inl ⟨hl, rfl, respond_eq_fault hl hh⟩)
  · exact .inr (.inr ⟨hl, by rw [respond, if_neg hl]⟩)

/-- A response that answers a next state. -/
theorem respond_eq_next {body : List Byte} {s t : State} (h : respond body s = .next t) :
    t = sent body s ∧ body.length + 2 ≤ txMax ∧ s.txHang = false := by
  rcases respond_cases body s with ⟨h1, h2, h3⟩ | ⟨-, -, h3⟩ | ⟨-, h3⟩
  · rw [h3] at h
    exact ⟨(Host.Outcome.next.inj h).symm, h1, h2⟩
  · simp [h3] at h
  · simp [h3] at h

/-- What `sent` leaves alone. -/
@[simp] theorem sent_frame (body : List Byte) (s : State) :
    (sent body s).cfg = s.cfg ∧ (sent body s).frmState = s.frmState ∧ (sent body s).rx = s.rx ∧
    (sent body s).rxLen = s.rxLen ∧ (sent body s).rxOvf = s.rxOvf ∧ (sent body s).lastClk = s.lastClk ∧
    (sent body s).uartQ = s.uartQ ∧ (sent body s).txHang = s.txHang ∧ (sent body s).t15 = s.t15 ∧
    (sent body s).t35 = s.t35 ∧ (sent body s).unitAddr = s.unitAddr ∧ (sent body s).holding = s.holding ∧
    (sent body s).wsc = s.wsc ∧ (sent body s).win = s.win ∧ (sent body s).inbox = s.inbox ∧
    (sent body s).sched = s.sched ∧ (sent body s).answers = s.answers := by
  simp [sent]

/-- What `sent` writes. -/
@[simp] theorem sent_effect (body : List Byte) (s : State) :
    (sent body s).crc = crcOver body ∧ (sent body s).tx = s.tx.writeAll 0 (withCrc body) ∧
    (sent body s).txLen = 0 ∧ (sent body s).de = false ∧ (sent body s).txIdle = true ∧
    (sent body s).line = s.line ++ lineTrace (withCrc body) ∧ (sent body s).txLog = s.txLog ++ [withCrc body] ∧
    (sent body s).diag = s.diag.bump s.cfg.diagW .framesSent := by
  simp [sent]

/-- The input registers after a response: the mirror of the sent count follows (46_regmap R228). -/
theorem readReg_sent (body : List Byte) (s : State) (a : Nat) :
    (sent body s).readReg .input a =
      if s.cfg.diagMap.addr (.counter .framesSent) = some a ∧ a < inputSize then
        BitVec.ofNat 16 (satInc s.cfg.diagW s.diag.framesSent)
      else s.readReg .input a := by
  rw [sent, State.readReg_countEvent]
  rfl

/-! ## Exceptions -/

/-- Taking an exception (60_exceptions R286). -/
theorem takeException_eq {function : Byte} {code : ExcCode} {s : State} (hh : s.txHang = false) :
    takeException function code s = .next (excepted function code s) := by
  have hu : ((s.countEvent .excSent).setLastExc code).unitAddr = s.unitAddr := by simp
  rw [takeException, excepted, hu]
  exact respond_eq (body := [_, _, _]) (show 3 + 2 ≤ 69 by omega) (by simpa using hh)

theorem takeException_eq_next {function : Byte} {code : ExcCode} {s t : State}
    (h : takeException function code s = .next t) : t = excepted function code s ∧ s.txHang = false := by
  have hu : ((s.countEvent .excSent).setLastExc code).unitAddr = s.unitAddr := by simp
  rw [takeException, hu] at h
  obtain ⟨h1, -, h2⟩ := respond_eq_next h
  exact ⟨h1, by simpa using h2⟩

/-- `raise Exc(code)` (60_exceptions R286). -/
theorem raiseExc_eq {unit fc : Byte} {code : ExcCode} {s : State} (hh : s.txHang = false) :
    raiseExc unit fc code s = .next (raised unit fc code s) := by
  unfold raiseExc raised
  split
  · rfl
  · exact takeException_eq hh

theorem raiseExc_eq_next {unit fc : Byte} {code : ExcCode} {s t : State}
    (h : raiseExc unit fc code s = .next t) : t = raised unit fc code s := by
  unfold raiseExc at h
  unfold raised
  split at h
  · rename_i hu
    rw [if_pos hu]
    exact (Host.Outcome.next.inj h).symm
  · rename_i hu
    rw [if_neg hu]
    exact (takeException_eq_next h).1

/-- What an exception leaves alone. -/
@[simp] theorem excepted_frame (function : Byte) (code : ExcCode) (s : State) :
    (excepted function code s).cfg = s.cfg ∧ (excepted function code s).frmState = s.frmState ∧
    (excepted function code s).rx = s.rx ∧ (excepted function code s).rxLen = s.rxLen ∧
    (excepted function code s).rxOvf = s.rxOvf ∧ (excepted function code s).lastClk = s.lastClk ∧
    (excepted function code s).uartQ = s.uartQ ∧ (excepted function code s).txHang = s.txHang ∧
    (excepted function code s).t15 = s.t15 ∧ (excepted function code s).t35 = s.t35 ∧
    (excepted function code s).unitAddr = s.unitAddr ∧ (excepted function code s).holding = s.holding ∧
    (excepted function code s).wsc = s.wsc ∧ (excepted function code s).win = s.win ∧
    (excepted function code s).inbox = s.inbox ∧ (excepted function code s).sched = s.sched ∧
    (excepted function code s).answers = s.answers := by
  simp [excepted]

/-- What an exception writes besides the diagnostics. -/
@[simp] theorem excepted_effect (function : Byte) (code : ExcCode) (s : State) :
    (excepted function code s).crc = crcOver [s.unitAddr, function, code.byte] ∧
    (excepted function code s).tx = s.tx.writeAll 0 (withCrc [s.unitAddr, function, code.byte]) ∧
    (excepted function code s).txLen = 0 ∧ (excepted function code s).de = false ∧
    (excepted function code s).txIdle = true ∧
    (excepted function code s).line = s.line ++ lineTrace (withCrc [s.unitAddr, function, code.byte]) ∧
    (excepted function code s).txLog = s.txLog ++ [withCrc [s.unitAddr, function, code.byte]] ∧
    (excepted function code s).diag =
      { s.diag with
        excSent := satInc s.cfg.diagW s.diag.excSent
        lastExc := code.byte
        framesSent := satInc s.cfg.diagW s.diag.framesSent } := by
  simp [excepted, Diag.bump]

/-! ## Port events -/

/-- A port write that answers a next state (46_regmap R224, R225). -/
theorem portWrite_eq_next {role : Role} {bank : Bank} {a : Nat} {v : Word} {s t : State}
    (h : portWrite role bank a v s = .next t) :
    a < bank.size ∧ s.cfg.owns role bank a = true ∧ t = s.writeReg bank a (portValue s bank a v) := by
  unfold portWrite at h
  split at h
  · rename_i ha
    split at h
    · rename_i ho
      exact ⟨ha, ho, (Host.Outcome.next.inj h).symm⟩
    · simp at h
  · simp at h

/-- A sample that answers a next state (47_stats R237). -/
theorem staSample_eq_next {k : Nat} {raw : Word} {t : Time} {s u : State} (h : staSample k raw t s = .next u) :
    ∃ ch, s.cfg.statCh[k]? = some ch ∧ u = sampleChannel ch k raw t s := by
  unfold staSample at h
  split at h
  · rename_i ch hc
    exact ⟨ch, hc, (Host.Outcome.next.inj h).symm⟩
  · simp at h

/-- A port event that answers a next state. -/
theorem portStep_eq_next {e : PortEvent} {s t : State} (h : portStep e s = .next t) :
    (∃ role bank a v, e = .portWrite role bank a v ∧ a < bank.size ∧ s.cfg.owns role bank a = true ∧
      t = s.writeReg bank a (portValue s bank a v)) ∨
    (∃ k raw clk ch, e = .sample k raw clk ∧ s.cfg.statCh[k]? = some ch ∧ t = sampleChannel ch k raw clk s) := by
  cases e with
  | portWrite role bank a v =>
    obtain ⟨h1, h2, h3⟩ := portWrite_eq_next h
    exact .inl ⟨role, bank, a, v, rfl, h1, h2, h3⟩
  | sample k raw clk =>
    obtain ⟨ch, h1, h2⟩ := staSample_eq_next h
    exact .inr ⟨k, raw, clk, ch, rfl, h1, h2⟩

/-- A register that exists has attributes, and only such a register has an owner. -/
theorem Config.lt_of_owns {c : Config} {role : Role} {bank : Bank} {a : Nat} (h : c.owns role bank a = true) :
    a < bank.size := by
  unfold Config.owns at h
  cases bank with
  | holding =>
    by_contra hn
    have : c.attr .holding a = none := Vector.getElem?_eq_none (Nat.le_of_not_lt hn)
    simp [this] at h
  | input =>
    by_contra hn
    have : c.attr .input a = none := Vector.getElem?_eq_none (Nat.le_of_not_lt hn)
    simp [this] at h

/-- An event the environment may issue is taken (46_regmap R225, 47_stats R237). -/
theorem portStep_admitted {e : PortEvent} {s : State} (h : admitted s.cfg e = true) : ∃ t, portStep e s = .next t := by
  cases e with
  | portWrite role bank a v =>
    have ho : s.cfg.owns role bank a = true := h
    refine ⟨s.writeReg bank a (portValue s bank a v), ?_⟩
    simp only [portStep, portWrite]
    rw [if_pos (Config.lt_of_owns ho), if_pos ho]
  | sample k raw clk =>
    have hk : k < s.cfg.statCh.length := by simpa [admitted] using h
    refine ⟨sampleChannel s.cfg.statCh[k] k raw clk s, ?_⟩
    simp only [portStep, staSample]
    rw [List.getElem?_eq_getElem hk]

/-- What the register file's operations leave alone: everything but the banks, the counters, the windows and the
schedule. -/
structure RegFrame (s t : State) : Prop where
  cfg : t.cfg = s.cfg
  crc : t.crc = s.crc
  frmState : t.frmState = s.frmState
  rx : t.rx = s.rx
  rxLen : t.rxLen = s.rxLen
  rxOvf : t.rxOvf = s.rxOvf
  lastClk : t.lastClk = s.lastClk
  uartQ : t.uartQ = s.uartQ
  de : t.de = s.de
  txIdle : t.txIdle = s.txIdle
  txHang : t.txHang = s.txHang
  tx : t.tx = s.tx
  txLen : t.txLen = s.txLen
  t15 : t.t15 = s.t15
  t35 : t.t35 = s.t35
  unitAddr : t.unitAddr = s.unitAddr
  diag : t.diag = s.diag
  inbox : t.inbox = s.inbox
  txLog : t.txLog = s.txLog
  line : t.line = s.line
  answers : t.answers = s.answers

theorem RegFrame.refl (s : State) : RegFrame s s := by constructor <;> rfl

theorem RegFrame.trans {s t u : State} (h : RegFrame s t) (i : RegFrame t u) : RegFrame s u where
  cfg := i.cfg.trans h.cfg
  crc := i.crc.trans h.crc
  frmState := i.frmState.trans h.frmState
  rx := i.rx.trans h.rx
  rxLen := i.rxLen.trans h.rxLen
  rxOvf := i.rxOvf.trans h.rxOvf
  lastClk := i.lastClk.trans h.lastClk
  uartQ := i.uartQ.trans h.uartQ
  de := i.de.trans h.de
  txIdle := i.txIdle.trans h.txIdle
  txHang := i.txHang.trans h.txHang
  tx := i.tx.trans h.tx
  txLen := i.txLen.trans h.txLen
  t15 := i.t15.trans h.t15
  t35 := i.t35.trans h.t35
  unitAddr := i.unitAddr.trans h.unitAddr
  diag := i.diag.trans h.diag
  inbox := i.inbox.trans h.inbox
  txLog := i.txLog.trans h.txLog
  line := i.line.trans h.line
  answers := i.answers.trans h.answers

/-- What a port event leaves alone: everything but the banks and the windows. -/
structure PortFrame (s t : State) : Prop extends RegFrame s t where
  wsc : t.wsc = s.wsc
  sched : t.sched = s.sched

theorem PortFrame.refl (s : State) : PortFrame s s := ⟨RegFrame.refl s, rfl, rfl⟩

theorem PortFrame.trans {s t u : State} (h : PortFrame s t) (i : PortFrame t u) : PortFrame s u :=
  ⟨h.toRegFrame.trans i.toRegFrame, i.wsc.trans h.wsc, i.sched.trans h.sched⟩

theorem portStep_portFrame {e : PortEvent} {s t : State} (h : portStep e s = .next t) : PortFrame s t := by
  rcases portStep_eq_next h with ⟨role, bank, a, v, -, -, -, rfl⟩ | ⟨k, raw, clk, ch, -, -, rfl⟩ <;>
    exact ⟨by constructor <;> simp, by simp, by simp⟩

theorem deliver_portFrame {es : List PortEvent} {s t : State} (h : deliver es s = .next t) : PortFrame s t := by
  induction es generalizing s with
  | nil =>
    obtain rfl := Host.Outcome.next.inj h
    exact PortFrame.refl _
  | cons e es ih =>
    obtain ⟨u, h1, h2⟩ := andThen_eq_next.mp h
    exact (portStep_portFrame h1).trans (ih h2)

theorem deliver_admitted {es : List PortEvent} {s : State} (h : ∀ e ∈ es, admitted s.cfg e = true) :
    ∃ t, deliver es s = .next t := by
  induction es generalizing s with
  | nil => exact ⟨s, rfl⟩
  | cons e es ih =>
    obtain ⟨u, hu⟩ := portStep_admitted (h e (by simp))
    have hc := (portStep_portFrame hu).cfg
    obtain ⟨t, ht⟩ := ih (s := u) fun e' he => hc ▸ h e' (by simp [he])
    exact ⟨t, andThen_eq_next.mpr ⟨u, hu, ht⟩⟩

theorem deliver_append (xs ys : List PortEvent) (s : State) :
    deliver (xs ++ ys) s = andThen (deliver xs s) (deliver ys) := by
  induction xs generalizing s with
  | nil => rfl
  | cons x xs ih =>
    simp only [List.cons_append, deliver, andThen_assoc]
    congr 1
    funext u
    exact ih u

/-! ## Port events and the schedule -/

/-- The schedule of a state replaced. -/
def State.withSched (s : State) (x : List (List PortEvent)) : State := { s with sched := x }

@[simp] theorem State.withSched_sched (s : State) (x : List (List PortEvent)) : (s.withSched x).sched = x := rfl

@[simp] theorem State.withSched_self (s : State) : s.withSched s.sched = s := rfl

@[simp] theorem State.withSched_withSched (s : State) (x y : List (List PortEvent)) :
    (s.withSched x).withSched y = s.withSched y := rfl

@[simp] theorem State.withSched_readReg (s : State) (x : List (List PortEvent)) (b : Bank) (a : Nat) :
    (s.withSched x).readReg b a = s.readReg b a := by cases b <;> rfl

theorem sampleChannel_withSched (ch : StatChannel) (k : Nat) (raw : Word) (clk : Time) (s : State)
    (x : List (List PortEvent)) :
    sampleChannel ch k raw clk (s.withSched x) = (sampleChannel ch k raw clk s).withSched x := by
  have hw : (s.withSched x).window k = s.window k := rfl
  have hc : (s.withSched x).cfg = s.cfg := rfl
  simp only [sampleChannel, hw, hc]
  by_cases h : (s.window k).isOpen = true
  · by_cases h' : windowMs ≤ elapsed s.cfg clk (s.window k).start
    · simp only [h, h', if_true]
      rfl
    · simp only [h, h', if_true, if_false]
      rfl
  · simp only [h]
    rfl

/-- A port event does not look at the schedule. -/
theorem portStep_withSched (e : PortEvent) (s : State) (x : List (List PortEvent)) :
    portStep e (s.withSched x) = andThen (portStep e s) fun t => .next (t.withSched x) := by
  cases e with
  | portWrite role bank a v =>
    have hc : (s.withSched x).cfg = s.cfg := rfl
    simp only [portStep, portWrite, hc]
    split
    · split
      · cases bank <;> rfl
      · rfl
    · rfl
  | sample k raw clk =>
    have hc : (s.withSched x).cfg = s.cfg := rfl
    simp only [portStep, staSample, hc]
    split
    · rw [sampleChannel_withSched]; rfl
    · rfl

theorem deliver_withSched (es : List PortEvent) (s : State) (x : List (List PortEvent)) :
    deliver es (s.withSched x) = andThen (deliver es s) fun t => .next (t.withSched x) := by
  induction es generalizing s with
  | nil => rfl
  | cons e es ih =>
    simp only [deliver, portStep_withSched, andThen_assoc, andThen_next]
    congr 1
    funext u
    exact ih u

/-- Delivering the next batch. -/
theorem deliverNext_eq (s : State) :
    deliverNext s = andThen (deliver (s.sched.take 1).flatten s) fun t => .next (t.withSched (s.sched.drop 1)) := by
  unfold deliverNext
  cases h : s.sched with
  | nil =>
    have : s.withSched [] = s := by rw [← h]; rfl
    simp [deliver, this]
  | cons batch later =>
    have : ({ s with sched := later } : State) = s.withSched later := rfl
    simp [this, deliver_withSched]

/-! ## Reading a run -/

/-- A run read without scheduled events: the registers of one state, which stays as it is (43_read R180). -/
theorem readRun_eq {bank : Bank} {s : State} (a n : Nat) (h : s.sched = []) :
    readRun bank a n s = .next ((List.range n).map fun i => s.readReg bank (a + i), s) := by
  induction n generalizing a with
  | zero => rfl
  | succ n ih =>
    have hd : (if n = 0 then Host.Outcome.next s else deliverNext s) = (.next s : Result State) := by
      split
      · rfl
      · simp [deliverNext, h]
    simp only [readRun, hd, andThen_next, ih]
    simp [List.range_succ_eq_map, Function.comp_def, Nat.add_assoc, Nat.add_comm 1]

theorem length_readRun {bank : Bank} {a n : Nat} {s t : State} {vs : List Word}
    (h : readRun bank a n s = .next (vs, t)) : vs.length = n := by
  induction n generalizing a s vs with
  | zero =>
    obtain ⟨rfl, -⟩ := Prod.mk.inj (Host.Outcome.next.inj h)
    rfl
  | succ n ih =>
    obtain ⟨u, -, h2⟩ := andThen_eq_next.mp h
    obtain ⟨⟨ws, w⟩, h3, h4⟩ := andThen_eq_next.mp h2
    obtain ⟨rfl, rfl⟩ := Prod.mk.inj (Host.Outcome.next.inj h4)
    simp [ih h3]

theorem RegFrame.ofSched (s : State) (x : List (List PortEvent)) : RegFrame s (s.withSched x) := by
  constructor <;> rfl

theorem PortFrame.withSched {s t : State} (h : PortFrame s t) (x : List (List PortEvent)) :
    PortFrame (s.withSched x) (t.withSched x) :=
  ⟨((by constructor <;> rfl : RegFrame (s.withSched x) s).trans h.toRegFrame).trans (RegFrame.ofSched t x), h.wsc, rfl⟩

theorem deliverNext_portFrame {s t : State} (h : deliverNext s = .next t) : PortFrame (s.withSched t.sched) t := by
  rw [deliverNext_eq] at h
  obtain ⟨w, h1, h2⟩ := andThen_eq_next.mp h
  obtain rfl := Host.Outcome.next.inj h2
  exact (deliver_portFrame h1).withSched _

/-- What a run leaves alone: everything but the banks, the windows and the schedule. -/
theorem readRun_portFrame {bank : Bank} {a n : Nat} {s t : State} {vs : List Word}
    (h : readRun bank a n s = .next (vs, t)) : PortFrame (s.withSched t.sched) t := by
  induction n generalizing a s vs with
  | zero =>
    obtain ⟨-, rfl⟩ := Prod.mk.inj (Host.Outcome.next.inj h)
    exact PortFrame.refl _
  | succ n ih =>
    obtain ⟨u, h1, h2⟩ := andThen_eq_next.mp h
    obtain ⟨⟨ws, w⟩, h3, h4⟩ := andThen_eq_next.mp h2
    obtain ⟨-, rfl⟩ := Prod.mk.inj (Host.Outcome.next.inj h4)
    have hu : PortFrame (s.withSched u.sched) u := by
      split at h1
      · obtain rfl := Host.Outcome.next.inj h1
        exact PortFrame.refl _
      · exact deliverNext_portFrame h1
    exact (hu.withSched w.sched).trans (ih h3)

/-- A run read with scheduled events: each register as it stands after the batches that landed before its turn (43_read
R180, 20_memory R76). -/
theorem readRun_spec {bank : Bank} (n a : Nat) (s : State) (hs : schedAdmitted s) :
    ∃ values u, values.length = n ∧
      (∀ i < n, ∃ si, deliver (s.sched.take i).flatten s = .next si ∧ values[i]? = some (si.readReg bank (a + i))) ∧
      deliver (s.sched.take (n - 1)).flatten s = .next u ∧
      readRun bank a n s = .next (values, u.withSched (s.sched.drop (n - 1))) := by
  induction n generalizing a s with
  | zero => exact ⟨[], s, rfl, by simp, by simp [deliver], by simp [readRun]⟩
  | succ n ih =>
    by_cases hn : n = 0
    · subst hn
      refine ⟨[s.readReg bank a], s, rfl, ?_, by simp [deliver], by simp [readRun]⟩
      intro i hi
      obtain rfl : i = 0 := by omega
      exact ⟨s, by simp [deliver], by simp⟩
    · obtain ⟨m, rfl⟩ : ∃ m, n = m + 1 := ⟨n - 1, by omega⟩
      obtain ⟨w, hw⟩ := deliver_admitted (es := (s.sched.take 1).flatten) (s := s) fun e he => by
        obtain ⟨b, hb, heb⟩ := List.mem_flatten.mp he
        exact hs b (List.mem_of_mem_take hb) e heb
      have hcw : (w.withSched (s.sched.drop 1)).cfg = s.cfg := (deliver_portFrame hw).cfg
      obtain ⟨vs, u, hl, hv, hu, hr⟩ := ih (a + 1) (w.withSched (s.sched.drop 1)) fun b hb e he => by
        rw [hcw]
        exact hs b (List.mem_of_mem_drop hb) e he
      have key : ∀ j t, deliver ((s.sched.drop 1).take j).flatten (w.withSched (s.sched.drop 1)) = .next t →
          ∃ t', deliver (s.sched.take (j + 1)).flatten s = .next t' ∧ t'.withSched (s.sched.drop 1) = t := by
        intro j t ht
        have e1 : s.sched.take (j + 1) = s.sched.take 1 ++ (s.sched.drop 1).take j := by cases s.sched <;> simp
        rw [e1, List.flatten_append, deliver_append, hw, andThen_next]
        rw [deliver_withSched] at ht
        obtain ⟨t', h1, h2⟩ := andThen_eq_next.mp ht
        exact ⟨t', h1, Host.Outcome.next.inj h2⟩
      obtain ⟨u', hu1, hu2⟩ := key m u hu
      refine ⟨s.readReg bank a :: vs, u', by simp [hl], ?_, hu1, ?_⟩
      · intro i hi
        rcases i with _ | i
        · exact ⟨s, by simp [deliver], by simp⟩
        · obtain ⟨si, h3, h4⟩ := hv i (by omega)
          obtain ⟨si', h5, rfl⟩ := key _ _ h3
          refine ⟨si', h5, ?_⟩
          rw [List.getElem?_cons_succ, h4, State.withSched_readReg]
          congr 2
          omega
      · have hd : deliverNext s = .next (w.withSched (s.sched.drop 1)) := by rw [deliverNext_eq, hw]; rfl
        have hdrop : (s.sched.drop 1).drop (m + 1 - 1) = s.sched.drop (m + 1 + 1 - 1) := by
          rw [List.drop_drop]
          congr 1
          omega
        rw [readRun]
        simp only [hn, if_false, hd, andThen_next]
        rw [hr, andThen_next, State.withSched_sched, hdrop, ← hu2, State.withSched_withSched]

/-- `REG.READ` inside the bank and outside it (46_regmap R218). -/
theorem regRead_inBank {bank : Bank} {start count : Word} (s : State) (h : runInBank bank start count = true) :
    regRead bank start count s = some (readRun bank start.toNat count.toNat s) := if_pos h

theorem regRead_outOfBank {bank : Bank} {start count : Word} (s : State) (h : runInBank bank start count = false) :
    regRead bank start count s = none := if_neg (by rw [h]; exact Bool.false_ne_true)

/-! ## Bus writes -/

theorem written_other {a x : Nat} (v : Word) (s : State) (h : x ≠ a) :
    (written a v s).readReg .holding x = s.readReg .holding x ∧ (written a v s).readWsc x = s.readWsc x := by
  have h' : ¬ a = x := fun e => h e.symm
  constructor
  · simp [written, State.readReg, h']
  · unfold written State.readWsc
    dsimp only
    split <;> simp [h']

theorem written_at {a : Nat} (v : Word) (s : State) (h : a < holdingSize) :
    (written a v s).readReg .holding a = v ∧
    (written a v s).readWsc a = if s.cfg.isCommand a = true then (s.readWsc a + 1) % 2 ^ s.cfg.wscW else s.readWsc a := by
  constructor
  · simp only [written, State.readReg, Vector.getD_setIfInBounds, h, and_self, if_true]
  · by_cases hc : s.cfg.isCommand a = true
    · simp only [written, State.readWsc, hc, if_true, Vector.getD_setIfInBounds, h, and_self]
    · simp [written, State.readWsc, hc]

/-- A run of bus writes: the values, exactly one count for each command register in it, nothing else (44_write R195, R198). -/
theorem applyRun_spec (a : Nat) (vs : List Word) (s : State) (h : a + vs.length ≤ holdingSize) :
    (∀ x, (applyRun a vs s).readReg .holding x =
      if a ≤ x then (vs[x - a]?).getD (s.readReg .holding x) else s.readReg .holding x) ∧
    (∀ x, (applyRun a vs s).readWsc x =
      if a ≤ x ∧ x < a + vs.length ∧ s.cfg.isCommand x = true then
        (s.readWsc x + 1) % 2 ^ s.cfg.wscW else s.readWsc x) ∧
    applyRun a vs s = { s with holding := (applyRun a vs s).holding, wsc := (applyRun a vs s).wsc } := by
  induction vs generalizing a s with
  | nil =>
    refine ⟨by simp [applyRun], fun x => ?_, rfl⟩
    rw [if_neg]
    · rfl
    · simp only [List.length_nil]; omega
  | cons v vs ih =>
    simp only [List.length_cons] at h
    obtain ⟨i1, i2, i3⟩ := ih (a + 1) (written a v s) (by omega)
    have hcfg : (written a v s).cfg = s.cfg := rfl
    rw [applyRun, applyWrite_eq_written]
    refine ⟨fun x => ?_, fun x => ?_, by rw [i3]; rfl⟩
    · rw [i1]
      by_cases hx : x = a
      · subst hx
        rw [if_neg (by omega), (written_at v s (by omega)).1]
        simp
      · rw [(written_other v s hx).1]
        by_cases h1 : a + 1 ≤ x
        · have h2 : x - a = (x - (a + 1)) + 1 := by omega
          rw [if_pos h1, if_pos (by omega), h2, List.getElem?_cons_succ]
        · rw [if_neg h1, if_neg (by omega)]
    · rw [i2, hcfg]
      by_cases hx : x = a
      · subst hx
        rw [if_neg (by omega), (written_at v s (by omega)).2]
        simp
      · rw [(written_other v s hx).2]
        have hiff : (a + 1 ≤ x ∧ x < a + 1 + vs.length ∧ s.cfg.isCommand x = true) ↔
            (a ≤ x ∧ x < a + (v :: vs).length ∧ s.cfg.isCommand x = true) := by
          simp only [List.length_cons]
          constructor <;> rintro ⟨p, q, r⟩ <;> exact ⟨by omega, by omega, r⟩
        simp only [hiff]

/-- An applied write's answer that fits (44_write R191, R193, R195). -/
theorem answerWrite_eq {unit : Byte} {body : List Byte} {s : State} (hb : body.length + 2 ≤ txMax)
    (hh : s.txHang = false) :
    answerWrite unit body s = if unit = 0x00#8 then .next s else .next (sent body s) := by
  unfold answerWrite
  split
  · rfl
  · rw [respond_eq hb hh]

end Sys2Proof.Machine
end

