-- ==== Sys2Proof/Laws/Exec.lean ====
section
/-! SUPPORT. What an instruction can do, said once: work on the register file, then at most one frame sent. Every claim over
all instructions cites `exec_cases`. -/

namespace Sys2Proof.Machine

/-- Work on the register file and the windows: port events, bus writes, schedule taken. -/
inductive RegSteps : State → State → Prop where
  | refl (s : State) : RegSteps s s
  | port {s t u : State} (e : PortEvent) (h : RegSteps s t) (hp : portStep e t = .next u) : RegSteps s u
  | sched {s t : State} (x : List (List PortEvent)) (h : RegSteps s t) : RegSteps s (t.withSched x)
  | write {s t : State} (a : Nat) (v : Word) (h : RegSteps s t) : RegSteps s (written a v t)

theorem RegSteps.trans {s t u : State} (h : RegSteps s t) (i : RegSteps t u) : RegSteps s u := by
  induction i with
  | refl => exact h
  | port e _ hp ih => exact .port e ih hp
  | sched x _ ih => exact .sched x ih
  | write a v _ ih => exact .write a v ih

theorem written_regFrame (a : Nat) (v : Word) (s : State) : RegFrame s (written a v s) := by constructor <;> rfl

/-- Work on the register file leaves everything else alone. -/
theorem RegSteps.regFrame {s t : State} (h : RegSteps s t) : RegFrame s t := by
  induction h with
  | refl => exact RegFrame.refl _
  | port e _ hp ih => exact ih.trans (portStep_portFrame hp).toRegFrame
  | sched x _ ih => exact ih.trans (RegFrame.ofSched _ x)
  | write a v _ ih => exact ih.trans (written_regFrame a v _)

theorem RegSteps.ofDeliver {es : List PortEvent} {s t : State} (h : deliver es s = .next t) : RegSteps s t := by
  induction es generalizing s with
  | nil =>
    obtain rfl := Host.Outcome.next.inj h
    exact .refl _
  | cons e es ih =>
    obtain ⟨u, h1, h2⟩ := andThen_eq_next.mp h
    exact (RegSteps.port e (.refl s) h1).trans (ih h2)

theorem RegSteps.ofReadRun {bank : Bank} {a n : Nat} {s t : State} {vs : List Word}
    (h : readRun bank a n s = .next (vs, t)) : RegSteps s t := by
  induction n generalizing a s vs with
  | zero =>
    obtain ⟨-, rfl⟩ := Prod.mk.inj (Host.Outcome.next.inj h)
    exact .refl _
  | succ n ih =>
    obtain ⟨u, h1, h2⟩ := andThen_eq_next.mp h
    obtain ⟨⟨ws, w⟩, h3, h4⟩ := andThen_eq_next.mp h2
    obtain ⟨-, rfl⟩ := Prod.mk.inj (Host.Outcome.next.inj h4)
    have hu : RegSteps s u := by
      split at h1
      · obtain rfl := Host.Outcome.next.inj h1
        exact .refl _
      · rw [deliverNext_eq] at h1
        obtain ⟨x, h5, h6⟩ := andThen_eq_next.mp h1
        obtain rfl := Host.Outcome.next.inj h6
        exact .sched _ (.ofDeliver h5)
    exact hu.trans (ih h3)

theorem RegSteps.ofRegRead {bank : Bank} {start count : Word} {s t : State} {run : Result (List Word × State)}
    {vs : List Word} (hr : regRead bank start count s = some run) (h : run = .next (vs, t)) : RegSteps s t := by
  unfold regRead at hr
  split at hr
  · rw [← Option.some.inj hr] at h
    exact .ofReadRun h
  · cases hr

theorem RegSteps.ofApplyRun (a : Nat) (vs : List Word) (s : State) : RegSteps s (applyRun a vs s) := by
  induction vs generalizing a s with
  | nil => exact .refl s
  | cons v vs ih =>
    rw [applyRun, applyWrite_eq_written]
    exact (RegSteps.write a v (.refl s)).trans (ih (a + 1) _)

/-- How an instruction of this unit address can end when it answers a next state: after work on the register file either
nothing is sent, or one response of this block, or one exception; a broadcast sends nothing. -/
inductive ExecEnds (unit : Byte) (s : State) : State → Prop where
  | silent {u : State} (h : RegSteps s u) : ExecEnds unit s u
  | response {u : State} (rest : List Byte) (h : RegSteps s u) (hu : unit ≠ 0x00#8)
      (hl : (s.unitAddr :: rest).length + 2 ≤ txMax) : ExecEnds unit s (sent (s.unitAddr :: rest) u)
  | exception (function : Byte) (code : ExcCode) (hu : unit ≠ 0x00#8) : ExecEnds unit s (excepted function code s)

theorem ExecEnds.ofRaise {unit fc : Byte} {code : ExcCode} {s t : State} (h : raiseExc unit fc code s = .next t) :
    ExecEnds unit s t := by
  obtain rfl := raiseExc_eq_next h
  unfold raised
  split
  · exact .silent (.refl s)
  · rename_i hu
    exact .exception _ _ hu

theorem ExecEnds.ofRespond {unit : Byte} {rest : List Byte} {s u t : State} (hs : RegSteps s u) (hu : unit ≠ 0x00#8)
    (h : respond (s.unitAddr :: rest) u = .next t) : ExecEnds unit s t := by
  obtain ⟨rfl, hl, -⟩ := respond_eq_next h
  exact .response rest hs hu hl

theorem ExecEnds.ofAnswer {unit : Byte} {rest : List Byte} {s u t : State} (hs : RegSteps s u)
    (h : answerWrite unit (s.unitAddr :: rest) u = .next t) : ExecEnds unit s t := by
  unfold answerWrite at h
  split at h
  · obtain rfl := Host.Outcome.next.inj h
    exact .silent hs
  · rename_i hu
    exact .ofRespond hs hu h

theorem ExecEnds.ofUnicast {unit : Byte} {s t : State} {k : Result State} (h : unicastOnly unit s k = .next t)
    (hk : unit ≠ 0x00#8 → k = .next t → ExecEnds unit s t) : ExecEnds unit s t := by
  unfold unicastOnly at h
  split at h
  · obtain rfl := Host.Outcome.next.inj h
    exact .silent (.refl _)
  · rename_i hu
    exact hk hu h

theorem ownResponse_iff {unit : Byte} {s : State} :
    ownResponse unit s = true ↔ unit = s.unitAddr ∧ unit ≠ 0x00#8 := by
  simp [ownResponse]

theorem ExecEnds.ofEmit {unit : Byte} {rest : List Byte} {s t : State}
    (h : emitResponse unit (unit :: rest) s = .next t) : ExecEnds unit s t := by
  unfold emitResponse at h
  split at h
  · rename_i ho
    obtain ⟨hs, hu⟩ := ownResponse_iff.mp ho
    exact .ofRespond (.refl s) hu (hs ▸ h)
  · obtain rfl := Host.Outcome.next.inj h
    exact .silent (.refl _)

theorem ExecEnds.ofRead {unit fc : Byte} {bank : Bank} {ops : TwoFields} {s t : State} (hu : unit ≠ 0x00#8)
    (h : readFunction fc bank ops unit s = .next t) : ExecEnds unit s t := by
  unfold readFunction at h
  split at h
  · exact .ofRaise h
  · split at h
    · rename_i run hr
      obtain ⟨⟨vs, u⟩, h1, h2⟩ := andThen_eq_next.mp h
      have hs := RegSteps.ofRegRead hr h1
      have hua : u.unitAddr = s.unitAddr := hs.regFrame.unitAddr
      exact .ofRespond hs hu (hua ▸ h2)
    · exact .ofRaise h

/-- Every instruction that answers a next state ends in one of these ways. -/
theorem exec_cases {i : Instr} {s t : State} (h : exec i s = .next t) : ExecEnds i.unit s t := by
  cases i with
  | rdh unit ops => exact .ofUnicast h fun hu hk => .ofRead hu hk
  | rdi unit ops => exact .ofUnicast h fun hu hk => .ofRead hu hk
  | wrs unit ops =>
    simp only [exec, execWrs] at h
    split at h
    · exact .ofRaise h
    · split at h
      · exact .ofRaise h
      · exact .ofRaise h
      · rw [applyWrite_eq_written] at h
        exact .ofAnswer (.write _ _ (.refl s)) h
  | wrm unit ops =>
    simp only [exec, execWrm] at h
    split at h
    · exact .ofRaise h
    · split at h
      · exact .ofRaise h
      · exact .ofRaise h
      · exact .ofAnswer (.ofApplyRun _ _ s) h
  | rid unit payload =>
    refine .ofUnicast h fun hu hk => ?_
    split at hk
    · exact .ofRespond (.refl s) hu hk
    · exact .ofRaise hk
  | vid unit payload =>
    refine .ofUnicast h fun hu hk => ?_
    split at hk
    · rw [applyWrite_eq_written] at hk
      exact .ofRespond (.write _ _ (.refl s)) hu hk
    · exact .ofRaise hk
  | rdhR unit values => exact .ofEmit h
  | rdiR unit values => exact .ofEmit h
  | wrsR unit addr value => exact .ofEmit h
  | wrmR unit start count => exact .ofEmit h
  | ridR unit ident => exact .ofEmit h
  | vidR unit ident => exact .ofEmit h
  | exc unit function code =>
    simp only [exec, execExc] at h
    split at h
    · rename_i ho
      obtain ⟨rfl, -⟩ := takeException_eq_next h
      exact .exception _ _ (ownResponse_iff.mp ho).2
    · obtain rfl := Host.Outcome.next.inj h
      exact .silent (.refl _)
  | unknown unit function payload => exact .ofRaise h

end Sys2Proof.Machine
end

