-- ==== Sys2Proof/Laws/Operands.lean ====
section
/-! SUPPORT. What the checks on a request's operands answer, said once each (46_regmap R218, R220, R221; 44_write R196). -/

namespace Sys2Proof.Machine

theorem runInBank_eq_false {bank : Bank} {start count : Word}
    (h : count.toNat < 1 ∨ 32 < count.toNat ∨ bank.size < start.toNat + count.toNat) :
    runInBank bank start count = false := by
  simp [runInBank, maxRegs]
  omega

theorem runInBank_eq_true {bank : Bank} {start count : Word} (h1 : 1 ≤ count.toNat) (h2 : count.toNat ≤ 32)
    (h3 : start.toNat + count.toNat ≤ bank.size) : runInBank bank start count = true := by
  simp [runInBank, maxRegs, h1, h2, h3]

theorem valueAllowed_iff {c : Config} {a : Nat} {v : Word} {r : RegAttr} (h : c.attr .holding a = some r) :
    valueAllowed c a v ↔ policyAccepts r.policy v = true := by
  simp only [valueAllowed, h, Option.some.injEq, exists_eq_left']
  cases r.policy <;> simp [policyAccepts, BitVec.le_def]

/-- `REG.CHECKWRITE` in its three cases (46_regmap R220, R221). -/
theorem checkWrite_iff (c : Config) (a : Nat) (v : Word) :
    (checkWrite c a v = .addressError ↔ ¬ writable c a) ∧
    (checkWrite c a v = .valueError ↔ writable c a ∧ ¬ valueAllowed c a v) ∧
    (checkWrite c a v = .ok ↔ writable c a ∧ valueAllowed c a v) := by
  unfold checkWrite
  cases h : c.attr .holding a with
  | none => simp [writable, h]
  | some r =>
    rw [valueAllowed_iff h]
    have hw : writable c a ↔ r.access = .rw := by simp [writable, h]
    rw [hw]
    by_cases h1 : r.access = .rw <;> by_cases h2 : policyAccepts r.policy v = true <;> simp [h1, h2]

/-- A register the bus may write exists (46_regmap R220). -/
theorem lt_of_writable {c : Config} {a : Nat} (h : writable c a) : a < holdingSize := by
  by_contra hn
  obtain ⟨r, hr, -⟩ := h
  have : c.attr .holding a = none := Vector.getElem?_eq_none (Nat.le_of_not_lt hn)
  simp [this] at hr

/-- `REG.CHECKWRITE` over a run: addresses first, then values (44_write R196). -/
theorem checkRun_iff (c : Config) (a : Nat) (vs : List Word) :
    (checkRun c a vs = .addressError ↔ ∃ i < vs.length, ¬ writable c (a + i)) ∧
    (checkRun c a vs = .ok ↔ ∀ i v, vs[i]? = some v → writable c (a + i) ∧ valueAllowed c (a + i) v) := by
  have m1 : RegResult.addressError ∈ ((List.range vs.length).map fun i => checkWrite c (a + i) (vs.getD i 0#16)) ↔
      ∃ i < vs.length, ¬ writable c (a + i) := by
    simp only [List.mem_map, List.mem_range]
    exact exists_congr fun i => and_congr_right fun _ => (checkWrite_iff _ _ _).1
  have m2 : RegResult.valueError ∈ ((List.range vs.length).map fun i => checkWrite c (a + i) (vs.getD i 0#16)) ↔
      ∃ i < vs.length, writable c (a + i) ∧ ¬ valueAllowed c (a + i) (vs.getD i 0#16) := by
    simp only [List.mem_map, List.mem_range]
    exact exists_congr fun i => and_congr_right fun _ => (checkWrite_iff _ _ _).2.1
  have key : (∀ i v, vs[i]? = some v → writable c (a + i) ∧ valueAllowed c (a + i) v) ↔
      (∀ i < vs.length, writable c (a + i)) ∧ ∀ i < vs.length, valueAllowed c (a + i) (vs.getD i 0#16) := by
    constructor
    · intro h
      refine ⟨fun i hi => (h i vs[i] (by simp [hi])).1, fun i hi => ?_⟩
      simpa [List.getD_eq_getElem?_getD, hi] using (h i vs[i] (by simp [hi])).2
    · rintro ⟨h1, h2⟩ i v hv
      obtain ⟨hi, rfl⟩ := List.getElem?_eq_some_iff.mp hv
      exact ⟨h1 i hi, by simpa [List.getD_eq_getElem?_getD, hi] using h2 i hi⟩
  rw [key]
  unfold checkRun
  dsimp only
  by_cases hA : RegResult.addressError ∈ ((List.range vs.length).map fun i => checkWrite c (a + i) (vs.getD i 0#16))
  · rw [if_pos (List.contains_iff_mem.mpr hA)]
    obtain ⟨i, hi, hn⟩ := m1.mp hA
    exact ⟨⟨fun _ => ⟨i, hi, hn⟩, fun _ => rfl⟩, ⟨(fun h => by cases h), fun h => absurd (h.1 i hi) hn⟩⟩
  · rw [if_neg fun h => hA (List.contains_iff_mem.mp h)]
    have hA' : ∀ i < vs.length, writable c (a + i) := by simpa using fun h => hA (m1.mpr h)
    by_cases hV : RegResult.valueError ∈ ((List.range vs.length).map fun i => checkWrite c (a + i) (vs.getD i 0#16))
    · rw [if_pos (List.contains_iff_mem.mpr hV)]
      obtain ⟨i, hi, hn, hm⟩ := m2.mp hV
      exact ⟨⟨(fun h => by cases h), fun ⟨i, hi, h⟩ => absurd (hA' i hi) h⟩,
        ⟨(fun h => by cases h), fun h => absurd (h.2 i hi) hm⟩⟩
    · rw [if_neg fun h => hV (List.contains_iff_mem.mp h)]
      refine ⟨⟨(fun h => by cases h), fun ⟨i, hi, h⟩ => absurd (hA' i hi) h⟩,
        ⟨fun _ => ⟨hA', fun i hi => ?_⟩, fun _ => rfl⟩⟩
      by_contra hn
      exact hV (m2.mpr ⟨i, hi, hA' i hi, hn⟩)

end Sys2Proof.Machine
end

