-- ==== Sys2Proof/Laws/PerInstr.lean ====
section
/-! SUPPORT. Statements for all instructions, one lemma per constructor: the frame of a well-formed instruction holds its
four fixed bytes and fits its buffer (30_encoding R90, R91, R116). -/

namespace Sys2Proof.Laws.FrameFits

open Sys2Proof Sys2Proof.Machine

/-- At least 4 bytes, at most 69, and at most 64 for a request. -/
def Statement (i : Instr) : Prop :=
  i.wf = true → 4 ≤ (encode i).length ∧ (encode i).length ≤ txMax ∧ (i.isRequest = true → (encode i).length ≤ rxBuf)

/-- The same through the payload's length. -/
theorem ofPayload {i : Instr}
    (h : i.wf = true → i.payload.length ≤ 65 ∧ (i.isRequest = true → i.payload.length ≤ 60)) : Statement i := by
  intro hw
  obtain ⟨h1, h2⟩ := h hw
  rw [length_encode]
  exact ⟨by omega, by simp only [txMax]; omega, fun hr => by have := h2 hr; simp only [rxBuf]; omega⟩

theorem twoFields {ops : TwoFields} (h : ops.wf = true) : ops.bytes.length ≤ 60 := by
  cases ops with
  | fields a b => simp [TwoFields.bytes]
  | badLength p => simp [TwoFields.wf, payloadFits, rxBuf] at h; simpa [TwoFields.bytes] using h.2

theorem writeRun {ops : WriteRun} (h : ops.wf = true) : ops.bytes.length ≤ 60 := by
  cases ops with
  | run start count n data => simp [WriteRun.wf, rxBuf] at h; simp [WriteRun.bytes]; omega
  | short p => simp [WriteRun.wf] at h; simp [WriteRun.bytes]; omega

theorem values {u : Byte} {vs : List Word} (h : (responder u && valuesFit vs) = true) : 2 * vs.length ≤ 64 := by
  simp only [valuesFit, maxRegs, Bool.and_eq_true, decide_eq_true_eq] at h
  omega

theorem ident {u : Byte} {d : List Byte} (h : (responder u && identFits d) = true) : d.length ≤ 64 := by
  simp only [identFits, Bool.and_eq_true, decide_eq_true_eq] at h
  exact h.2

theorem rdh (unit : Byte) (ops : TwoFields) : Statement (.rdh unit ops) :=
  ofPayload fun h => ⟨by have := twoFields h; simp only [Instr.payload]; omega, fun _ => twoFields h⟩

theorem rdi (unit : Byte) (ops : TwoFields) : Statement (.rdi unit ops) :=
  ofPayload fun h => ⟨by have := twoFields h; simp only [Instr.payload]; omega, fun _ => twoFields h⟩

theorem wrs (unit : Byte) (ops : TwoFields) : Statement (.wrs unit ops) :=
  ofPayload fun h => ⟨by have := twoFields h; simp only [Instr.payload]; omega, fun _ => twoFields h⟩

theorem wrm (unit : Byte) (ops : WriteRun) : Statement (.wrm unit ops) :=
  ofPayload fun h => ⟨by have := writeRun h; simp only [Instr.payload]; omega, fun _ => writeRun h⟩

theorem rid (unit : Byte) (payload : List Byte) : Statement (.rid unit payload) :=
  ofPayload fun h => by simp [Instr.wf, payloadFits, rxBuf] at h; simp [Instr.payload]; omega

theorem vid (unit : Byte) (payload : List Byte) : Statement (.vid unit payload) :=
  ofPayload fun h => by simp [Instr.wf, payloadFits, rxBuf] at h; simp [Instr.payload]; omega

theorem rdhR (unit : Byte) (vs : List Word) : Statement (.rdhR unit vs) :=
  ofPayload fun h => by have := values h; simp [Instr.payload, Instr.isRequest]; omega

theorem rdiR (unit : Byte) (vs : List Word) : Statement (.rdiR unit vs) :=
  ofPayload fun h => by have := values h; simp [Instr.payload, Instr.isRequest]; omega

theorem wrsR (unit : Byte) (addr value : Word) : Statement (.wrsR unit addr value) :=
  ofPayload fun _ => by simp [Instr.payload, Instr.isRequest]

theorem wrmR (unit : Byte) (start count : Word) : Statement (.wrmR unit start count) :=
  ofPayload fun _ => by simp [Instr.payload, Instr.isRequest]

theorem ridR (unit : Byte) (d : List Byte) : Statement (.ridR unit d) :=
  ofPayload fun h => by have := ident h; simp [Instr.payload, Instr.isRequest]; omega

theorem vidR (unit : Byte) (d : List Byte) : Statement (.vidR unit d) :=
  ofPayload fun h => by have := ident h; simp [Instr.payload, Instr.isRequest]; omega

theorem exc (unit function : Byte) (code : ExcCode) : Statement (.exc unit function code) :=
  ofPayload fun _ => by simp [Instr.payload, Instr.isRequest]

theorem unknown (unit function : Byte) (payload : List Byte) : Statement (.unknown unit function payload) :=
  ofPayload fun h => by simp [Instr.wf, payloadFits, rxBuf] at h; simp [Instr.payload]; omega

end Sys2Proof.Laws.FrameFits
end

