-- ==== Sys2Proof/Laws/Step.lean ====
section
/-! SUPPORT. What a step can do, said once: `step_cases`, and under it what a cycle and the dispatcher can do. -/

namespace Sys2Proof.Machine

/-- How the dispatcher can end on a closed frame when it answers a next state (42_dispatcher R171). -/
inductive DspEnds (s : State) : State → Prop where
  | overflow (h : s.rxOvf = true) : DspEnds s (s.countEvent .overrun)
  | short (h : s.rxOvf = false) (hd : decode s.frame = .error .tooShort) : DspEnds s s
  | corrupt (h : s.rxOvf = false) (hd : decode s.frame = .error .badChecksum) :
      DspEnds s ((runCrcCheck s.frame s).countEvent .crcErr)
  | foreign {i : Instr} (h : s.rxOvf = false) (hd : decode s.frame = .ok i) (ha : addressed i.unit s = false) :
      DspEnds s (runCrcCheck s.frame s)
  | run {i : Instr} {t : State} (h : s.rxOvf = false) (hd : decode s.frame = .ok i) (ha : addressed i.unit s = true)
      (he : exec i ((runCrcCheck s.frame s).countEvent .framesOk) = .next t) : DspEnds s t

/-- A frame the request decoder rejects is short or corrupt. -/
theorem decode_error {f : List Byte} {e : DecodeError} (h : decode f = .error e) : e = .tooShort ∨ e = .badChecksum := by
  unfold decode at h
  split at h
  · simp at h
  · rename_i e' he
    obtain rfl : e' = e := Except.error.inj h
    unfold checkFrame at he
    split at he
    · split at he
      · exact .inl (Except.error.inj he).symm
      · split at he
        · simp at he
        · exact .inr (Except.error.inj he).symm
    · exact .inl (Except.error.inj he).symm

theorem dspProcess_cases {s t : State} (h : dspProcess s = .next t) : DspEnds s t := by
  unfold dspProcess at h
  simp only at h
  split at h
  · rename_i ho
    obtain rfl := Host.Outcome.next.inj h
    exact .overflow ho
  · rename_i ho
    have ho : s.rxOvf = false := by simpa using ho
    split at h
    · rename_i i hd
      split at h
      · rename_i ha
        exact .run ho hd ha h
      · rename_i ha
        obtain rfl := Host.Outcome.next.inj h
        exact .foreign ho hd (by simpa [addressed] using ha)
    · rename_i hd
      obtain rfl := Host.Outcome.next.inj h
      exact .corrupt ho hd
    · rename_i e hne hd
      obtain rfl := Host.Outcome.next.inj h
      rcases decode_error hd with rfl | rfl
      · exact .short ho hd
      · exact absurd rfl hne

/-! ## The dispatcher and the cycle, case by case -/

theorem dspProcess_overflow {s : State} (h : s.rxOvf = true) : dspProcess s = .next (s.countEvent .overrun) := by
  simp [dspProcess, h]

theorem dspProcess_short {s : State} (h : s.rxOvf = false) (hd : decode s.frame = .error .tooShort) :
    dspProcess s = .next s := by
  simp [dspProcess, h, hd]

theorem dspProcess_corrupt {s : State} (h : s.rxOvf = false) (hd : decode s.frame = .error .badChecksum) :
    dspProcess s = .next ((runCrcCheck s.frame s).countEvent .crcErr) := by
  simp [dspProcess, h, hd]

theorem dspProcess_foreign {s : State} {i : Instr} (h : s.rxOvf = false) (hd : decode s.frame = .ok i)
    (ha : addressed i.unit s = false) : dspProcess s = .next (runCrcCheck s.frame s) := by
  have ha' : addressed i.unit (runCrcCheck s.frame s) = false := ha
  simp [dspProcess, h, hd, ha']

theorem dspProcess_run {s : State} {i : Instr} (h : s.rxOvf = false) (hd : decode s.frame = .ok i)
    (ha : addressed i.unit s = true) :
    dspProcess s = exec i ((runCrcCheck s.frame s).countEvent .framesOk) := by
  have ha' : addressed i.unit (runCrcCheck s.frame s) = true := ha
  simp [dspProcess, h, hd, ha']

theorem cycleBody_append {now : Time} {s : State} (h : s.uartQ ≠ []) : cycleBody now s = .next (frmAppend now s) := by
  rw [cycleBody, if_neg h]

theorem cycleBody_quiet {now : Time} {s : State} (h : s.uartQ = []) (hs : silenceOver now s = false) :
    cycleBody now s = .next s := by
  rw [cycleBody, if_pos h, if_neg (by rw [hs]; exact Bool.false_ne_true)]

theorem cycleBody_close {now : Time} {s : State} (h : s.uartQ = []) (hs : silenceOver now s = true) :
    cycleBody now s = andThen (dspProcess { s with frmState := .ready }) fun s => .next (frmClear s) := by
  rw [cycleBody, if_pos h, if_pos hs]

/-! ## Storing received bytes -/

@[simp] theorem length_frame (s : State) : s.frame.length = s.rxLen := by simp [State.frame]

/-- What storing bytes does: the frame grows up to 64 bytes, the rest is lost and marked (41_transport R144). -/
structure Stored (bs : List Byte) (s t : State) : Prop where
  frame : t.frame = (s.frame ++ bs).take rxBuf
  rxLen : t.rxLen = min rxBuf (s.rxLen + bs.length)
  rxOvf : t.rxOvf = (s.rxOvf || decide (rxBuf < s.rxLen + bs.length))
  rest : t = { s with rx := t.rx, rxLen := t.rxLen, rxOvf := t.rxOvf }

theorem frame_store (b : Byte) (s : State) :
    State.frame { s with rx := s.rx.write s.rxLen b, rxLen := s.rxLen + 1 } = s.frame ++ [b] := by
  simp only [State.frame]
  rw [Memory.readAll_succ, Memory.readAll_write_before _ _ _ _ _ (by omega)]
  simp [Memory.read_write]

theorem storeBytes_stored (bs : List Byte) (s : State) (h : s.rxLen ≤ rxBuf) : Stored bs s (storeBytes bs s) := by
  induction bs generalizing s with
  | nil =>
    refine ⟨?_, by simp [storeBytes, h], by simp [storeBytes, h], rfl⟩
    rw [storeBytes, List.append_nil, List.take_of_length_le (by rw [length_frame]; exact h)]
  | cons b bs ih =>
    rw [storeBytes]
    split
    · have hs := ih { s with rx := s.rx.write s.rxLen b, rxLen := s.rxLen + 1 } (by simp only; omega)
      refine ⟨?_, ?_, ?_, by rw [hs.rest]⟩
      · rw [hs.frame, frame_store, List.append_assoc, List.singleton_append]
      · rw [hs.rxLen]; simp only [List.length_cons]; omega
      · rw [hs.rxOvf]; simp only [List.length_cons]; congr 2; simp only [eq_iff_iff]; omega
    · have he : s.rxLen = rxBuf := by omega
      have hs := ih { s with rxOvf := true } h
      have hf : State.frame { s with rxOvf := true } = s.frame := rfl
      refine ⟨?_, ?_, ?_, by rw [hs.rest]⟩
      · rw [hs.frame, hf, List.take_append_of_le_length, List.take_append_of_le_length] <;> rw [length_frame, he]
      · rw [hs.rxLen]; simp [he]
      · rw [hs.rxOvf]; simp [he]

/-- The receive buffer keeps its form and its size. -/
theorem storeBytes_form (bs : List Byte) (s : State) (h : s.rx.wf ∧ s.rx.within rxBuf) :
    (storeBytes bs s).rx.wf ∧ (storeBytes bs s).rx.within rxBuf := by
  induction bs generalizing s with
  | nil => exact h
  | cons b bs ih =>
    rw [storeBytes]
    split
    · rename_i hl
      exact ih _ ⟨Memory.wf_write h.1 _ _, Memory.within_write h.2 hl _⟩
    · exact ih _ h

/-- The anomaly test changes nothing, or counts one anomaly (41_transport R142). -/
theorem anomalyTest_cases (now : Time) (s : State) : anomalyTest now s = s ∨ anomalyTest now s = s.countEvent .anom := by
  unfold anomalyTest
  split
  · exact .inr rfl
  · exact .inl rfl

/-! ## What a cycle and a step can end in -/

/-- How a cycle can end when it answers a next state (41_transport R141). -/
inductive CycleEnds (now : Time) (s : State) : State → Prop where
  | append (h : s.uartQ ≠ []) : CycleEnds now s (frmAppend now s)
  | quiet (h : s.uartQ = []) (hs : silenceOver now s = false) : CycleEnds now s s
  | close {t : State} (h : s.uartQ = []) (hs : silenceOver now s = true)
      (hd : DspEnds { s with frmState := .ready } t) : CycleEnds now s (frmClear t)

theorem cycleBody_cases {now : Time} {s t : State} (h : cycleBody now s = .next t) : CycleEnds now s t := by
  unfold cycleBody at h
  split at h
  · rename_i hq
    split at h
    · rename_i hs
      obtain ⟨u, h1, h2⟩ := andThen_eq_next.mp h
      obtain rfl := Host.Outcome.next.inj h2
      exact .close hq hs (dspProcess_cases h1)
    · rename_i hs
      obtain rfl := Host.Outcome.next.inj h
      exact .quiet hq (by simpa using hs)
  · rename_i hq
    obtain rfl := Host.Outcome.next.inj h
    exact .append hq

/-- How a step can end when it answers a next state (00_scope R12). -/
inductive StepEnds (s : State) : State → Prop where
  | wait (h : s.inbox = []) : StepEnds s s
  | rx {b : Byte} {later : List Event} (h : s.inbox = .rx b :: later) :
      StepEnds s (receive b { s with inbox := later })
  | cycle {now : Time} {between : List (List PortEvent)} {later : List Event} {t : State}
      (h : s.inbox = .cycle now between :: later)
      (hc : CycleEnds now { s with inbox := later, sched := between } t) : StepEnds s (returnSched t)
  | port {e : PortEvent} {later : List Event} {t : State} (h : s.inbox = .port e :: later)
      (hp : portStep e { s with inbox := later } = .next t) : StepEnds s t
  | cfg {unit : Byte} {later : List Event} (h : s.inbox = .cfg unit :: later) :
      StepEnds s { s with inbox := later, unitAddr := unit }
  | answer {a : Answer} {later : List Event} {e : Event} (h : s.inbox = e :: later)
      (he : (∃ x, e = .wscRead x) ∨ ∃ b x, e = .portRead b x) :
      StepEnds s { s with inbox := later, answers := s.answers ++ [a] }

/-- A step that answers a next state: its configuration is admitted, and it ends in one of these ways. -/
theorem step_cases {s t : State} (h : step s = .next t) : admittedConfig s.cfg = true ∧ StepEnds s t := by
  unfold step runStep at h
  split at h
  · rename_i hc
    refine ⟨hc, ?_⟩
    split at h
    · rename_i hi
      obtain rfl := Host.Outcome.next.inj h
      exact .wait hi
    · rename_i e later hi
      cases e with
      | rx b =>
        obtain rfl := Host.Outcome.next.inj h
        exact .rx hi
      | cycle now between =>
        obtain ⟨u, h1, h2⟩ := andThen_eq_next.mp h
        obtain rfl := Host.Outcome.next.inj h2
        exact .cycle hi (cycleBody_cases h1)
      | port e => exact .port hi h
      | cfg unit =>
        obtain rfl := Host.Outcome.next.inj h
        exact .cfg hi
      | wscRead a =>
        simp only [takeEvent, wscRead] at h
        split at h
        · obtain rfl := Host.Outcome.next.inj h
          exact .answer hi (.inl ⟨a, rfl⟩)
        · simp at h
      | portRead bank a =>
        simp only [takeEvent, portRead] at h
        split at h
        · obtain rfl := Host.Outcome.next.inj h
          exact .answer hi (.inr ⟨bank, a, rfl⟩)
        · simp at h
  · simp at h

/-- A step with an admitted configuration takes the first event. -/
theorem step_eq {s : State} {e : Event} {later : List Event} (hc : admittedConfig s.cfg = true)
    (h : s.inbox = e :: later) : step s = takeEvent e { s with inbox := later } := by
  rw [step, runStep, if_pos hc, h]

end Sys2Proof.Machine
end

