-- ==== Sys2Proof/Tests/Slice0.lean ====
section
/-! SUPPORT. Small checks: ill-formed frames are refused, frames written out in the spec decode to what they stand for, one
step per instruction with the spec's expected bytes, and for every statement a state that meets its hypotheses. Expected
values come from 95_test_vectors and from the rules, never from the model. -/

set_option Elab.async false

open Sys2Proof Sys2Proof.Machine

namespace Sys2Proof.Tests

/-! ## Helpers -/

/-- What a next state must satisfy. -/
def nextIs (o : Result State) (p : State → Bool) : Bool :=
  match o with
  | .next t => p t
  | .fault _ => false
  | .refused _ => false

/-- The outcome is this refusal. -/
def refusedWith (o : Result State) (r : Refusal) : Bool :=
  match o with
  | .refused x => x == r
  | _ => false

/-- The outcome is this fault. -/
def faultIs (o : Result State) (f : Fault) : Bool :=
  match o with
  | .fault x => x == f
  | _ => false

/-- The request decoder gives this instruction. -/
def decodesTo (f : List Byte) (i : Instr) : Bool :=
  match decode f with
  | .ok j => j == i
  | .error _ => false

/-- The response decoder gives this instruction. -/
def answersTo (f : List Byte) (i : Instr) : Bool :=
  match decodeResponse f with
  | .ok j => j == i
  | .error _ => false

/-- The request decoder rejects with this reason. -/
def rejects (f : List Byte) (e : DecodeError) : Bool :=
  match decode f with
  | .ok _ => false
  | .error x => x == e

/-- Unit 16 of 95_test_vectors section 1, idle. -/
def unit16 : State := { State.reset with unitAddr := 0x10#8 }

/-- Unit 16 with one event to take. -/
def facing (e : Event) : State := { unit16 with inbox := [e] }

/-- Unit 16 with a received frame whose closing cycle comes next (95_test_vectors section 1, "deliver"). -/
def received (frame : List Byte) : State := withFrame unit16 0x10#8 frame

/-- Unit 16, accumulating since 100 microseconds, with these unread bytes and this cycle next (95 section 3.2). -/
def since100 (uart : List Byte) (now : Time) : State :=
  { received [0x10#8, 0x04#8] with uartQ := uart, lastClk := 100, inbox := [.cycle now []] }

/-- Unit 16 with the wind window of 95_test_vectors section 3.7, line 6, and one sample next. -/
def windAt (w : Window) (raw : Word) (t : Time) : State :=
  { facing (.port (.sample 0 raw t)) with win := [w] }

/-- The frame answered, when exactly one was. -/
def answer (s : State) (frame : List Byte) : Bool := nextIs (step s) fun t => t.txLog == [frame]

/-- Nothing was answered. -/
def silent (s : State) : Bool := nextIs (step s) fun t => t.txLog == []

/-! ## Ill-formed terms -/

/-- A payload of 4 bytes is the right length (30_encoding R96). -/
theorem test_wf_rdh_length4 : (Instr.rdh 0x10#8 (.badLength (List.replicate 4 0x00#8))).wf = false :=
    by decide +kernel

/-- 65 bytes do not fit the receive buffer (30_encoding R91). -/
theorem test_wf_rdi_too_long : (Instr.rdi 0x10#8 (.badLength (List.replicate 61 0x00#8))).wf = false :=
    by decide +kernel

theorem test_wf_wrs_length4 : (Instr.wrs 0x10#8 (.badLength (List.replicate 4 0x00#8))).wf = false :=
    by decide +kernel

/-- 65 bytes (44_write R200). -/
theorem test_wf_wrm_data56 : (Instr.wrm 0x10#8 (.run 4#16 28#16 56#8 (List.replicate 56 0x00#8))).wf = false :=
    by decide +kernel

/-- 9 bytes are not short (44_write R195). -/
theorem test_wf_wrm_short5 : (Instr.wrm 0x10#8 (.short (List.replicate 5 0x00#8))).wf = false := by decide +kernel

theorem test_wf_rid_too_long : (Instr.rid 0x10#8 (List.replicate 61 0x00#8)).wf = false := by decide +kernel

theorem test_wf_vid_too_long : (Instr.vid 0x10#8 (List.replicate 61 0x00#8)).wf = false := by decide +kernel

theorem test_wf_rdhR_no_value : (Instr.rdhR 0x10#8 []).wf = false := by decide +kernel

theorem test_wf_rdiR_33_values : (Instr.rdiR 0x10#8 (List.replicate 33 0#16)).wf = false := by decide +kernel

theorem test_wf_rdiR_unit_zero : (Instr.rdiR 0x00#8 [0#16]).wf = false := by decide +kernel

theorem test_wf_wrsR_unit_zero : (Instr.wrsR 0x00#8 1#16 17#16).wf = false := by decide +kernel

theorem test_wf_wrmR_unit_zero : (Instr.wrmR 0x00#8 4#16 2#16).wf = false := by decide +kernel

theorem test_wf_ridR_65_bytes : (Instr.ridR 0x10#8 (List.replicate 65 0x00#8)).wf = false := by decide +kernel

theorem test_wf_vidR_65_bytes : (Instr.vidR 0x10#8 (List.replicate 65 0x00#8)).wf = false := by decide +kernel

theorem test_wf_exc_bit7_clear : (Instr.exc 0x10#8 0x06#8 .illegalValue).wf = false := by decide +kernel

theorem test_wf_exc_unit_zero : (Instr.exc 0x00#8 0x86#8 .illegalValue).wf = false := by decide +kernel

theorem test_wf_unknown_known_code : (Instr.unknown 0x10#8 0x03#8 []).wf = false := by decide +kernel

theorem test_wf_unknown_too_long : (Instr.unknown 0x10#8 0x2B#8 (List.replicate 61 0x00#8)).wf = false :=
    by decide +kernel

/-! ## Frames of the spec (95_test_vectors sections 3.3 to 3.6) -/

theorem test_decode_rdh : decodesTo [0x10#8, 0x03#8, 0x00#8, 0x01#8, 0x00#8, 0x01#8, 0xD6#8, 0x8B#8]
    (.rdh 0x10#8 (.fields 1#16 1#16)) = true := by decide +kernel

theorem test_decode_rdi : decodesTo [0x10#8, 0x04#8, 0x00#8, 0x09#8, 0x00#8, 0x09#8, 0xE3#8, 0x4F#8]
    (.rdi 0x10#8 (.fields 9#16 9#16)) = true := by decide +kernel

theorem test_decode_wrs : decodesTo [0x10#8, 0x06#8, 0x00#8, 0x03#8, 0xA5#8, 0x5A#8, 0x81#8, 0xE0#8]
    (.wrs 0x10#8 (.fields 3#16 0xA55A#16)) = true := by decide +kernel

theorem test_decode_wrm :
    decodesTo [0x10#8, 0x10#8, 0x00#8, 0x04#8, 0x00#8, 0x02#8, 0x04#8, 0x00#8, 0x01#8, 0x00#8, 0x02#8, 0x72#8, 0x61#8]
    (.wrm 0x10#8 (.run 4#16 2#16 4#8 [0x00#8, 0x01#8, 0x00#8, 0x02#8])) = true := by decide +kernel

theorem test_decode_rid : decodesTo [0x10#8, 0x11#8, 0xCC#8, 0x7C#8]
    (.rid 0x10#8 []) = true := by decide +kernel

theorem test_decode_vid : decodesTo [0x10#8, 0x41#8, 0xCC#8, 0x40#8]
    (.vid 0x10#8 []) = true := by decide +kernel

theorem test_decode_unknown : decodesTo [0x10#8, 0x83#8, 0x4D#8, 0xD1#8]
    (.unknown 0x10#8 0x83#8 []) = true := by decide +kernel

theorem test_decode_rdh_7_bytes : decodesTo [0x10#8, 0x03#8, 0x00#8, 0x00#8, 0x00#8, 0xE5#8, 0x87#8]
    (.rdh 0x10#8 (.badLength [0x00#8, 0x00#8, 0x00#8])) = true := by decide +kernel

theorem test_decode_rdhR : answersTo [0x10#8, 0x03#8, 0x02#8, 0x00#8, 0x10#8, 0x45#8, 0x8B#8]
    (.rdhR 0x10#8 [0x0010#16]) = true := by decide +kernel

theorem test_decode_rdiR : answersTo [0x10#8, 0x04#8, 0x12#8, 0xB2#8, 0x6E#8,
      0x00#8, 0x00#8, 0x00#8, 0x00#8, 0x00#8, 0x00#8, 0x04#8, 0xE2#8, 0x01#8, 0x0E#8, 0x04#8, 0x60#8, 0x05#8, 0xC8#8, 0x05#8, 0x0F#8, 0x72#8, 0xC0#8]
    (.rdiR 0x10#8 [0xB26E#16, 0#16, 0#16, 0#16, 0x04E2#16, 0x010E#16, 0x0460#16, 0x05C8#16, 0x050F#16]) = true :=
    by decide +kernel

theorem test_decode_wrsR : answersTo [0x10#8, 0x06#8, 0x00#8, 0x01#8, 0x00#8, 0x11#8, 0x1B#8, 0x47#8]
    (.wrsR 0x10#8 1#16 17#16) = true := by decide +kernel

theorem test_decode_wrmR : answersTo [0x10#8, 0x10#8, 0x00#8, 0x04#8, 0x00#8, 0x02#8, 0x03#8, 0x48#8]
    (.wrmR 0x10#8 4#16 2#16) = true := by decide +kernel

theorem test_decode_ridR :
    answersTo [0x10#8, 0x11#8, 0x08#8, 0x12#8, 0x34#8, 0x00#8, 0x01#8, 0x01#8, 0x00#8, 0x02#8, 0x03#8, 0xED#8, 0xFF#8]
    (.ridR 0x10#8 [0x12#8, 0x34#8, 0x00#8, 0x01#8, 0x01#8, 0x00#8, 0x02#8, 0x03#8]) = true := by decide +kernel

theorem test_decode_vidR :
    answersTo [0x10#8, 0x41#8, 0x08#8, 0x12#8, 0x34#8, 0x00#8, 0x01#8, 0x01#8, 0x00#8, 0x02#8, 0x03#8, 0xEE#8, 0xBE#8]
    (.vidR 0x10#8 [0x12#8, 0x34#8, 0x00#8, 0x01#8, 0x01#8, 0x00#8, 0x02#8, 0x03#8]) = true := by decide +kernel

theorem test_decode_exc : answersTo [0x10#8, 0x86#8, 0x03#8, 0x52#8, 0x64#8]
    (.exc 0x10#8 0x86#8 .illegalValue) = true := by decide +kernel

theorem test_decode_bad_checksum :
    rejects [0x10#8, 0x04#8, 0x00#8, 0x09#8, 0x00#8, 0x09#8, 0xE3#8, 0x4E#8] .badChecksum = true :=
    by decide +kernel

theorem test_decode_too_short : rejects [0x10#8, 0x11#8, 0xCC#8] .tooShort = true := by decide +kernel

/-- Table words: the function code, the payload zero (log 11). -/
theorem test_table_word : decodeTableWord 8 0x11 = some (.rid 0x10#8 []) ∧ decodeTableWord 8 0x10 =
    some (.wrm 0x10#8 (.run 0#16 0#16 0#8 [])) := by decide +kernel

/-! ## CRC and time (95_test_vectors sections 3.1, 3.2) -/

theorem test_crc_check_string :
    crcOver [0x31#8, 0x32#8, 0x33#8, 0x34#8, 0x35#8, 0x36#8, 0x37#8, 0x38#8, 0x39#8] = 0x4B37#16 :=
    by decide +kernel

theorem test_crc_one_byte : crcByte 0xFFFF#16 0x01#8 = 0x807E#16 := by decide +kernel

theorem test_thresholds_115200 : (threshold15 { Config.reference with baud := 115200, bitsPerChar := 11 },
    threshold35 { Config.reference with baud := 115200, bitsPerChar := 11 }) = (144, 335) := by decide +kernel

/-- At its width a counter stays at its greatest value (00_scope R13, 47_stats R245). -/
theorem test_counter_saturates :
    satInc 16 0xFFFE = 0xFFFF ∧ satInc 16 0xFFFF = 0xFFFF ∧ satInc 32 0xFFFF = 0x10000 :=
    by decide +kernel

/-- A 16-bit clock wraps at 65536 (00_scope R11, 41_transport R148). -/
theorem test_clock_of_another_width :
    elapsed { Config.reference with timeW := 16 } 5 0xFFFE = 7 ∧ clockValue { Config.reference with timeW := 16 } 65541 = 5 :=
    by decide +kernel

/-- An input register whose range is empty is no entry of `REGMAP` (46_regmap R216). -/
theorem test_empty_range_not_admitted :
    RegAttr.inputOk ⟨.ro, false, .range 2#16 1#16, .role .sensor, .volatile, 1, 0#16⟩ = false :=
    by decide +kernel

/-! ## FRM (95_test_vectors section 3.2) -/

/-- 1563 is not longer than `T15`. -/
theorem test_append_at_threshold :
    nextIs (step (since100 [0x00#8] 1663)) (fun t => t.diag.anom == 0 && t.rxLen == 3) = true :=
    by decide +kernel

theorem test_append_beyond_threshold :
    nextIs (step (since100 [0x00#8] 1664)) (fun t => t.diag.anom == 1 && t.lastClk == 1664) = true :=
    by decide +kernel

/-- 3646 is not longer than `T35`. -/
theorem test_silence_at_threshold :
    nextIs (step (since100 [] 3746)) (fun t => t.frmState == .accumulating && t.rxLen == 2) = true :=
    by decide +kernel

theorem test_silence_beyond_threshold :
    nextIs (step (since100 [] 3747)) (fun t => t.frmState == .idle && t.rxLen == 0) = true :=
    by decide +kernel

theorem test_silence_over_clock_wrap : nextIs (step { since100 [] 0x00000D3F with lastClk := 0xFFFFFF00 })
    (fun t => t.frmState == .idle) = true := by decide +kernel

theorem test_last_byte_fits : nextIs (step { received (List.replicate 63 0x00#8) with
      uartQ := [0xAA#8, 0xBB#8], inbox := [.cycle 1 []] })
    (fun t => t.rxLen == 64 && t.rxOvf && t.rx.read 63 == 0xAA#8) = true := by decide +kernel

/-! ## One step per instruction (95_test_vectors sections 3.3 to 3.6) -/

theorem test_rdh_answers : answer (received [0x10#8, 0x03#8, 0x00#8, 0x01#8, 0x00#8, 0x01#8, 0xD6#8, 0x8B#8])
    [0x10#8, 0x03#8, 0x02#8, 0x00#8, 0x10#8, 0x45#8, 0x8B#8] = true := by decide +kernel

theorem test_rdh_33_registers : answer (received [0x10#8, 0x03#8, 0x00#8, 0x00#8, 0x00#8, 0x21#8, 0x86#8, 0x93#8])
    [0x10#8, 0x83#8, 0x02#8, 0x90#8, 0xF4#8] = true := by decide +kernel

/-- The input registers of program P1 (95_test_vectors section 4). -/
def p1State : State :=
  { received [0x10#8, 0x04#8, 0x00#8, 0x09#8, 0x00#8, 0x09#8, 0xE3#8, 0x4F#8] with
    input := (Vector.replicate 32 0#16).set 9 0xB26E#16 |>.set 13 1250#16 |>.set 14 270#16 |>.set 15 1120#16
      |>.set 16 1480#16 |>.set 17 1295#16 }

theorem test_rdi_program_p1 : answer p1State
    [0x10#8, 0x04#8, 0x12#8, 0xB2#8, 0x6E#8, 0x00#8, 0x00#8, 0x00#8, 0x00#8, 0x00#8, 0x00#8, 0x04#8, 0xE2#8, 0x01#8,
      0x0E#8, 0x04#8, 0x60#8, 0x05#8, 0xC8#8, 0x05#8, 0x0F#8, 0x72#8, 0xC0#8] = true := by decide +kernel

/-- No 16-bit wrap of start + count. -/
theorem test_rdi_beyond_bank : answer (received [0x10#8, 0x04#8, 0xFF#8, 0xFF#8, 0x00#8, 0x01#8, 0x32#8, 0xAF#8])
    [0x10#8, 0x84#8, 0x02#8, 0x92#8, 0xC4#8] = true := by decide +kernel

theorem test_wrs_counts : nextIs (step (received [0x10#8, 0x06#8, 0x00#8, 0x03#8, 0xA5#8, 0x5A#8, 0x81#8, 0xE0#8]))
    (fun t => t.readReg .holding 3 == 0xA55A#16 && t.readWsc 3 == 1 && t.txLog == [[0x10#8, 0x06#8, 0x00#8, 0x03#8, 0xA5#8, 0x5A#8, 0x81#8, 0xE0#8]]) = true :=
    by decide +kernel

theorem test_wrs_outside_range :
    nextIs (step (received [0x10#8, 0x06#8, 0x00#8, 0x01#8, 0x00#8, 0xF8#8, 0xDA#8, 0xC9#8]))
    (fun t => t.readReg .holding 1 == 16#16 && t.txLog == [[0x10#8, 0x86#8, 0x03#8, 0x52#8, 0x64#8]] && t.diag.lastExc == 3#8) = true :=
    by decide +kernel

theorem test_wrm_writes_run :
    nextIs (step (received [0x10#8, 0x10#8, 0x00#8, 0x01#8, 0x00#8, 0x03#8, 0x06#8, 0x00#8, 0x11#8, 0x00#8, 0x09#8,
       0x00#8, 0x00#8, 0xA7#8, 0x55#8]))
    (fun t => t.readReg .holding 1 == 17#16 && t.readReg .holding 2 == 9#16 && t.readWsc 2 == 1 && t.readWsc 3 == 1 &&
      t.readWsc 1 == 0 && t.txLog == [[0x10#8, 0x10#8, 0x00#8, 0x01#8, 0x00#8, 0x03#8, 0xD2#8, 0x89#8]]) = true :=
    by decide +kernel

theorem test_wrm_all_or_nothing :
    nextIs (step (received [0x10#8, 0x10#8, 0x00#8, 0x01#8, 0x00#8, 0x02#8, 0x04#8, 0x01#8, 0x2C#8, 0x00#8, 0x07#8, 0xE3#8, 0xA8#8]))
    (fun t => t.readReg .holding 1 == 16#16 && t.readReg .holding 2 == 0#16 && t.readWsc 2 == 0 &&
      t.txLog == [[0x10#8, 0x90#8, 0x03#8, 0x5C#8, 0x04#8]]) = true := by decide +kernel

theorem test_rid_answers : answer (received [0x10#8, 0x11#8, 0xCC#8, 0x7C#8])
    [0x10#8, 0x11#8, 0x08#8, 0x12#8, 0x34#8, 0x00#8, 0x01#8, 0x01#8, 0x00#8, 0x02#8, 0x03#8, 0xED#8, 0xFF#8] = true :=
    by decide +kernel

theorem test_rid_with_payload : answer (received [0x10#8, 0x11#8, 0x00#8, 0x7C#8, 0x55#8])
    [0x10#8, 0x91#8, 0x03#8, 0x5D#8, 0x94#8] = true := by decide +kernel

theorem test_vid_triggers : nextIs (step (received [0x10#8, 0x41#8, 0xCC#8, 0x40#8]))
    (fun t => t.readReg .holding 2 == 5#16 && t.readWsc 2 == 1 &&
      t.txLog == [[0x10#8, 0x41#8, 0x08#8, 0x12#8, 0x34#8, 0x00#8, 0x01#8, 0x01#8, 0x00#8, 0x02#8, 0x03#8, 0xEE#8, 0xBE#8]]) = true :=
    by decide +kernel

theorem test_vid_broadcast :
    nextIs (step (received [0x00#8, 0x41#8, 0xC1#8, 0x80#8])) (fun t => t.readWsc 2 == 0 && t.txLog == [] && t.diag.framesOk == 1) = true :=
    by decide +kernel

theorem test_unknown_raises : nextIs (step (received [0x10#8, 0x2B#8, 0x4C#8, 0x6F#8]))
    (fun t => t.txLog == [[0x10#8, 0xAB#8, 0x01#8, 0xCE#8, 0xF5#8]] && t.diag.lastExc == 1#8 && t.diag.excSent == 1 && t.diag.framesSent == 1 &&
      t.diag.framesOk == 1) = true := by decide +kernel

theorem test_unknown_broadcast : silent (received [0x00#8, 0x2B#8, 0x41#8, 0xAF#8]) = true := by decide +kernel

theorem test_emit_rdhR : nextIs (exec (.rdhR 0x10#8 [0x0010#16]) unit16)
    (fun t => t.txLog == [[0x10#8, 0x03#8, 0x02#8, 0x00#8, 0x10#8, 0x45#8, 0x8B#8]]) = true := by decide +kernel

theorem test_emit_rdiR :
    nextIs (exec (.rdiR 0x10#8 [0xB26E#16, 0#16, 0#16, 0#16, 0x04E2#16, 0x010E#16, 0x0460#16, 0x05C8#16, 0x050F#16]) unit16)
    (fun t => t.txLog == [[0x10#8, 0x04#8, 0x12#8, 0xB2#8, 0x6E#8,
      0x00#8, 0x00#8, 0x00#8, 0x00#8, 0x00#8, 0x00#8, 0x04#8, 0xE2#8, 0x01#8, 0x0E#8, 0x04#8, 0x60#8, 0x05#8, 0xC8#8, 0x05#8, 0x0F#8, 0x72#8, 0xC0#8]]) = true :=
    by decide +kernel

theorem test_emit_wrsR : nextIs (exec (.wrsR 0x10#8 1#16 17#16) unit16)
    (fun t => t.txLog == [[0x10#8, 0x06#8, 0x00#8, 0x01#8, 0x00#8, 0x11#8, 0x1B#8, 0x47#8]]) = true :=
    by decide +kernel

theorem test_emit_wrmR : nextIs (exec (.wrmR 0x10#8 4#16 2#16) unit16)
    (fun t => t.txLog == [[0x10#8, 0x10#8, 0x00#8, 0x04#8, 0x00#8, 0x02#8, 0x03#8, 0x48#8]]) = true :=
    by decide +kernel

theorem test_emit_ridR :
    nextIs (exec (.ridR 0x10#8 [0x12#8, 0x34#8, 0x00#8, 0x01#8, 0x01#8, 0x00#8, 0x02#8, 0x03#8]) unit16)
    (fun t => t.txLog == [[0x10#8, 0x11#8, 0x08#8, 0x12#8, 0x34#8, 0x00#8, 0x01#8, 0x01#8, 0x00#8, 0x02#8, 0x03#8, 0xED#8, 0xFF#8]]) = true :=
    by decide +kernel

theorem test_emit_vidR :
    nextIs (exec (.vidR 0x10#8 [0x12#8, 0x34#8, 0x00#8, 0x01#8, 0x01#8, 0x00#8, 0x02#8, 0x03#8]) unit16)
    (fun t => t.txLog == [[0x10#8, 0x41#8, 0x08#8, 0x12#8, 0x34#8, 0x00#8, 0x01#8, 0x01#8, 0x00#8, 0x02#8, 0x03#8, 0xEE#8, 0xBE#8]]) = true :=
    by decide +kernel

theorem test_emit_exc : nextIs (exec (.exc 0x10#8 0x86#8 .illegalValue) unit16)
    (fun t => t.txLog == [[0x10#8, 0x86#8, 0x03#8, 0x52#8, 0x64#8]] && t.diag.lastExc == 3#8) = true :=
    by decide +kernel

/-- The trace of 95_test_vectors section 3.2, last line. -/
theorem test_line_trace : nextIs (exec (.exc 0x10#8 0x86#8 .illegalValue) unit16) (fun t => t.line ==
    [.de true, .byte 0x10#8, .byte 0x86#8, .byte 0x03#8, .byte 0x52#8, .byte 0x64#8, .idle, .de false]) = true :=
    by decide +kernel

/-! ## REG, STA, CFG (95_test_vectors sections 3.5, 3.7) -/

theorem test_port_write : nextIs (step (facing (.port (.portWrite .sensor .input 0x000D 1250#16))))
    (fun t => t.readReg .input 0x000D == 1250#16) = true := by decide +kernel

theorem test_port_write_not_owner :
    refusedWith (step (facing (.port (.portWrite .sensor .holding 2 1#16)))) .portWriteNotOwner = true :=
    by decide +kernel

theorem test_sample_accumulates : nextIs (step (windAt ⟨true, 1000, 2, 1120, 1200, 1160⟩ 1480#16 3000))
    (fun t => t.window 0 == ⟨true, 1000, 3, 1120, 1480, 1266⟩) = true := by decide +kernel

theorem test_sample_mean_toward_zero : nextIs (step (windAt ⟨true, 6000, 1, 1295, 1295, 1295⟩ 1000#16 7000))
    (fun t => t.window 0 == ⟨true, 6000, 2, 1000, 1295, 1148⟩) = true := by decide +kernel

theorem test_sample_closes : nextIs (step (windAt ⟨true, 1000, 6, 1120, 1480, 1295⟩ 1295#16 6000))
    (fun t => t.window 0 == ⟨true, 6000, 1, 1295, 1295, 1295⟩ && t.readReg .input 0x000F == 1120#16 &&
      t.readReg .input 0x0010 == 1480#16 && t.readReg .input 0x0011 == 1295#16) = true := by decide +kernel

/-- 4999 ms over the clock wrap. -/
theorem test_sample_just_before_close : nextIs (step (windAt ⟨true, 0xFFFFF000, 1, 7, 7, 7⟩ 9#16 0x00000387))
    (fun t => t.window 0 == ⟨true, 0xFFFFF000, 2, 7, 9, 8⟩) = true := by decide +kernel

theorem test_cfg_loads : nextIs (step (facing (.cfg 0x22#8))) (fun t => t.unitAddr == 0x22#8) = true :=
    by decide +kernel

/-- A port write scheduled between the two reads of one response lands between them (20_memory R76). -/
theorem test_write_between_reads : nextIs
    (step { received (withCrc [0x10#8, 0x04#8, 0x00#8, 0x09#8, 0x00#8, 0x02#8]) with
      inbox := [.cycle 3647 [[.portWrite .sensor .input 9 1#16, .portWrite .sensor .input 10 2#16]]] })
    (fun t => t.txLog == [withCrc [0x10#8, 0x04#8, 0x04#8, 0x00#8, 0x00#8, 0x00#8, 0x02#8]]) = true := by decide +kernel

/-! ## States that meet the hypotheses of the statements -/

/-- Unit 16 with a transmitter that never reports idle (93_implementation_defined U16). -/
def hung : State := { unit16 with txHang := true }

/-- A frame of the spec with a wrong checksum (95_test_vectors section 3.3). -/
def corruptFrame : List Byte := [0x10#8, 0x04#8, 0x00#8, 0x09#8, 0x00#8, 0x09#8, 0xE3#8, 0x4E#8]

/-- A good frame for unit 17 (95_test_vectors section 3.3). -/
def foreignFrame : List Byte := [0x11#8, 0x04#8, 0x00#8, 0x09#8, 0x00#8, 0x09#8, 0xE2#8, 0x9E#8]

/-- `RID 16` (95_test_vectors section 3.6). -/
def ridFrame : List Byte := [0x10#8, 0x11#8, 0xCC#8, 0x7C#8]

/-- `WRS 16, 3, 0xA55A` (95_test_vectors section 3.5). -/
def wrsFrame : List Byte := [0x10#8, 0x06#8, 0x00#8, 0x03#8, 0xA5#8, 0x5A#8, 0x81#8, 0xE0#8]

theorem reference_admitted : admittedConfig Config.reference = true := by decide +kernel

theorem facing_next (e : Event) : NextEvent (facing e) e [] := ⟨reference_admitted, rfl⟩

theorem received_next (frame : List Byte) :
    NextEvent (received frame) (.cycle (unit16.t35 + 1) []) [] := ⟨reference_admitted, rfl⟩

theorem nothing_scheduled {s : State} (h : s.sched = [] := by rfl) : schedAdmitted s := by
  intro batch hb
  rw [h] at hb
  cases hb

theorem silence_over : unit16.t35 < elapsed unit16.cfg (unit16.t35 + 1) 0 := by decide +kernel

theorem received_closing (frame : List Byte) : Closing (received frame) (unit16.t35 + 1) [] [] :=
  ⟨received_next frame, rfl, rfl, silence_over⟩

theorem ends_next {o : Result State} (h : nextIs o (fun _ => true) = true) : ∃ t, o = .next t := by
  cases o with
  | next t => exact ⟨t, rfl⟩
  | fault f => cases h
  | refused r => cases h

theorem decode_of {f : List Byte} {i : Instr} (h : decodesTo f i = true) : decode f = .ok i := by
  unfold decodesTo at h
  split at h
  · rename_i j hj
    rw [hj, beq_iff_eq.mp h]
  · cases h

theorem windAt_next (w : Window) (raw : Word) (t : Time) :
    NextEvent (windAt w raw t) (.port (.sample 0 raw t)) [] := ⟨reference_admitted, rfl⟩

/-- Registers 1 (range 1 to 247), 2 (command, any) and 3 (command, two values) of `TESTMAP`, at the ends of what they
allow, the read-only register 0 and the first address beyond the bank. -/
theorem test_meets_writable_allowed :
    writable Config.reference 1 ∧ valueAllowed Config.reference 1 1#16 ∧ valueAllowed Config.reference 1 247#16 ∧
    ¬ valueAllowed Config.reference 1 0#16 ∧ ¬ valueAllowed Config.reference 1 248#16 ∧
    valueAllowed Config.reference 2 0xFFFF#16 ∧ valueAllowed Config.reference 3 0xA55A#16 ∧
    ¬ valueAllowed Config.reference 3 0x1234#16 ∧ ¬ writable Config.reference 0 ∧ ¬ writable Config.reference 0x30 ∧
    writable Config.reference 0x2F := by
  have ok : ∀ a v, checkWrite Config.reference a v = .ok →
      writable Config.reference a ∧ valueAllowed Config.reference a v := fun a v => (checkWrite_iff _ a v).2.2.mp
  have no : ∀ a v, checkWrite Config.reference a v = .valueError → ¬ valueAllowed Config.reference a v :=
    fun a v h => ((checkWrite_iff _ a v).2.1.mp h).2
  have ro : ∀ a, checkWrite Config.reference a 0#16 = .addressError → ¬ writable Config.reference a :=
    fun a => (checkWrite_iff _ a 0#16).1.mp
  exact ⟨(ok 1 1#16 (by decide +kernel)).1, (ok 1 1#16 (by decide +kernel)).2, (ok 1 247#16 (by decide +kernel)).2,
    no 1 0#16 (by decide +kernel), no 1 248#16 (by decide +kernel), (ok 2 0xFFFF#16 (by decide +kernel)).2,
    (ok 3 0xA55A#16 (by decide +kernel)).2, no 3 0x1234#16 (by decide +kernel), ro 0 (by decide +kernel),
    ro 0x30 (by decide +kernel), (ok 0x2F 0#16 (by decide +kernel)).1⟩

theorem test_meets_CheckPassesExactlyOnZeroResidue : 4 ≤ ridFrame.length ∧ 4 ≤ corruptFrame.length := by decide

theorem test_meets_RequestsRoundTrip : ∃ i : Instr, i.isRequest = true ∧ i.wf = true ∧ i.payload.length = 60 :=
  ⟨.wrm 0xFF#8 (.run 0xFFFF#16 0xFFFF#16 0xFF#8 (List.replicate 55 0xFF#8)), by decide +kernel⟩

theorem test_meets_ResponsesRoundTrip : ∃ i : Instr, i.isRequest = false ∧ i.wf = true ∧ i.payload.length = 65 :=
  ⟨.rdhR 0xFF#8 (List.replicate 32 0xFFFF#16), by decide +kernel⟩

theorem test_meets_DecodedFramesReencode : decode ridFrame = .ok (.rid 0x10#8 []) := decode_of (by decide +kernel)

/-- Three bytes; four bytes with a wrong checksum; a code beside a known one. -/
theorem test_meets_EveryFrameIsRejectedOrDecoded :
    [0x10#8, 0x11#8, 0xCC#8].length < 4 ∧ crcCheck [0x10#8, 0x11#8, 0xCC#8, 0x7D#8] = false ∧
    (0x05#8 : Byte) ∉ knownFunctions := by decide +kernel

theorem test_meets_ReceivedByteIsQueuedUnlessDriving :
    NextEvent (facing (.rx 0x55#8)) (.rx 0x55#8) [] ∧ (facing (.rx 0x55#8)).de = false ∧
    NextEvent { facing (.rx 0x55#8) with de := true } (.rx 0x55#8) [] := ⟨facing_next _, rfl, reference_admitted, rfl⟩

/-- The last free byte, and a full buffer. -/
theorem test_meets_CycleAppendsReceivedBytes : ∀ n ∈ [63, 64],
    ∃ s : State, NextEvent s (.cycle 1 []) [] ∧ s.uartQ ≠ [] ∧ s.rxLen ≤ rxBuf ∧ s.rxLen = n := by
  intro n hn
  refine ⟨{ facing (.cycle 1 []) with uartQ := [0xAA#8], rxLen := n, frmState := .accumulating },
    ⟨reference_admitted, rfl⟩, by simp, ?_, rfl⟩
  simp at hn
  rcases hn with rfl | rfl <;> decide

/-- A silence of exactly `T15` (1563 microseconds) and one microsecond more (95_test_vectors section 3.2). -/
theorem test_meets_LateBytesCountOneAnomaly :
    (NextEvent (since100 [0x00#8] 1663) (.cycle 1663 []) [] ∧
      ¬ (since100 [0x00#8] 1663).t15 < elapsed unit16.cfg 1663 (since100 [0x00#8] 1663).lastClk) ∧
    NextEvent (since100 [0x00#8] 1664) (.cycle 1664 []) [] ∧ (since100 [0x00#8] 1664).uartQ = [0x00#8] ∧
    (since100 [0x00#8] 1664).frmState = .accumulating ∧
    (since100 [0x00#8] 1664).t15 < elapsed unit16.cfg 1664 (since100 [0x00#8] 1664).lastClk :=
  ⟨⟨⟨reference_admitted, rfl⟩, by decide +kernel⟩, ⟨reference_admitted, rfl⟩, rfl, rfl, by decide +kernel⟩

/-- Idle, and accumulating with a silence of exactly `T35`. -/
theorem test_meets_QuietCycleChangesNothing :
    (NextEvent (facing (.cycle 9 [])) (.cycle 9 []) [] ∧ (facing (.cycle 9 [])).frmState = .idle) ∧
    NextEvent (since100 [] 3746) (.cycle 3746 []) [] ∧ (since100 [] 3746).uartQ = [] ∧
    (since100 [] 3746).frmState = .accumulating ∧ elapsed unit16.cfg 3746 (since100 [] 3746).lastClk = 3646 ∧
    (since100 [] 3746).t35 = 3646 :=
  ⟨⟨facing_next _, rfl⟩, ⟨reference_admitted, rfl⟩, rfl, rfl, by decide +kernel, by decide +kernel⟩

theorem test_meets_ClosedFrameIsCleared :
    Closing (received ridFrame) (unit16.t35 + 1) [] [] ∧ ∃ t, step (received ridFrame) = .next t :=
  ⟨received_closing _, ends_next (by decide +kernel)⟩

/-- A unicast and a broadcast. -/
theorem test_meets_StepRunsTheDecodedFrame :
    (Closing (received ridFrame) (unit16.t35 + 1) [] [] ∧ (received ridFrame).rxOvf = false ∧
      decode (received ridFrame).frame = .ok (.rid 0x10#8 []) ∧ (received ridFrame).unitAddr = 0x10#8) ∧
    Closing (received [0x00#8, 0x11#8, 0xC1#8, 0xBC#8]) (unit16.t35 + 1) [] [] ∧
    decode (received [0x00#8, 0x11#8, 0xC1#8, 0xBC#8]).frame = .ok (.rid 0x00#8 []) :=
  ⟨⟨received_closing _, rfl, decode_of (by decide +kernel), rfl⟩, received_closing _, decode_of (by decide +kernel)⟩

theorem test_meets_OverflowedFrameIsDropped :
    Closing { received ridFrame with rxOvf := true } (unit16.t35 + 1) [] [] :=
  ⟨⟨reference_admitted, rfl⟩, rfl, rfl, silence_over⟩

theorem test_meets_ShortFrameIsDropped :
    Closing (received [0x10#8, 0x11#8, 0xCC#8]) (unit16.t35 + 1) [] [] ∧
    (received [0x10#8, 0x11#8, 0xCC#8]).rxLen = 3 := ⟨received_closing _, rfl⟩

/-- A frame of four bytes, the shortest that is checked. -/
theorem test_meets_CorruptFrameIsDropped :
    Closing (received [0x10#8, 0x11#8, 0xCC#8, 0x7D#8]) (unit16.t35 + 1) [] [] ∧
    (received [0x10#8, 0x11#8, 0xCC#8, 0x7D#8]).rxLen = 4 ∧
    crcCheck (received [0x10#8, 0x11#8, 0xCC#8, 0x7D#8]).frame = false :=
  ⟨received_closing _, rfl, by decide +kernel⟩

theorem test_meets_ForeignFrameIsDropped :
    Closing (received foreignFrame) (unit16.t35 + 1) [] [] ∧
    decode (received foreignFrame).frame = .ok (.rdi 0x11#8 (.fields 9#16 9#16)) ∧
    (received foreignFrame).unitAddr = 0x10#8 := ⟨received_closing _, decode_of (by decide +kernel), rfl⟩

theorem test_meets_EmissionWaitsForTheTransmitter :
    hung.txHang = true ∧ (Instr.wrsR 0x10#8 1#16 17#16).wf = true ∧ hung.unitAddr = 0x10#8 ∧
    hung.cfg.ident.length ≤ 64 ∧ schedAdmitted hung :=
  ⟨rfl, rfl, rfl, by decide +kernel, nothing_scheduled⟩

theorem test_meets_SendDrivesTheLineInOrder : unit16.txHang = false := rfl

/-- Identification bytes of the longest length, and a scheduled port write. -/
theorem test_meets_UnicastRequestsAreAnsweredOnce :
    let c := { Config.reference with ident := List.replicate 64 0x00#8 }
    let s := { State.resetWith c with sched := [[.portWrite .sensor .input 9 1#16]] }
    s.txHang = false ∧ s.cfg.ident.length = 64 ∧ schedAdmitted s ∧ admittedConfig c = true := by
  refine ⟨rfl, rfl, ?_, by decide +kernel⟩
  intro batch hb e he
  obtain rfl := List.mem_singleton.mp hb
  obtain rfl := List.mem_singleton.mp he
  decide +kernel

/-- A response of 70 bytes; identification bytes one too long. -/
theorem test_meets_OversizeResponsesStop :
    (encode (.ridR 0x10#8 (List.replicate 65 0x00#8))).length = 70 ∧ unit16.unitAddr = 0x10#8 ∧
    64 < (State.resetWith { Config.reference with ident := List.replicate 65 0x00#8 }).cfg.ident.length := by
  decide +kernel

theorem test_meets_ExceptionIsRecordedAndAnswered : (0x10#8 : Byte) ≠ 0x00#8 ∧ unit16.txHang = false := by decide +kernel

theorem test_meets_UnknownFunctionRaisesIllegalFunction : unit16.txHang = false := rfl

theorem test_meets_BroadcastIsNeverAnswered :
    ∃ t, exec (.wrs 0x00#8 (.fields 2#16 5#16)) unit16 = .next t := ends_next (by decide +kernel)

/-- A step that answers, and one of unit 0 that does not. -/
theorem test_meets_OnlyUnicastRequestsAreAnswered : (∃ t, step (received ridFrame) = .next t) ∧
    ∃ t, step { received ridFrame with unitAddr := 0x00#8 } = .next t :=
  ⟨ends_next (by decide +kernel), ends_next (by decide +kernel)⟩

/-- One register, 32 registers up to the end of the bank; a schedule of one batch. -/
theorem test_meets_ReadHoldingAnswersTheRun :
    let s : State := { unit16 with sched := [[.portWrite .sensor .input 9 1#16]] }
    s.txHang = false ∧ schedAdmitted s ∧ (1 ≤ (1#16).toNat ∧ (47#16).toNat + (1#16).toNat = 48) ∧
    (32#16).toNat ≤ 32 ∧ (16#16).toNat + (32#16).toNat = 48 := by
  refine ⟨rfl, ?_, by decide, by decide, by decide⟩
  intro batch hb e he
  obtain rfl := List.mem_singleton.mp hb
  obtain rfl := List.mem_singleton.mp he
  decide +kernel

/-- The last input register, and the whole bank; the schedule of the statement before. -/
theorem test_meets_ReadInputAnswersTheRun :
    unit16.txHang = false ∧ schedAdmitted unit16 ∧ (31#16).toNat + (1#16).toNat = 32 ∧ (0#16).toNat + (32#16).toNat = 32 :=
  ⟨rfl, nothing_scheduled, by decide, by decide⟩

/-- No register, 33 registers, one beyond either bank, and the largest sum. -/
theorem test_meets_BadReadsRaise : unit16.txHang = false ∧ (0#16).toNat < 1 ∧ 32 < (33#16).toNat ∧
    48 < (17#16).toNat + (32#16).toNat ∧ 32 < (31#16).toNat + (2#16).toNat ∧ 48 < (0xFFFF#16).toNat + (1#16).toNat := by
  decide +kernel

/-- Both ends of a range, an enumerated value; unicast and broadcast. -/
theorem test_meets_AcceptedWriteSingleStoresAndEchoes : unit16.txHang = false ∧
    writable unit16.cfg (1#16).toNat ∧ valueAllowed unit16.cfg (1#16).toNat 1#16 ∧
    valueAllowed unit16.cfg (1#16).toNat 247#16 ∧ valueAllowed unit16.cfg (3#16).toNat 0xA55A#16 :=
  let h := test_meets_writable_allowed
  ⟨rfl, h.1, h.2.1, h.2.2.1, h.2.2.2.2.2.2.1⟩

/-- Just below and above a range, a read-only register, the first address beyond the bank. -/
theorem test_meets_RejectedWriteSingleRaises : unit16.txHang = false ∧
    (¬ writable unit16.cfg (0#16).toNat ∧ ¬ writable unit16.cfg (0x30#16).toNat) ∧
    writable unit16.cfg (1#16).toNat ∧ ¬ valueAllowed unit16.cfg (1#16).toNat 0#16 ∧
    ¬ valueAllowed unit16.cfg (1#16).toNat 248#16 :=
  let h := test_meets_writable_allowed
  ⟨rfl, ⟨h.2.2.2.2.2.2.2.2.1, h.2.2.2.2.2.2.2.2.2.1⟩, h.1, h.2.2.2.1, h.2.2.2.2.1⟩

/-- One register, the last of the bank; and three registers with two command registers among them (95 section 3.5). -/
theorem test_meets_AcceptedWriteMultipleWritesTheRun : unit16.txHang = false ∧
    (∀ p ∈ [((0x2F#16 : Word), (1#16 : Word), (2#8 : Byte), [(7#16 : Word)]), (1#16, 3#16, 6#8, [17#16, 9#16, 0#16])],
      1 ≤ p.2.1.toNat ∧ p.2.1.toNat ≤ 32 ∧ p.1.toNat + p.2.1.toNat ≤ 48 ∧ p.2.2.1.toNat = 2 * p.2.1.toNat ∧
      p.2.2.2.length = p.2.1.toNat ∧
      ∀ i v, p.2.2.2[i]? = some v → writable unit16.cfg (p.1.toNat + i) ∧ valueAllowed unit16.cfg (p.1.toNat + i) v) := by
  refine ⟨rfl, ?_⟩
  intro p hp
  simp only [List.mem_cons, List.not_mem_nil, or_false] at hp
  rcases hp with rfl | rfl
  · exact ⟨by decide, by decide, by decide, by decide, by decide,
      (checkRun_iff unit16.cfg 0x2F [7#16]).2.mp (by decide +kernel)⟩
  · exact ⟨by decide, by decide, by decide, by decide, by decide,
      (checkRun_iff unit16.cfg 1 [17#16, 9#16, 0#16]).2.mp (by decide +kernel)⟩

/-- Each clause: no register; a byte count of 3 for two registers; register 0 in the run; a value outside its range
(95_test_vectors section 3.5). -/
theorem test_meets_RejectedWriteMultipleRaises : unit16.txHang = false ∧ ¬ 1 ≤ (0#16).toNat ∧
    ((3#8).toNat ≠ 2 * (2#16).toNat ∧ (4#16).toNat + (2#16).toNat ≤ 48) ∧ ¬ writable unit16.cfg ((0#16).toNat + 0) ∧
    (bytesValues [0x01#8, 0x2C#8, 0x00#8, 0x07#8])[0]? = some 300#16 ∧
    writable unit16.cfg ((1#16).toNat + 0) ∧ writable unit16.cfg ((1#16).toNat + 1) ∧
    ¬ valueAllowed unit16.cfg ((1#16).toNat + 0) 300#16 :=
  ⟨rfl, by decide, by decide, test_meets_writable_allowed.2.2.2.2.2.2.2.2.1, by decide, test_meets_writable_allowed.1,
    ((checkWrite_iff Config.reference 2 0#16).2.2.mp (by decide +kernel)).1,
    ((checkWrite_iff Config.reference 1 300#16).2.1.mp (by decide +kernel)).2⟩

theorem test_meets_ReadReturnsTheWrittenValue : unit16.txHang = false ∧ (0x10#8 : Byte) ≠ 0x00#8 ∧
    writable unit16.cfg (1#16).toNat ∧ valueAllowed unit16.cfg (1#16).toNat 247#16 :=
  ⟨rfl, by decide, test_meets_writable_allowed.1, test_meets_writable_allowed.2.2.1⟩

theorem test_meets_ReportIdentificationAnswersIdent :
    (0x10#8 : Byte) ≠ 0x00#8 ∧ unit16.txHang = false ∧ unit16.cfg.ident.length ≤ 64 := by decide +kernel

theorem test_meets_VendorIdentifyWritesAndAnswers :
    (0x10#8 : Byte) ≠ 0x00#8 ∧ unit16.txHang = false ∧ admittedConfig unit16.cfg = true := by decide +kernel

/-- A response of this block, one of another unit, one of unit 0. -/
theorem test_meets_ResponseRowsSendTheirEncoding : (Instr.wrmR 0x10#8 4#16 2#16).wf = true ∧
    (Instr.wrmR 0x10#8 4#16 2#16).isRequest = false ∧ (∀ u f c, Instr.wrmR 0x10#8 4#16 2#16 ≠ .exc u f c) ∧
    unit16.txHang = false ∧ unit16.unitAddr = 0x10#8 ∧ (Instr.wrmR 0x11#8 4#16 2#16).unit ≠ unit16.unitAddr ∧
    (Instr.wrmR 0x00#8 4#16 2#16).unit = 0x00#8 :=
  ⟨rfl, rfl, by simp, rfl, rfl, by decide +kernel, rfl⟩

theorem test_meets_ExceptionRowIsTaken : (0x10#8 : Byte) ≠ 0x00#8 ∧ unit16.txHang = false ∧ unit16.unitAddr = 0x10#8 ∧
    (0x11#8 : Byte) ≠ unit16.unitAddr := by decide +kernel

/-- Each clause: the whole of a run that ends with its bank, the last input register, an accepted write of one register,
and of a run. -/
theorem test_meets_RequestsEndInTheirResponseRows : unit16.unitAddr = 0x10#8 ∧ unit16.sched = [] ∧
    runInBank .holding 16#16 32#16 = true ∧ runInBank .input 31#16 1#16 = true ∧
    checkWrite unit16.cfg (3#16).toNat 0xA55A#16 = .ok ∧
    checkWriteRun unit16.cfg 1#16 2#16 4#8 [0x00#8, 0x11#8, 0x00#8, 0x09#8] = .ok := by decide +kernel

theorem test_meets_NonWritingFrame : unit16.sched = [] ∧
    (∃ t, exec (.rdh 0x10#8 (.fields 1#16 1#16)) unit16 = .next t) ∧ ∃ t, exec (.rid 0x10#8 []) unit16 = .next t :=
  ⟨rfl, ends_next (by decide +kernel), ends_next (by decide +kernel)⟩

theorem test_meets_WritingFrame : (∃ t, exec (.wrs 0x10#8 (.fields 3#16 0xA55A#16)) unit16 = .next t) ∧
    (∃ t, exec (.wrm 0x10#8 (.run 0x2F#16 1#16 2#8 [0x00#8, 0x07#8])) unit16 = .next t) ∧
    ∃ t, exec (.vid 0x10#8 []) unit16 = .next t :=
  ⟨ends_next (by decide +kernel), ends_next (by decide +kernel), ends_next (by decide +kernel)⟩

theorem test_meets_CheckWriteAnswers : 0x002F < 0x0030 := by decide

theorem test_meets_ApplyWriteStoresAndCounts : 47 < 48 ∧ unit16.cfg.isCommand 3 = true ∧ unit16.cfg.isCommand 47 = false := by
  decide +kernel

/-- Both clauses at their boundary: 16 + 32 = 48 and 17 + 32 = 49; 0 and 33 registers. -/
theorem test_meets_RegReadGivesTheRun : schedAdmitted unit16 ∧ (16#16).toNat + (32#16).toNat ≤ Bank.holding.size ∧
    Bank.holding.size < (17#16).toNat + (32#16).toNat ∧ (0#16).toNat < 1 ∧ 32 < (33#16).toNat :=
  ⟨nothing_scheduled, by decide⟩

/-- The reference configuration with one diagnostic value mirrored at input register 31. -/
def mirrorConfig : Config :=
  { Config.reference with
    inputMap := Config.reference.inputMap.set 31 ⟨.ro, false, .any, .role .diag, .volatile, 1, 0x0000#16⟩
    diagMap := { DiagMap.unmapped with anom := some 31 } }

/-- The last input register, the first holding register, and a mirrored register. -/
theorem test_meets_PortWriteByTheOwnerStores :
    (NextEvent (facing (.port (.portWrite .sensor .input 31 1#16))) (.port (.portWrite .sensor .input 31 1#16)) [] ∧
      unit16.cfg.owns .sensor .input 31 = true ∧ ∀ k, unit16.cfg.diagMap.addr k ≠ some 31) ∧
    (NextEvent (facing (.port (.portWrite .cmd .holding 0 1#16))) (.port (.portWrite .cmd .holding 0 1#16)) [] ∧
      unit16.cfg.owns .cmd .holding 0 = true) ∧
    (admittedConfig mirrorConfig = true ∧ mirrorConfig.owns .diag .input 31 = true ∧
      mirrorConfig.diagMap.addr (.counter .anom) = some 31) :=
  ⟨⟨facing_next _, by decide +kernel, fun k => by
      cases k with
      | counter c => cases c <;> decide +kernel
      | lastExc => decide +kernel⟩,
    ⟨facing_next _, by decide +kernel⟩, by decide +kernel, by decide +kernel, rfl⟩

/-- The last holding register and no owner of it; the first address outside the bank; the first number that is no
channel. -/
theorem test_meets_EventsNotAdmittedAreRefused :
    (NextEvent (facing (.port (.portWrite .sensor .holding 47 1#16))) (.port (.portWrite .sensor .holding 47 1#16)) [] ∧
      47 < Bank.holding.size ∧ unit16.cfg.owns .sensor .holding 47 = false) ∧
    (NextEvent (facing (.port (.portWrite .sensor .input 32 1#16))) (.port (.portWrite .sensor .input 32 1#16)) [] ∧
      Bank.input.size ≤ 32) ∧
    NextEvent (facing (.port (.sample 1 1#16 0))) (.port (.sample 1 1#16 0)) [] ∧ unit16.cfg.statCh.length ≤ 1 :=
  ⟨⟨facing_next _, by decide, by decide +kernel⟩, ⟨facing_next _, by decide⟩, facing_next _, by decide⟩

theorem test_meets_InternalReadsAnswer : NextEvent (facing (.wscRead 3)) (.wscRead 3) [] ∧
    unit16.cfg.isCommand 3 = true ∧ unit16.cfg.isCommand 4 = false ∧
    NextEvent (facing (.portRead .input 31)) (.portRead .input 31) [] ∧ 31 < Bank.input.size ∧ Bank.input.size ≤ 32 :=
  ⟨facing_next _, by decide +kernel, by decide +kernel, facing_next _, by decide, by decide⟩

theorem test_meets_FirstSampleSeeds : NextEvent (windAt Window.closed 7#16 0) (.port (.sample 0 7#16 0)) [] ∧
    unit16.cfg.statCh[0]? = some windChannel ∧ 0 < (windAt Window.closed 7#16 0).win.length ∧
    ((windAt Window.closed 7#16 0).window 0).isOpen = false := ⟨windAt_next _ _ _, rfl, by decide +kernel, rfl⟩

/-- Exactly 5000 ms (95_test_vectors section 3.7). -/
theorem test_meets_LateSampleClosesTheWindow :
    let s := windAt ⟨true, 0xFFFFF000, 1, 7, 7, 7⟩ 9#16 0x00000388
    NextEvent s (.port (.sample 0 9#16 0x00000388)) [] ∧ s.cfg.statCh[0]? = some windChannel ∧ 0 < s.win.length ∧
    (s.window 0).isOpen = true ∧ elapsed s.cfg 0x00000388 (s.window 0).start = 5000 :=
  ⟨windAt_next _ _ _, rfl, by decide +kernel, rfl, by decide +kernel⟩

/-- Exactly 4999 ms (95_test_vectors section 3.7). -/
theorem test_meets_EarlySampleAccumulates :
    let s := windAt ⟨true, 0xFFFFF000, 1, 7, 7, 7⟩ 9#16 0x00000387
    NextEvent s (.port (.sample 0 9#16 0x00000387)) [] ∧ s.cfg.statCh[0]? = some windChannel ∧ 0 < s.win.length ∧
    (s.window 0).isOpen = true ∧ elapsed s.cfg 0x00000387 (s.window 0).start = 4999 :=
  ⟨windAt_next _ _ _, rfl, by decide +kernel, rfl, by decide +kernel⟩

/-- Two channels (95_test_vectors section 3.7). -/
theorem test_meets_ChannelsAreIndependent :
    let tilt : StatChannel := ⟨true, 0x0012, 0x0013, 0x0014⟩
    let c := { Config.reference with statCh := [windChannel, tilt] }
    let s := { State.resetWith c with inbox := [.port (.sample 0 7#16 0)] }
    NextEvent s (.port (.sample 0 7#16 0)) [] ∧ 0 < s.cfg.statCh.length ∧ 0 < s.win.length ∧
    s.cfg.statCh[1]? = some tilt := ⟨⟨by decide +kernel, rfl⟩, by decide, by decide +kernel, rfl⟩

theorem test_meets_ResetValues : 0 < Config.reference.baud ∧ silenceMicros Config.reference 35 < 2 ^ 32 ∧
    Config.reference.attr .holding 0 = some ⟨.ro, false, .any, .role .cmd, .volatile, 1, 0x1234#16⟩ := by decide +kernel

theorem test_meets_OnlyCfgChangesTheUnitAddress : NextEvent (facing (.cfg 0x22#8)) (.cfg 0x22#8) [] ∧
    (∃ t, step (received ridFrame) = .next t) ∧ ∀ u l, (received ridFrame).inbox ≠ .cfg u :: l :=
  ⟨facing_next _, ends_next (by decide +kernel), fun u l h => by simp [received, withFrame] at h⟩

theorem test_meets_DiagnosticCountersNeverDecrease : ∃ t, step (received corruptFrame) = .next t := ends_next (by decide +kernel)

/-- A step that counts, and an address that is no command register. -/
theorem test_meets_OnlyBusWritesAreCounted :
    (∃ t, step (received wrsFrame) = .next t ∧ t.wsc ≠ (received wrsFrame).wsc) ∧ unit16.cfg.isCommand 1 = false := by
  refine ⟨?_, by decide +kernel⟩
  obtain ⟨t, ht⟩ := ends_next (o := step (received wrsFrame)) (by decide +kernel)
  have counted : nextIs (step (received wrsFrame)) (fun t => t.readWsc 3 == 1) = true := by decide +kernel
  rw [ht] at counted
  refine ⟨t, ht, fun same => ?_⟩
  have fresh : (received wrsFrame).readWsc 3 = 0 := by decide +kernel
  rw [State.readWsc, ← same, ← State.readWsc, beq_iff_eq.mp counted] at fresh
  cases fresh

theorem test_meets_NoEventNoStep : admittedConfig unit16.cfg = true ∧ unit16.inbox = [] ∧
    admittedConfig { Config.reference with baud := 0 } = false := by decide +kernel

theorem test_meets_ResetHasInvariant : admittedConfig Config.reference = true := reference_admitted

/-- Unit 16 with the wind window of 95_test_vectors section 3.7, line 6, open, and the closing sample next. -/
def open16 : State := windAt ⟨true, 1000, 6, 1120, 1480, 1295⟩ 1295#16 6000

theorem open16_inv : open16.Inv where
  config := reference_admitted
  rxForm := by decide
  txForm := by decide
  rxFill := by decide
  notReady := by decide +kernel
  idleEmpty := by decide +kernel
  ovfFull := by decide +kernel
  receiving := rfl
  txQuiet := rfl
  txEmpty := rfl
  schedEmpty := rfl
  windows := rfl
  windowsOk := by
    intro k ch hc _
    match k with
    | 0 =>
      obtain rfl : windChannel = ch := Option.some.inj hc
      constructor <;> decide +kernel
    | k + 1 => cases hc
  mirrored := by
    intro k a h
    cases k with
    | counter c => cases c <;> cases h
    | lastExc => cases h
  lastClkFits := by decide +kernel
  thresholds := ⟨rfl, rfl⟩
  diagFits := fun c => by cases c <;> decide +kernel
  wscFits := by
    intro a
    show ((Vector.replicate holdingSize 0)[a]?).getD 0 < 2 ^ Config.reference.wscW
    rw [Vector.getElem?_replicate]
    split <;> exact (by decide +kernel : 0 < 2 ^ Config.reference.wscW)
  lastExcCode := by decide
  noCounter := by
    intro a _
    show ((Vector.replicate holdingSize 0)[a]?).getD 0 = 0
    rw [Vector.getElem?_replicate]
    split <;> rfl

theorem test_meets_StepKeepsInvariant : open16.Inv ∧ ∃ t, step open16 = .next t :=
  ⟨open16_inv, ends_next (by decide +kernel)⟩

/-- An admitted sample next, and nothing after it. -/
theorem test_meets_AdmittedEventsAlwaysStep : open16.Inv ∧ open16.txHang = false ∧
    open16.inbox = [.port (.sample 0 1295#16 6000)] ∧ (∀ e ∈ open16.inbox, eventAdmitted open16.cfg e) := by
  refine ⟨open16_inv, rfl, rfl, fun e he => ?_⟩
  obtain rfl := List.mem_singleton.mp he
  exact (by decide +kernel : admitted open16.cfg (.sample 0 1295#16 6000) = true)

end Sys2Proof.Tests
end

section
/-! The checksum as a fold over the bytes (40_crc R130 to R133). -/

namespace Sys2Proof.Machine

/-- The empty input leaves the accumulator as `CRC.INIT` loads it (40_crc R133). -/
@[simp] theorem crcOver_nil : crcOver [] = crcInit := rfl

/-- There is no final step: one more byte is one more `CRC.BYTE` on the checksum so far (40_crc R133). -/
theorem crcOver_concat (bytes : List Byte) (b : Byte) : crcOver (bytes ++ [b]) = crcByte (crcOver bytes) b :=
  crcOver_append bytes [b]

/-- Settles O1: the start value is by definition, the step is `crcOver_concat`, and R133's two examples are evaluated. -/
theorem checksumIsAFoldFromFFFF : Obligations.ChecksumIsAFoldFromFFFF := by
  refine ⟨rfl, crcOver_nil, crcOver_concat, ?oneByte, ?readRequest⟩
  case oneByte => decide +kernel
  case readRequest => decide +kernel

end Sys2Proof.Machine
end

section
/-! The transport (41_transport): what drives the line, what a cycle with new bytes stores, and how a frame is sent. -/

namespace Sys2Proof.Machine

/-! ## What goes out on the line (R155) -/

/-- Neither the output frames nor the trace of the line has grown. -/
def LineQuiet (s t : State) : Prop := t.txLog = s.txLog ∧ t.line = s.line

/-- One frame went out with its drive-enable sequence; it begins with the address of the block in `s` and passes the
checksum test. -/
def OwnFrameSent (s t : State) : Prop :=
  ∃ frame, t.txLog = s.txLog ++ [frame] ∧ t.line = s.line ++ lineTrace frame ∧
    frame.head? = some s.unitAddr ∧ crcCheck frame = true

theorem RegSteps.lineQuiet {s t : State} (h : RegSteps s t) : LineQuiet s t := ⟨h.regFrame.txLog, h.regFrame.line⟩

/-- A response of the block's own, sent after silent work. -/
theorem LineQuiet.ownFrameSent {s u : State} (h : LineQuiet s u) (rest : List Byte) :
    OwnFrameSent s (sent (s.unitAddr :: rest) u) := by
  obtain ⟨hlog, hline⟩ := h
  exact ⟨withCrc (s.unitAddr :: rest), by simp [hlog], by simp [hline], rfl, crcCheck_withCrc _⟩

/-- An instruction sends nothing, or one frame of this block's for a unicast (42_dispatcher R170). -/
theorem ExecEnds.lineQuiet_or_ownFrameSent {unit : Byte} {s t : State} (h : ExecEnds unit s t) :
    LineQuiet s t ∨ unit ≠ 0x00#8 ∧ OwnFrameSent s t := by
  cases h with
  | silent h => exact .inl h.lineQuiet
  | response rest h hu _ => exact .inr ⟨hu, h.lineQuiet.ownFrameSent rest⟩
  | exception function code hu =>
    have recorded : LineQuiet s ((s.countEvent .excSent).setLastExc code) := by simp [LineQuiet]
    exact .inr ⟨hu, recorded.ownFrameSent [function, code.byte]⟩

/-- The dispatcher sends nothing, or one frame for a request that names this block (42_dispatcher R163, R170). -/
theorem DspEnds.lineQuiet_or_answered {s t : State} (h : DspEnds s t) :
    LineQuiet s t ∨ ∃ i, s.rxOvf = false ∧ decode s.frame = .ok i ∧ i.unit = s.unitAddr ∧ i.unit ≠ 0x00#8 ∧
      OwnFrameSent s t := by
  cases h with
  | overflow _ => exact .inl (by simp [LineQuiet])
  | short _ _ => exact .inl ⟨rfl, rfl⟩
  | corrupt _ _ => exact .inl (by simp [LineQuiet])
  | foreign _ _ _ => exact .inl (by simp [LineQuiet])
  | @run i _ hovf hdec haddr hexec =>
    obtain hquiet | ⟨hunit, hsent⟩ := (exec_cases hexec).lineQuiet_or_ownFrameSent
    · exact .inl (by simpa [LineQuiet] using hquiet)
    · have hown : i.unit = s.unitAddr := by simpa [addressed, hunit] using haddr
      exact .inr ⟨i, hovf, hdec, hown, hunit, by simpa [OwnFrameSent] using hsent⟩

/-- A cycle sends nothing, or it closes a frame and answers the request in it (R141, R155). -/
theorem CycleEnds.lineQuiet_or_answered {now : Time} {s t : State} (h : CycleEnds now s t) :
    LineQuiet s t ∨ (s.uartQ = [] ∧ silenceOver now s = true ∧
      ∃ i, s.rxOvf = false ∧ decode s.frame = .ok i ∧ i.unit = s.unitAddr ∧ i.unit ≠ 0x00#8 ∧ OwnFrameSent s t) := by
  cases h with
  | append _ => exact .inl (by simp [LineQuiet])
  | quiet _ _ => exact .inl ⟨rfl, rfl⟩
  | close hempty hsilent hdsp =>
    obtain hquiet | hanswered := hdsp.lineQuiet_or_answered
    · exact .inl (by simpa [LineQuiet] using hquiet)
    · exact .inr ⟨hempty, hsilent, by simpa [OwnFrameSent, State.frame] using hanswered⟩

theorem silenceOver_iff {now : Time} {s : State} :
    silenceOver now s = true ↔ s.frmState = .accumulating ∧ s.t35 < elapsed s.cfg now s.lastClk := by
  simp [silenceOver]

/-- A received byte puts nothing on the line. -/
theorem receive_lineQuiet (b : Byte) (s : State) : LineQuiet s (receive b s) := by
  unfold receive
  split <;> exact ⟨rfl, rfl⟩

/-- Settles O27: of a step's ends only a cycle can send, of a cycle's only the closing of a frame, and of the dispatcher's
only a request that is not a broadcast. -/
theorem onlyUnicastRequestsAreAnswered : Obligations.OnlyUnicastRequestsAreAnswered := by
  intro s t hstep
  obtain ⟨hconfig, hends⟩ := step_cases hstep
  cases hends with
  | wait _ => exact .inl ⟨rfl, rfl⟩
  | rx _ => exact .inl (receive_lineQuiet _ _)
  | port _ hport =>
    have frame := (portStep_portFrame hport).toRegFrame
    exact .inl ⟨frame.txLog, frame.line⟩
  | cfg _ => exact .inl ⟨rfl, rfl⟩
  | answer _ _ => exact .inl ⟨rfl, rfl⟩
  | @cycle now between later u hinbox hcycle =>
    obtain hquiet | ⟨hempty, hsilent, i, hovf, hdec, hown, hunit, frame, hlog, hline, hhead, hcrc⟩ :=
      hcycle.lineQuiet_or_answered
    · exact .inl (by simpa [LineQuiet] using hquiet)
    · obtain ⟨hacc, hgap⟩ := silenceOver_iff.mp hsilent
      exact .inr ⟨now, between, later, i, frame, ⟨⟨hconfig, hinbox⟩, hempty, hacc, hgap⟩, hovf, hdec, hown, hunit,
        by simpa using hlog, by simpa using hline, hhead, hcrc⟩

/-! ## Appending received bytes (R144) -/

/-- A cycle that finds new bytes appends them and ends (R141). -/
theorem step_cycle_append {s : State} {now : Time} {between : List (List PortEvent)} {later : List Event}
    (hnext : NextEvent s (.cycle now between) later) (hq : s.uartQ ≠ []) :
    step s = .next (returnSched (frmAppend now { s with inbox := later, sched := between })) := by
  have happend : cycleBody now { s with inbox := later, sched := between } =
      .next (frmAppend now { s with inbox := later, sched := between }) := cycleBody_append hq
  simp only [step_eq hnext.config hnext.head, takeEvent, cycle, happend, andThen_next]

/-- What `FRM.APPEND` writes: the queued bytes are stored, the queue is empty, the clock restarts (R144). -/
theorem frmAppend_effect (now : Time) (s : State) (hfill : s.rxLen ≤ rxBuf) :
    (frmAppend now s).frame = (s.frame ++ s.uartQ).take rxBuf ∧
    (frmAppend now s).rxLen = min rxBuf (s.rxLen + s.uartQ.length) ∧
    (frmAppend now s).rxOvf = (s.rxOvf || decide (rxBuf < s.rxLen + s.uartQ.length)) ∧
    (frmAppend now s).uartQ = [] ∧ (frmAppend now s).lastClk = clockValue s.cfg now ∧
    (frmAppend now s).frmState = .accumulating := by
  have stored := storeBytes_stored s.uartQ (anomalyTest now s) (by simpa using hfill)
  have hframe : (anomalyTest now s).frame = s.frame := by simp [State.frame]
  refine ⟨?_, ?_, ?_, rfl, by simp [frmAppend], rfl⟩
  · simpa [frmAppend, State.frame, hframe] using stored.frame
  · simpa [frmAppend] using stored.rxLen
  · simpa [frmAppend] using stored.rxOvf

/-- The only input register `FRM.APPEND` may change is the mirror of the anomaly counter (R142). -/
theorem frmAppend_sameInput (now : Time) (s : State) : SameInputBut (.counter .anom) s (frmAppend now s) := by
  intro a ha
  have hinput : (frmAppend now s).readReg .input a = (anomalyTest now s).readReg .input a :=
    State.readReg_input_congr (by simp [frmAppend]) a
  rw [hinput]
  obtain hsame | hcounted := anomalyTest_cases now s
  · rw [hsame]
  · rw [hcounted, State.readReg_countEvent_other ha]

/-- Settles O10: the step is `FRM.APPEND`, whose effect and frame are lemmas. -/
theorem cycleAppendsReceivedBytes : Obligations.CycleAppendsReceivedBytes := by
  intro s now between later hnext hq hfill
  obtain ⟨hframe, hlen, hovf, hempty, hclk, hstate⟩ :=
    frmAppend_effect now { s with inbox := later, sched := between } hfill
  have hinput : SameInputBut (.counter .anom) s
      (returnSched (frmAppend now { s with inbox := later, sched := between })) :=
    frmAppend_sameInput now { s with inbox := later, sched := between }
  refine ⟨_, step_cycle_append hnext hq, hframe, hlen, hovf, hempty, hclk, hstate, ?_⟩
  simpa using hinput

/-! ## Sending (R152) -/

/-- `FRM.SEND` while the transmitter reports idle in the end, as one update of the state. -/
theorem frmSend_eq {s : State} (hh : s.txHang = false) :
    frmSend s = .next
      { s with
        de := false
        txIdle := true
        txLen := 0
        line := s.line ++ lineTrace (s.tx.readAll 0 s.txLen)
        txLog := s.txLog ++ [s.tx.readAll 0 s.txLen] } := by
  simp [frmSend, driveOn, handOver_eq, waitIdle, hh, release, lineTrace]

/-- Settles O20: every part is read off `frmSend_eq`. -/
theorem sendDrivesTheLineInOrder : Obligations.SendDrivesTheLineInOrder := by
  intro s hh
  exact ⟨_, frmSend_eq hh, rfl, rfl, rfl, rfl, rfl, rfl, rfl, rfl, rfl, rfl⟩

end Sys2Proof.Machine
end

section
/-! The dispatcher (42_dispatcher): the step that closes a frame, a frame whose checksum fails, an unknown function. -/

namespace Sys2Proof.Machine

/-! ## The step that closes a frame (41_transport R145) -/

/-- The state in which the dispatcher finds a frame that a closing cycle hands over (41_transport R145). -/
def handedOver (between : List (List PortEvent)) (later : List Event) (s : State) : State :=
  { s with inbox := later, sched := between, frmState := .ready }

/-- A closing cycle is the dispatcher's work on the frame, then the clearing of the delimiter (R145 to R147). -/
theorem Closing.step_eq {s : State} {now : Time} {between : List (List PortEvent)} {later : List Event}
    (h : Closing s now between later) :
    step s = andThen (dspProcess (handedOver between later s)) fun t => .next (returnSched (frmClear t)) := by
  obtain ⟨⟨hconfig, hhead⟩, hempty, hacc, hgap⟩ := h
  have hclose : cycleBody now { s with inbox := later, sched := between } =
      andThen (dspProcess (handedOver between later s)) fun t => .next (frmClear t) :=
    cycleBody_close hempty (silenceOver_iff.mpr ⟨hacc, hgap⟩)
  simp only [Machine.step_eq hconfig hhead, takeEvent, cycle, hclose, andThen_assoc, andThen_next]

/-! ## A frame whose checksum fails (R162) -/

/-- The end of a cycle whose dispatch loaded the checksum accumulator and counted one event: the frame is dropped. -/
theorem dropped_countEvent (c : Counter) {f : List Byte} {between : List (List PortEvent)} {later : List Event}
    {s : State} :
    Dropped s (returnSched (frmClear ((runCrcCheck f (handedOver between later s)).countEvent c))) := by
  constructor <;> simp [handedOver]

/-- Of the input registers, a counted event changes none but the mirror of its counter (46_regmap R228). -/
theorem sameInputBut_countEvent (c : Counter) {f : List Byte} {between : List (List PortEvent)} {later : List Event}
    {s : State} :
    SameInputBut (.counter c) s (returnSched (frmClear ((runCrcCheck f (handedOver between later s)).countEvent c))) :=
  fun _ ha => State.readReg_countEvent_other (s := runCrcCheck f (handedOver between later s)) ha

/-- Settles O17: the decoder rejects the frame before anyone looks at its unit, so the dispatcher counts one CRC error
and ends. -/
theorem corruptFrameIsDropped : Obligations.CorruptFrameIsDropped := by
  intro s now between later hclosing hovf hlen hcrc
  have hrejected : decode s.frame = .error .badChecksum := decode_badChecksum (by rwa [length_frame]) hcrc
  have hdsp : dspProcess (handedOver between later s) =
      .next ((runCrcCheck s.frame (handedOver between later s)).countEvent .crcErr) :=
    dspProcess_corrupt hovf hrejected
  refine ⟨_, by rw [hclosing.step_eq, hdsp, andThen_next], dropped_countEvent .crcErr, ?diag,
    sameInputBut_countEvent .crcErr⟩
  case diag => simp [handedOver, Diag.bump]

/-! ## An unknown function (R167) -/

/-- Settles O24: an unknown function is `raise Exc(0x01)`, which never looks at the payload, and `raiseExc_eq` says where
it ends. -/
theorem unknownFunctionRaisesIllegalFunction : Obligations.UnknownFunctionRaisesIllegalFunction := by
  intro unit fc payload s hh
  calc exec (.unknown unit fc payload) s
      = raiseExc unit fc .illegalFunction s := rfl
    _ = .next (raised unit fc .illegalFunction s) := raiseExc_eq hh

end Sys2Proof.Machine
end

section
/-! Identification (45_ident). -/

namespace Sys2Proof.Machine

/-- The broadcast filter lets a unicast request through (42_dispatcher R168). -/
theorem unicastOnly_of_unicast {unit : Byte} {s : State} {k : Result State} (hu : unit ≠ 0x00#8) :
    unicastOnly unit s k = k := if_neg hu

/-- An identification of at most 64 bytes fits the transmit buffer with its three bytes before it and its checksum
(30_encoding R102, 10_state R29). -/
theorem identBody_fits {unit fc : Byte} {ident : List Byte} (hl : ident.length ≤ 64) :
    (identBody unit fc ident).length + 2 ≤ txMax := by
  simp only [identBody, List.length_cons, txMax]
  omega

/-- Report identification without payload is the one response that carries `IDENT` (45_ident R206). -/
theorem execRid_noPayload {unit : Byte} {s : State} (hu : unit ≠ 0x00#8) :
    execRid unit [] s = respond (identBody s.unitAddr 0x11#8 s.cfg.ident) s :=
  unicastOnly_of_unicast hu

/-- Report identification with a payload is `raise Exc(0x03)` (45_ident R206). -/
theorem execRid_payload {unit : Byte} {payload : List Byte} {s : State} (hu : unit ≠ 0x00#8) (hp : payload ≠ []) :
    execRid unit payload s = raiseExc unit 0x11#8 .illegalValue s := by
  rw [execRid, unicastOnly_of_unicast hu, if_neg hp]

/-- Settles O36: without payload the request is one response, which fits (`identBody_fits`) and so ends in `sent`; with a
payload it is one exception, which ends in `raised`. -/
theorem reportIdentificationAnswersIdent : Obligations.ReportIdentificationAnswersIdent := by
  intro s unit hu hh hl
  constructor
  · calc exec (.rid unit []) s
        = respond (identBody s.unitAddr 0x11#8 s.cfg.ident) s := execRid_noPayload hu
      _ = .next (sent (identBody s.unitAddr 0x11#8 s.cfg.ident) s) := respond_eq (identBody_fits hl) hh
  · intro payload hp
    calc exec (.rid unit payload) s
        = raiseExc unit 0x11#8 .illegalValue s := execRid_payload hu hp
      _ = .next (raised unit 0x11#8 .illegalValue s) := raiseExc_eq hh

end Sys2Proof.Machine
end

section
/-! The statistics (47_stats): what a step does when the next event is a sample, in each of its three cases. -/

namespace Sys2Proof.Machine

/-! ## A sample is one step (R237) -/

/-- A sample of a channel of `STAT_CH` is taken (R237). -/
theorem staSample_eq {k : Nat} {ch : StatChannel} {raw : Word} {t : Time} {s : State}
    (hch : s.cfg.statCh[k]? = some ch) : staSample k raw t s = .next (sampleChannel ch k raw t s) := by
  rw [staSample, hch]

/-- The step that takes a sample of a channel of `STAT_CH` (R237). -/
theorem NextEvent.step_sample {s : State} {k : Nat} {ch : StatChannel} {raw : Word} {t : Time} {later : List Event}
    (hnext : NextEvent s (.port (.sample k raw t)) later) (hch : s.cfg.statCh[k]? = some ch) :
    step s = .next (sampleChannel ch k raw t { s with inbox := later }) :=
  calc step s
      = staSample k raw t { s with inbox := later } := step_eq hnext.config hnext.head
    _ = .next (sampleChannel ch k raw t { s with inbox := later }) := staSample_eq hch

/-! ## The three cases (R238 to R240) -/

theorem sampleChannel_seed {ch : StatChannel} {k : Nat} {raw : Word} {t : Time} {s : State}
    (hclosed : (s.window k).isOpen = false) :
    sampleChannel ch k raw t s = seedWindow k (sampleValue ch raw) t s := by
  simp [sampleChannel, hclosed]

theorem sampleChannel_close {ch : StatChannel} {k : Nat} {raw : Word} {t : Time} {s : State}
    (hopen : (s.window k).isOpen = true) (hlate : windowMs ≤ elapsed s.cfg t (s.window k).start) :
    sampleChannel ch k raw t s = closeWindow ch k (sampleValue ch raw) t s := by
  simp [sampleChannel, hopen, hlate]

theorem sampleChannel_accumulate {ch : StatChannel} {k : Nat} {raw : Word} {t : Time} {s : State}
    (hopen : (s.window k).isOpen = true) (hearly : elapsed s.cfg t (s.window k).start < windowMs) :
    sampleChannel ch k raw t s = accumulateWindow k (sampleValue ch raw) s := by
  simp [sampleChannel, hopen, Nat.not_le.mpr hearly]

/-- An open window with one more sample: `ACCUMULATE`'s comparisons are the minimum and the maximum (R240). -/
theorem accumulate_eq_min_max {w : Window} (hopen : w.isOpen = true) (countW : Nat) (v : Int) :
    w.accumulate countW v =
      ⟨true, w.start, satInc countW w.count, min w.min v, max w.max v,
        w.mean + (v - w.mean).tdiv (satInc countW w.count : Int)⟩ := by
  have hmin : (if v < w.min then v else w.min) = min w.min v := by rw [min_comm, min_def_lt]
  have hmax : (if w.max < v then v else w.max) = max w.max v := (max_def_lt _ _).symm
  simp only [Window.accumulate, hopen, hmin, hmax]

/-- Settles O49: the window is not open, so the sample seeds it. -/
theorem firstSampleSeeds : Obligations.FirstSampleSeeds := by
  intro s k ch raw t later hnext hch _ hclosed
  calc step s
      = .next (sampleChannel ch k raw t { s with inbox := later }) := hnext.step_sample hch
    _ = .next (seedWindow k (sampleValue ch raw) t { s with inbox := later }) :=
        congrArg _ (sampleChannel_seed hclosed)

/-- Settles O51: the window is open and not over, so the sample accumulates, and `accumulate_eq_min_max` gives the
window. -/
theorem earlySampleAccumulates : Obligations.EarlySampleAccumulates := by
  intro s k ch raw t later hnext hch _ hopen hearly v w n
  have hwindow : w.accumulate s.cfg.countW v =
      ⟨true, w.start, n, min w.min v, max w.max v, w.mean + (v - w.mean).tdiv (n : Int)⟩ :=
    accumulate_eq_min_max hopen s.cfg.countW v
  calc step s
      = .next (sampleChannel ch k raw t { s with inbox := later }) := hnext.step_sample hch
    _ = .next (accumulateWindow k v { s with inbox := later }) :=
        congrArg _ (sampleChannel_accumulate hopen hearly)
    _ = .next { s with inbox := later, win := s.win.set k (w.accumulate s.cfg.countW v) } := rfl
    _ = _ := by rw [hwindow]

/-! ## What a sample leaves alone (R249) -/

/-- An emission leaves every input register but the channel's outputs (R239). -/
theorem State.readReg_emit_other {s : State} {ch : StatChannel} {w : Window} {a : Nat} (ha : a ∉ ch.outputs) :
    (s.emit ch w).readReg .input a = s.readReg .input a := by
  simp only [StatChannel.outputs, List.mem_cons, List.not_mem_nil, or_false, not_or] at ha
  obtain ⟨hmin, hmax, hmean⟩ := ha
  simp [State.emit, State.readReg_writeReg, Ne.symm hmin, Ne.symm hmax, Ne.symm hmean]

/-- Whatever its case, a sample sets its channel's window to an open one, after an emission or without one (R237). -/
theorem sampleChannel_cases (ch : StatChannel) (k : Nat) (raw : Word) (t : Time) (s : State) :
    ∃ w, w.isOpen = true ∧ (sampleChannel ch k raw t s = s.setWindow k w ∨
      sampleChannel ch k raw t s = (s.emit ch (s.window k)).setWindow k w) := by
  cases hopen : (s.window k).isOpen with
  | false => exact ⟨_, rfl, .inl (sampleChannel_seed hopen)⟩
  | true =>
    obtain hlate | hearly := le_or_gt windowMs (elapsed s.cfg t (s.window k).start)
    · exact ⟨_, rfl, .inr (sampleChannel_close hopen hlate)⟩
    · exact ⟨(s.window k).accumulate s.cfg.countW (sampleValue ch raw), hopen,
        .inl (sampleChannel_accumulate hopen hearly)⟩

/-- After a sample the channel has an open window. -/
theorem sampleChannel_isOpen {ch : StatChannel} {k : Nat} {raw : Word} {t : Time} {s : State}
    (hk : k < s.win.length) : ((sampleChannel ch k raw t s).window k).isOpen = true := by
  obtain ⟨w, hw, heq | heq⟩ := sampleChannel_cases ch k raw t s <;>
    simp [heq, State.window_setWindow, hk, hw]

/-- A sample leaves every other channel's window. -/
theorem sampleChannel_window_other {ch : StatChannel} {k j : Nat} {raw : Word} {t : Time} {s : State} (hj : j ≠ k) :
    (sampleChannel ch k raw t s).window j = s.window j := by
  obtain ⟨w, -, heq | heq⟩ := sampleChannel_cases ch k raw t s
  · simp [heq, State.window_setWindow, hj.symm]
  · rw [heq, State.window_setWindow, if_neg fun h => hj h.1.symm]
    exact State.window_congr (by simp) j

/-- A sample leaves every input register but its channel's outputs. -/
theorem sampleChannel_readReg_other {ch : StatChannel} {k a : Nat} {raw : Word} {t : Time} {s : State}
    (ha : a ∉ ch.outputs) : (sampleChannel ch k raw t s).readReg .input a = s.readReg .input a := by
  obtain ⟨w, -, heq | heq⟩ := sampleChannel_cases ch k raw t s
  · rw [heq, State.readReg_setWindow]
  · rw [heq, State.readReg_setWindow, State.readReg_emit_other ha]

/-- Settles O52: a sample writes its own window and its own outputs, and in an admitted configuration no two channels
share an output (`outputs_disjoint`). -/
theorem channelsAreIndependent : Obligations.ChannelsAreIndependent := by
  intro s k raw t later hnext hk
  have hch : s.cfg.statCh[k]? = some s.cfg.statCh[k] := List.getElem?_eq_getElem hk
  obtain ⟨-, -, hstat, -, -, -⟩ := admittedConfig_parts hnext.config
  refine ⟨_, hnext.step_sample hch, fun hw => sampleChannel_isOpen hw,
    fun j other hjk hj => ⟨?window, fun a ha => ?output⟩⟩
  case window => exact sampleChannel_window_other hjk
  case output =>
    have hnot : a ∉ s.cfg.statCh[k].outputs := outputs_disjoint hstat hj hch hjk ha
    exact sampleChannel_readReg_other hnot

end Sys2Proof.Machine
end

section
/-! What the checksum detects (40_crc R134, R136): one `CRC.BYTE` loses nothing, so a frame passes exactly on residue
zero. -/

namespace Sys2Proof.Machine

/-! ## One step loses nothing (R136) -/

/-- The bit a shift drops comes back in bit 15, where the polynomial has a one (R131). -/
theorem getLsbD_crcShift_15 (c : Word) : (crcShift c).getLsbD 15 = c.getLsbD 0 := by
  unfold crcShift
  split
  · rename_i hbit
    simp [hbit]
  · rename_i hbit
    simpa using hbit

theorem crcShift_injective : Function.Injective crcShift := by
  intro c d h
  have hlow : c.getLsbD 0 = d.getLsbD 0 := by rw [← getLsbD_crcShift_15, h, getLsbD_crcShift_15]
  have hhigh : c >>> 1 = d >>> 1 := by
    unfold crcShift at h
    rw [hlow] at h
    split at h
    · exact BitVec.xor_left_inj _ |>.mp h
    · exact h
  apply BitVec.eq_of_getLsbD_eq
  intro i _
  cases i with
  | zero => exact hlow
  | succ i => simpa [Nat.add_comm 1] using congrArg (fun w => w.getLsbD i) hhigh

theorem crcShifts_injective (n : Nat) : Function.Injective (crcShifts n) := by
  induction n with
  | zero => exact Function.injective_id
  | succ n ih => exact ih.comp crcShift_injective

/-- Settles O2: eight shifts are injective, and so is an XOR, in the accumulator and in the byte; on 16 bits an injective
map is a bijection. -/
theorem crcByteIsBijective : Obligations.CrcByteIsBijective := by
  refine ⟨fun b => Finite.injective_iff_bijective.mp ?_, fun c b b' h => ?_⟩
  · exact (crcShifts_injective 8).comp fun c d h => (BitVec.xor_left_inj _).mp h
  · have hbytes := (BitVec.xor_right_inj c).mp (crcShifts_injective 8 h)
    simpa using congrArg (BitVec.setWidth 8) hbytes

/-! ## The residue of a good frame is zero (R134) -/

/-- While only zeros are dropped, the polynomial never enters. -/
theorem crcShifts_of_low_zero (n : Nat) (c : Word) (h : ∀ i < n, c.getLsbD i = false) : crcShifts n c = c >>> n := by
  induction n generalizing c with
  | zero => simp [crcShifts]
  | succ n ih =>
    have hshift : crcShift c = c >>> 1 := if_neg (by rw [h 0 (by omega)]; exact Bool.false_ne_true)
    rw [crcShifts, hshift, ih, Nat.add_comm n 1, BitVec.shiftRight_add]
    intro i hi
    rw [BitVec.getLsbD_ushiftRight]
    exact h _ (by omega)

theorem getLsbD_pair (hi lo : Byte) (i : Nat) :
    (pair hi lo).getLsbD i = if i < 8 then lo.getLsbD i else hi.getLsbD (i - 8) := by
  rw [pair, BitVec.getLsbD_append]

/-- Eight shifts of a word without a low byte move its high byte down. -/
theorem crcShifts_pair_zero (hi : Byte) : crcShifts 8 (pair hi 0x00#8) = hi.setWidth 16 := by
  rw [crcShifts_of_low_zero]
  · apply BitVec.eq_of_getLsbD_eq
    intro i hi16
    rw [BitVec.getLsbD_ushiftRight, getLsbD_pair, BitVec.getLsbD_setWidth, if_neg (by omega), Nat.add_sub_cancel_left]
    simp [hi16]
  · intro i hi
    rw [getLsbD_pair]
    simp [hi]

theorem pair_xor_setWidth (hi lo : Byte) : pair hi 0x00#8 ^^^ lo.setWidth 16 = pair hi lo := by
  apply BitVec.eq_of_getLsbD_eq
  intro i hi16
  rw [BitVec.getLsbD_xor, getLsbD_pair, getLsbD_pair, BitVec.getLsbD_setWidth]
  by_cases h : i < 8
  · simp [h, hi16]
  · have hlo : lo.getLsbD i = false := BitVec.getLsbD_of_ge _ _ (by omega)
    simp [h, hlo]

/-- Two more bytes bring the accumulator to zero exactly when they are its own, low byte first. -/
theorem crcFold_two_eq_zero (c : Word) (lo hi : Byte) : crcFold c [lo, hi] = 0x0000#16 ↔ c = pair hi lo :=
  calc crcFold c [lo, hi] = 0x0000#16
      ↔ crcShifts 8 (crcByte c lo ^^^ hi.setWidth 16) = crcShifts 8 0x0000#16 := Iff.rfl
    _ ↔ crcByte c lo ^^^ hi.setWidth 16 = 0x0000#16 := (crcShifts_injective 8).eq_iff
    _ ↔ crcShifts 8 (c ^^^ lo.setWidth 16) = crcShifts 8 (pair hi 0x00#8) := by
        rw [BitVec.xor_eq_zero_iff, crcShifts_pair_zero, crcByte]
    _ ↔ c ^^^ lo.setWidth 16 = pair hi 0x00#8 := (crcShifts_injective 8).eq_iff
    _ ↔ c = pair hi lo := by
        rw [← pair_xor_setWidth hi lo, ← BitVec.xor_left_inj (lo.setWidth 16), BitVec.xor_assoc, BitVec.xor_self,
          BitVec.xor_zero]

/-- The checksum test on a frame with its last two bytes written out (R134). -/
theorem crcCheck_append_two (body : List Byte) (lo hi : Byte) :
    crcCheck (body ++ [lo, hi]) = true ↔ crcOver body = pair hi lo := by
  have hcovered : crcCovered (body ++ [lo, hi]) = body := by simp [crcCovered]
  have hbytes : [lo, hi] = crcBytes body ↔ crcOver body = pair hi lo := by
    constructor
    · intro h
      obtain ⟨hlo, hhi⟩ : lo = loByte (crcOver body) ∧ hi = hiByte (crcOver body) := by simpa [crcBytes] using h
      rw [hlo, hhi, pair_hiByte_loByte]
    · intro h
      simp [crcBytes, h]
  rw [crcCheck, hcovered, beq_iff_eq, ← hbytes]
  simp

/-- A frame of at least two bytes with its last two written out. -/
theorem exists_append_two {f : List Byte} (h : 2 ≤ f.length) : ∃ body lo hi, f = body ++ [lo, hi] := by
  have hdrop : (f.drop (f.length - 2)).length = 2 := by simp; omega
  obtain ⟨lo, hi, htwo⟩ := List.length_eq_two.mp hdrop
  exact ⟨f.take (f.length - 2), lo, hi, by rw [← htwo, List.take_append_drop]⟩

/-- Settles O3: both tests say that the accumulator over the body is the word of the last two bytes, by
`crcCheck_append_two` and `crcFold_two_eq_zero`. -/
theorem checkPassesExactlyOnZeroResidue : Obligations.CheckPassesExactlyOnZeroResidue := by
  intro f hf
  obtain ⟨body, lo, hi, rfl⟩ := exists_append_two (f := f) (by omega)
  have hresidue : crcOver (body ++ [lo, hi]) = 0x0000#16 ↔ crcOver body = pair hi lo := by
    rw [crcOver_append, crcFold_two_eq_zero]
  rw [hresidue, crcCheck_append_two]
  simp [List.getD_eq_getElem?_getD]

end Sys2Proof.Machine
end

section
/-! The encoding (30_encoding): what is encoded is decoded again, and what is decoded was encoded. -/

namespace Sys2Proof

open Sys2Proof.Machine

/-! ## Requests (30_encoding R96 to R101, R111) -/

/-- Decoding an encoded instruction looks its function byte up and reads the payload (30_encoding R111). -/
theorem decode_encode (i : Instr) : decode (encode i) = .ok (decodeFunction i.unit i.function i.payload) :=
  decode_withCrc _ _ _

/-- The function-code map undoes the encoding of each request row. -/
theorem decodeFunction_of_request {i : Instr} (hr : i.isRequest = true) (hw : i.wf = true) :
    decodeFunction i.unit i.function i.payload = i := by
  cases i with
  | rdh unit ops => exact congrArg (Instr.rdh unit) (decodeTwoFields_bytes hw)
  | rdi unit ops => exact congrArg (Instr.rdi unit) (decodeTwoFields_bytes hw)
  | wrs unit ops => exact congrArg (Instr.wrs unit) (decodeTwoFields_bytes hw)
  | wrm unit ops => exact congrArg (Instr.wrm unit) (decodeWriteRun_bytes hw)
  | rid unit payload => rfl
  | vid unit payload => rfl
  | unknown unit fc payload =>
    have hfc : fc ∉ knownFunctions := by
      intro hmem
      simp [Instr.wf, hmem] at hw
    exact decodeFunction_unknown hfc
  | rdhR | rdiR | wrsR | wrmR | ridR | vidR | exc => cases hr

/-- Settles O4: the checksum comes off again (`decode_encode`), and the function-code map undoes each row. -/
theorem requestsRoundTrip : Obligations.RequestsRoundTrip := by
  intro i hr hw
  rw [decode_encode, decodeFunction_of_request hr hw]

/-- Settles O6: a frame that passes the checks is its body with the checksum (`checkFrame_ok`), and the decoded request
has the bytes of that body (`decodeFunction_fields`). -/
theorem decodedFramesReencode : Obligations.DecodedFramesReencode := by
  intro f i h
  unfold decode at h
  split at h
  · rename_i unit fc payload hcheck
    obtain rfl := Except.ok.inj h
    obtain ⟨hunit, hfunction, hpayload, hrequest⟩ := decodeFunction_fields unit fc payload
    refine ⟨?_, hrequest⟩
    rw [(checkFrame_ok hcheck).1, encode, Instr.body, hunit, hfunction, hpayload]
  · cases h

/-- Settles O7: the first two clauses are the decoder's two rejections; a frame with the right checksum reaches the
function-code map, which keeps unit, function and payload. -/
theorem everyFrameIsRejectedOrDecoded : Obligations.EveryFrameIsRejectedOrDecoded := by
  refine ⟨fun f => decode_short, fun f => decode_badChecksum, fun unit fc payload => ?_⟩
  obtain ⟨hunit, hfunction, hpayload, hrequest⟩ := decodeFunction_fields unit fc payload
  exact ⟨decodeFunction unit fc payload, decode_withCrc unit fc payload, hrequest, hunit, hfunction, hpayload,
    decodeFunction_unknown⟩

/-! ## Responses (30_encoding R97 to R102, R110) -/

theorem decodeResponse_encode (i : Instr) :
    decodeResponse (encode i) = decodeAnswer i.unit i.function i.payload :=
  decodeResponse_withCrc _ _ _

/-- The values of a register response survive the wire: 1 to 32 of them have an even byte count of 2 to 64 (R97). -/
theorem decodeValues_valueBytes {vs : List Word} (h : valuesFit vs = true) :
    decodeValues (BitVec.ofNat 8 (2 * vs.length) :: valueBytes vs) = some vs := by
  simp only [valuesFit, maxRegs, Bool.and_eq_true, decide_eq_true_eq] at h
  obtain ⟨hmin, hmax⟩ := h
  have hcount : (BitVec.ofNat 8 (2 * vs.length)).toNat = 2 * vs.length := by
    rw [BitVec.toNat_ofNat]
    omega
  rw [decodeValues, hcount, length_valueBytes, bytesValues_valueBytes, if_pos]
  exact ⟨rfl, by omega, by simp only [maxRegs]; omega, by omega⟩

/-- At most 64 identification bytes survive the wire (R102). -/
theorem decodeIdent_bytes {ident : List Byte} (h : identFits ident = true) :
    decodeIdent (BitVec.ofNat 8 ident.length :: ident) = some ident := by
  simp only [identFits, decide_eq_true_eq] at h
  have hcount : (BitVec.ofNat 8 ident.length).toNat = ident.length := by
    rw [BitVec.toNat_ofNat]
    omega
  rw [decodeIdent, hcount, if_pos ⟨rfl, h⟩]

theorem decodeEcho_fieldBytes (a b : Word) : decodeEcho (fieldBytes a ++ fieldBytes b) = some (a, b) := by
  simp [fieldBytes, decodeEcho]

theorem decodeExcCode_byte (code : ExcCode) : decodeExcCode code.byte = some code := by
  cases code <;> decide

/-- No known function code has bit 7 set, so an exception response is never taken for another (R93, R111). -/
theorem decodeAnswer_exception {fc : Byte} (h : fc.getLsbD 7 = true) (unit : Byte) (payload : List Byte) :
    decodeAnswer unit fc payload = decodeExc unit fc payload := by
  have hclear : ∀ known ∈ knownFunctions, known.getLsbD 7 = false := by decide
  have hne : ∀ known ∈ knownFunctions, fc ≠ known := by
    rintro known hmem rfl
    exact Bool.false_ne_true ((hclear fc hmem).symm.trans h)
  simp only [knownFunctions, List.mem_cons, List.not_mem_nil, or_false, forall_eq_or_imp, forall_eq] at hne
  obtain ⟨h1, h2, h3, h4, h5, h6⟩ := hne
  simp [decodeAnswer, h1, h2, h3, h4, h5, h6, h]

/-- The response decoder undoes the encoding of each response row. -/
theorem decodeAnswer_of_response {i : Instr} (hr : i.isRequest = false) (hw : i.wf = true) :
    decodeAnswer i.unit i.function i.payload = .ok i := by
  cases i with
  | rdhR unit vs =>
    obtain ⟨-, hvalues⟩ := Bool.and_eq_true_iff.mp hw
    exact congrArg (orReject .badLength · (.rdhR unit)) (decodeValues_valueBytes hvalues)
  | rdiR unit vs =>
    obtain ⟨-, hvalues⟩ := Bool.and_eq_true_iff.mp hw
    exact congrArg (orReject .badLength · (.rdiR unit)) (decodeValues_valueBytes hvalues)
  | wrsR unit addr value =>
    exact congrArg (orReject .badLength · fun p => .wrsR unit p.1 p.2) (decodeEcho_fieldBytes addr value)
  | wrmR unit start count =>
    exact congrArg (orReject .badLength · fun p => .wrmR unit p.1 p.2) (decodeEcho_fieldBytes start count)
  | ridR unit ident =>
    obtain ⟨-, hident⟩ := Bool.and_eq_true_iff.mp hw
    exact congrArg (orReject .badLength · (.ridR unit)) (decodeIdent_bytes hident)
  | vidR unit ident =>
    obtain ⟨-, hident⟩ := Bool.and_eq_true_iff.mp hw
    exact congrArg (orReject .badLength · (.vidR unit)) (decodeIdent_bytes hident)
  | exc unit fc code =>
    obtain ⟨-, hbit⟩ := Bool.and_eq_true_iff.mp hw
    calc decodeAnswer unit fc [code.byte]
        = decodeExc unit fc [code.byte] := decodeAnswer_exception hbit unit _
      _ = .ok (.exc unit fc code) := congrArg (orReject .badCode · (.exc unit fc)) (decodeExcCode_byte code)
  | rdh | rdi | wrs | wrm | rid | vid | unknown => cases hr

/-- Settles O5: the checksum comes off again, and the response decoder undoes each row. -/
theorem responsesRoundTrip : Obligations.ResponsesRoundTrip := by
  intro i hr hw
  rw [decodeResponse_encode, decodeAnswer_of_response hr hw]

/-! ## The frames written out in the spec (95_test_vectors section 3) -/

theorem decode_of_encode_eq {f : List Byte} {i : Instr} (hf : encode i = f) (hr : i.isRequest = true)
    (hw : i.wf = true) : decode f = .ok i := hf ▸ requestsRoundTrip i hr hw

theorem decodeResponse_of_encode_eq {f : List Byte} {i : Instr} (hf : encode i = f) (hr : i.isRequest = false)
    (hw : i.wf = true) : decodeResponse f = .ok i := hf ▸ responsesRoundTrip i hr hw

/-- Settles O8: each frame is the encoding of what it stands for, which is evaluated; so it decodes to that. -/
theorem specFramesDecode : Obligations.SpecFramesDecode := by
  refine ⟨?rdi, ?wrs, ?vid, ?unknown, ?exception⟩
  case rdi => exact decode_of_encode_eq (by decide +kernel) rfl rfl
  case wrs => exact decode_of_encode_eq (by decide +kernel) rfl rfl
  case vid => exact decode_of_encode_eq (by decide +kernel) rfl rfl
  case unknown => exact decode_of_encode_eq (by decide +kernel) rfl rfl
  case exception => exact decodeResponse_of_encode_eq (by decide +kernel) rfl rfl

end Sys2Proof
end

section
/-! What an instruction answers (42_dispatcher R169 to R171, 60_exceptions R286): a unicast request ends in one response or
one exception of this block, and a response row in its own emission. -/

namespace Sys2Proof.Machine

/-! ## Requests, case by case -/

theorem exec_rdh (unit : Byte) (ops : TwoFields) (s : State) :
    exec (.rdh unit ops) s = unicastOnly unit s (readFunction 0x03#8 .holding ops unit s) := rfl

theorem exec_rdi (unit : Byte) (ops : TwoFields) (s : State) :
    exec (.rdi unit ops) s = unicastOnly unit s (readFunction 0x04#8 .input ops unit s) := rfl

theorem exec_rid_noPayload (unit : Byte) (s : State) :
    exec (.rid unit []) s = unicastOnly unit s (respond (identBody s.unitAddr 0x11#8 s.cfg.ident) s) := rfl

theorem exec_rid_payload {payload : List Byte} (hp : payload ≠ []) (unit : Byte) (s : State) :
    exec (.rid unit payload) s = unicastOnly unit s (raiseExc unit 0x11#8 .illegalValue s) :=
  congrArg (unicastOnly unit s) (if_neg hp)

theorem exec_vid_noPayload (unit : Byte) (s : State) :
    exec (.vid unit []) s = unicastOnly unit s
      (respond (identBody s.unitAddr 0x41#8 s.cfg.ident) (written s.cfg.identifyAddr s.cfg.identify41Value s)) := by
  rw [← applyWrite_eq_written]
  rfl

theorem exec_vid_payload {payload : List Byte} (hp : payload ≠ []) (unit : Byte) (s : State) :
    exec (.vid unit payload) s = unicastOnly unit s (raiseExc unit 0x41#8 .illegalValue s) :=
  congrArg (unicastOnly unit s) (if_neg hp)

theorem exec_unknown (unit fc : Byte) (payload : List Byte) (s : State) :
    exec (.unknown unit fc payload) s = raiseExc unit fc .illegalFunction s := rfl

theorem exec_wrs_badLength (unit : Byte) (payload : List Byte) (s : State) :
    exec (.wrs unit (.badLength payload)) s = raiseExc unit 0x06#8 .illegalValue s := rfl

theorem exec_wrs_addressError {s : State} {addr value : Word}
    (h : checkWrite s.cfg addr.toNat value = .addressError) (unit : Byte) :
    exec (.wrs unit (.fields addr value)) s = raiseExc unit 0x06#8 .illegalAddress s := by
  simp only [exec, execWrs, h]

theorem exec_wrs_valueError {s : State} {addr value : Word}
    (h : checkWrite s.cfg addr.toNat value = .valueError) (unit : Byte) :
    exec (.wrs unit (.fields addr value)) s = raiseExc unit 0x06#8 .illegalValue s := by
  simp only [exec, execWrs, h]

theorem exec_wrs_ok {s : State} {addr value : Word} (h : checkWrite s.cfg addr.toNat value = .ok) (unit : Byte) :
    exec (.wrs unit (.fields addr value)) s =
      answerWrite unit (echoBody s.unitAddr 0x06#8 addr value) (written addr.toNat value s) := by
  simp only [exec, execWrs, h, applyWrite_eq_written]

theorem exec_wrm_short (unit : Byte) (payload : List Byte) (s : State) :
    exec (.wrm unit (.short payload)) s = raiseExc unit 0x10#8 .illegalValue s := rfl

theorem exec_wrm_addressError {s : State} {start count : Word} {byteCount : Byte} {data : List Byte}
    (h : checkWriteRun s.cfg start count byteCount data = .addressError) (unit : Byte) :
    exec (.wrm unit (.run start count byteCount data)) s = raiseExc unit 0x10#8 .illegalAddress s := by
  simp only [exec, execWrm, h]

theorem exec_wrm_valueError {s : State} {start count : Word} {byteCount : Byte} {data : List Byte}
    (h : checkWriteRun s.cfg start count byteCount data = .valueError) (unit : Byte) :
    exec (.wrm unit (.run start count byteCount data)) s = raiseExc unit 0x10#8 .illegalValue s := by
  simp only [exec, execWrm, h]

theorem exec_wrm_ok {s : State} {start count : Word} {byteCount : Byte} {data : List Byte}
    (h : checkWriteRun s.cfg start count byteCount data = .ok) (unit : Byte) :
    exec (.wrm unit (.run start count byteCount data)) s =
      answerWrite unit (echoBody s.unitAddr 0x10#8 start count) (applyRun start.toNat (bytesValues data) s) := by
  simp only [exec, execWrm, h]

/-! ## Taking an exception (R286) -/

theorem takeException_eq_fault {function : Byte} {code : ExcCode} {s : State} (hh : s.txHang = true) :
    takeException function code s = .fault .txNeverIdle := by
  have hfits : [s.unitAddr, function, code.byte].length + 2 ≤ txMax := by simp [txMax]
  have hua : ((s.countEvent .excSent).setLastExc code).unitAddr = s.unitAddr := by simp
  rw [takeException, hua]
  exact respond_eq_fault hfits (by simpa using hh)

theorem raiseExc_broadcast {unit fc : Byte} {code : ExcCode} {s : State} (hu : unit = 0x00#8) :
    raiseExc unit fc code s = .next s := if_pos hu

theorem raiseExc_unicast {unit fc : Byte} {code : ExcCode} {s : State} (hu : unit ≠ 0x00#8) :
    raiseExc unit fc code s = takeException (fc ||| 0x80#8) code s := if_neg hu

/-- The broadcast filter adds nothing to an exception, which a broadcast suppresses anyway. -/
theorem unicastOnly_raiseExc (unit fc : Byte) (code : ExcCode) (s : State) :
    unicastOnly unit s (raiseExc unit fc code s) = raiseExc unit fc code s := by
  unfold unicastOnly
  split
  · rename_i hu
    rw [raiseExc_broadcast hu]
  · rfl

/-- A response changes no input register but the mirror of the sent count (46_regmap R228). -/
theorem sent_sameInput (body : List Byte) (s : State) : SameInput s (sent body s) := by
  intro a ha
  rw [readReg_sent, if_neg fun h => ha _ (by simp [responseKeys]) h.1]

/-- An exception changes no input register but the mirrors of the three values it writes (46_regmap R228). -/
theorem excepted_sameInput (function : Byte) (code : ExcCode) (s : State) : SameInput s (excepted function code s) := by
  intro a ha
  have hsent := sent_sameInput [s.unitAddr, function, code.byte] ((s.countEvent .excSent).setLastExc code) a
    (by simpa using ha)
  have hlast : (s.countEvent .excSent).cfg.diagMap.addr .lastExc ≠ some a := by
    simpa using ha .lastExc (by simp [responseKeys])
  rw [excepted, hsent, State.readReg_setLastExc_other hlast,
    State.readReg_countEvent_other (ha (.counter .excSent) (by simp [responseKeys]))]

theorem excepted_sameOutside (function : Byte) (code : ExcCode) (s : State) :
    SameOutside s (excepted function code s) := by
  constructor <;> simp

theorem excepted_sameCounters (function : Byte) (code : ExcCode) (s : State) :
    SameCounters s (excepted function code s) := by
  constructor <;> simp

/-- Settles O23: a unicast exception ends in `excepted`, whose effect and frame are lemmas. -/
theorem exceptionIsRecordedAndAnswered : Obligations.ExceptionIsRecordedAndAnswered := by
  intro unit fc code s
  refine ⟨raiseExc_broadcast, fun hu hh => ⟨excepted (fc ||| 0x80#8) code s, ?_, ?_⟩⟩
  · rw [raiseExc_unicast hu, takeException_eq hh]
  · obtain ⟨-, -, hlen, hde, -, hline, hlog, hdiag⟩ := excepted_effect (fc ||| 0x80#8) code s
    exact ⟨hdiag, hlog, hline, hde, hlen, by simp, by simp, by simp, excepted_sameOutside _ _ _,
      excepted_sameCounters _ _ _, excepted_sameInput _ _ _⟩

/-! ## Broadcasts (41_transport R155, 42_dispatcher R168) -/

theorem unicastOnly_broadcast (s : State) (k : Result State) : unicastOnly 0x00#8 s k = .next s := if_pos rfl

/-- Settles O25: four of the five stop at the broadcast filter, the fifth is a suppressed exception. -/
theorem broadcastOfNonWriteHasNoEffect : Obligations.BroadcastOfNonWriteHasNoEffect := by
  intro ops payload fc s
  have hfiltered : ∀ k, unicastOnly 0x00#8 s k = .next s := unicastOnly_broadcast s
  refine ⟨?rdh, ?rdi, ?rid, ?vid, ?unknown⟩
  case rdh => rw [exec_rdh, hfiltered]
  case rdi => rw [exec_rdi, hfiltered]
  case rid => rw [exec, execRid, hfiltered]
  case vid => rw [exec, execVid, hfiltered]
  case unknown => rw [exec_unknown, raiseExc_broadcast rfl]

/-- Settles O26: of the ways an instruction can end only the silent one is open to unit 0. -/
theorem broadcastIsNeverAnswered : Obligations.BroadcastIsNeverAnswered := by
  intro i s t hu hexec
  cases exec_cases hexec with
  | silent h => exact ⟨h.regFrame.txLog, h.regFrame.line, h.regFrame.diag⟩
  | response _ _ hne _ => exact absurd hu hne
  | exception _ _ hne => exact absurd hu hne

/-! ## Response rows (30_encoding R119; log 10) -/

/-- Every response row but the exception is the emission of its own body. -/
theorem exec_response {i : Instr} (hr : i.isRequest = false) (hne : ∀ u f c, i ≠ .exc u f c) (s : State) :
    exec i s = emitResponse i.unit i.body s := by
  cases i with
  | rdhR | rdiR | wrsR | wrmR | ridR | vidR => rfl
  | exc unit function code => exact absurd rfl (hne unit function code)
  | rdh | rdi | wrs | wrm | rid | vid | unknown => cases hr

theorem emitResponse_own {unit : Byte} {body : List Byte} {s : State} (hown : unit = s.unitAddr)
    (hu : unit ≠ 0x00#8) : emitResponse unit body s = respond body s := if_pos (ownResponse_iff.mpr ⟨hown, hu⟩)

theorem execExc_own {unit function : Byte} {code : ExcCode} {s : State} (hown : unit = s.unitAddr)
    (hu : unit ≠ 0x00#8) : execExc unit function code s = takeException function code s :=
  if_pos (ownResponse_iff.mpr ⟨hown, hu⟩)

/-- A response of another unit, or of unit 0, is not this block's. -/
theorem not_ownResponse {unit : Byte} {s : State} (h : unit ≠ s.unitAddr ∨ unit = 0x00#8) :
    ¬ ownResponse unit s = true := by
  rw [ownResponse_iff]
  rintro ⟨hown, hu⟩
  rcases h with h | h
  · exact h hown
  · exact hu h

/-- Settles O38: the emission of a well-formed row fits the transmit buffer and ends in `sent`; of another unit nothing
is sent. -/
theorem responseRowsSendTheirEncoding : Obligations.ResponseRowsSendTheirEncoding := by
  intro s i hr hne
  rw [exec_response hr hne]
  refine ⟨fun hw hh hown => ⟨?_, by simp [encode]⟩, fun h => if_neg (not_ownResponse h)⟩
  rw [emitResponse_own hown (unit_ne_zero_response hr hw), respond_eq (length_body_response hr hw) hh]

/-- Settles O39: an exception row of this block is the taking of the exception. -/
theorem exceptionRowIsTaken : Obligations.ExceptionRowIsTaken := by
  intro s unit function code
  refine ⟨fun hu hh hown => ⟨?_, ?_⟩, fun h => if_neg (not_ownResponse h)⟩
  · calc exec (.exc unit function code) s
        = takeException function code s := execExc_own hown hu
      _ = .next (excepted function code s) := takeException_eq hh
  · simp [encode, Instr.body, Instr.unit, Instr.function, Instr.payload, hown]

/-! ## Requests -/

/-- How a unicast request that its configuration lets fit ends: one response that begins with this block's address and
the request's function code, after work on the register file; or one exception (42_dispatcher R169, R170). -/
def AnsweredOnce (fc : Byte) (s : State) (o : Result State) : Prop :=
  (∃ u rest, RegSteps s u ∧ rest.head? = some fc ∧ (s.unitAddr :: rest).length + 2 ≤ txMax ∧
    o = respond (s.unitAddr :: rest) u) ∨
  ∃ code, o = takeException (fc ||| 0x80#8) code s

theorem AnsweredOnce.ofRaise {unit fc : Byte} (hu : unit ≠ 0x00#8) (code : ExcCode) (s : State) :
    AnsweredOnce fc s (raiseExc unit fc code s) := .inr ⟨code, raiseExc_unicast hu⟩

theorem AnsweredOnce.ofRespond {fc : Byte} {rest : List Byte} {s u : State} (hs : RegSteps s u)
    (hl : (s.unitAddr :: fc :: rest).length + 2 ≤ txMax) :
    AnsweredOnce fc s (respond (s.unitAddr :: fc :: rest) u) := .inl ⟨u, fc :: rest, hs, rfl, hl, rfl⟩

theorem readBody_fits {unit fc : Byte} {values : List Word} (hl : values.length ≤ 32) :
    (readBody unit fc values).length + 2 ≤ txMax := by
  simp only [readBody, List.length_cons, length_valueBytes, txMax]
  omega

theorem echoBody_fits (unit fc : Byte) (a b : Word) : (echoBody unit fc a b).length + 2 ≤ txMax := by
  simp [echoBody, txMax]

theorem runInBank_iff {bank : Bank} {start count : Word} :
    runInBank bank start count = true ↔
      1 ≤ count.toNat ∧ count.toNat ≤ 32 ∧ start.toNat + count.toNat ≤ bank.size := by
  simp [runInBank, maxRegs, and_assoc]

/-- A read of a run in the bank reads the run and answers it (43_read R180). -/
theorem readFunction_inBank {fc unit : Byte} {bank : Bank} {start count : Word} {s : State}
    (hin : runInBank bank start count = true) :
    readFunction fc bank (.fields start count) unit s =
      andThen (readRun bank start.toNat count.toNat s) fun p => respond (readBody p.2.unitAddr fc p.1) p.2 := by
  rw [readFunction, regRead_inBank s hin]

theorem readFunction_outOfBank {fc unit : Byte} {bank : Bank} {start count : Word} {s : State}
    (hin : runInBank bank start count = false) :
    readFunction fc bank (.fields start count) unit s = raiseExc unit fc .illegalAddress s := by
  rw [readFunction, regRead_outOfBank s hin]

/-! Port events, and so the reads between which they land, may be refused but never fault. -/

theorem portStep_ne_fault (e : PortEvent) (s : State) (f : Fault) : portStep e s ≠ .fault f := by
  cases e with
  | portWrite role bank a v =>
    simp only [portStep, portWrite]
    split
    · split <;> simp
    · simp
  | sample k raw clk =>
    simp only [portStep, staSample]
    split <;> simp

theorem deliver_ne_fault (es : List PortEvent) (s : State) (f : Fault) : deliver es s ≠ .fault f := by
  induction es generalizing s with
  | nil => simp [deliver]
  | cons e es ih =>
    rw [deliver, Ne, andThen_eq_fault, not_or]
    exact ⟨portStep_ne_fault e s f, fun ⟨u, _, hu⟩ => ih u hu⟩

theorem readRun_ne_fault (bank : Bank) (a n : Nat) (s : State) (f : Fault) : readRun bank a n s ≠ .fault f := by
  induction n generalizing a s with
  | zero => simp [readRun]
  | succ n ih =>
    have hgap : (if n = 0 then Host.Outcome.next s else deliverNext s) ≠ (.fault f : Result State) := by
      split
      · simp
      · rw [deliverNext_eq, Ne, andThen_eq_fault, not_or]
        exact ⟨deliver_ne_fault _ s f, by simp⟩
    rw [readRun, Ne, andThen_eq_fault, not_or]
    refine ⟨hgap, fun ⟨u, _, hu⟩ => ?_⟩
    rw [andThen_eq_fault] at hu
    obtain hrun | ⟨p, -, hp⟩ := hu
    · exact ih _ u hrun
    · simp at hp

/-- A read is answered once, unless it is refused for a scheduled event that the environment may not issue. -/
theorem readFunction_answered {fc unit : Byte} {bank : Bank} {ops : TwoFields} {s : State} (hu : unit ≠ 0x00#8) :
    AnsweredOnce fc s (readFunction fc bank ops unit s) ∨
      ¬ schedAdmitted s ∧ ∃ r, readFunction fc bank ops unit s = .refused r := by
  cases ops with
  | badLength payload => exact .inl (.ofRaise hu _ s)
  | fields start count =>
    cases hin : runInBank bank start count with
    | false => exact .inl (readFunction_outOfBank hin ▸ .ofRaise hu _ s)
    | true =>
      obtain ⟨-, hmax, -⟩ := runInBank_iff.mp hin
      rw [readFunction_inBank hin]
      cases hrun : readRun bank start.toNat count.toNat s with
      | next p =>
        obtain ⟨values, u⟩ := p
        have hsteps := RegSteps.ofReadRun hrun
        have hlen := length_readRun hrun
        have hfits : (readBody s.unitAddr fc values).length + 2 ≤ txMax := readBody_fits (by omega)
        rw [andThen_next, hsteps.regFrame.unitAddr]
        exact .inl (.ofRespond hsteps hfits)
      | fault f => exact absurd hrun (readRun_ne_fault _ _ _ _ f)
      | refused r =>
        refine .inr ⟨fun hs => ?_, r, rfl⟩
        obtain ⟨values, u, -, -, -, hnext⟩ := readRun_spec (bank := bank) count.toNat start.toNat s hs
        rw [hnext] at hrun
        cases hrun

theorem answerWrite_unicast {unit : Byte} {body : List Byte} {s : State} (hu : unit ≠ 0x00#8) :
    answerWrite unit body s = respond body s := if_neg hu

theorem AnsweredOnce.ofAnswer {fc unit : Byte} {rest : List Byte} {s u : State} (hu : unit ≠ 0x00#8)
    (hs : RegSteps s u) (hl : (s.unitAddr :: fc :: rest).length + 2 ≤ txMax) :
    AnsweredOnce fc s (answerWrite unit (s.unitAddr :: fc :: rest) u) := by
  rw [answerWrite_unicast hu]
  exact .ofRespond hs hl

theorem AnsweredOnce.ofUnicast {fc unit : Byte} {s : State} {k : Result State} (hu : unit ≠ 0x00#8)
    (h : AnsweredOnce fc s k) : AnsweredOnce fc s (unicastOnly unit s k) := by
  rwa [unicastOnly_of_unicast hu]

/-- Every unicast request is answered once, whatever its operands, unless a read of it is refused. -/
theorem exec_unicast_request {i : Instr} {s : State} (hr : i.isRequest = true) (hu : i.unit ≠ 0x00#8)
    (hident : s.cfg.ident.length ≤ 64) :
    AnsweredOnce i.function s (exec i s) ∨ ¬ schedAdmitted s ∧ ∃ r, exec i s = .refused r := by
  cases i with
  | rdh unit ops =>
    rw [exec_rdh, unicastOnly_of_unicast (unit := unit) hu]
    exact readFunction_answered hu
  | rdi unit ops =>
    rw [exec_rdi, unicastOnly_of_unicast (unit := unit) hu]
    exact readFunction_answered hu
  | wrs unit ops =>
    refine .inl ?_
    cases ops with
    | badLength payload => exact .ofRaise hu _ s
    | fields addr value =>
      cases h : checkWrite s.cfg addr.toNat value with
      | addressError => exact exec_wrs_addressError h unit ▸ .ofRaise hu _ s
      | valueError => exact exec_wrs_valueError h unit ▸ .ofRaise hu _ s
      | ok => exact exec_wrs_ok h unit ▸ .ofAnswer hu (.write _ _ (.refl s)) (echoBody_fits _ _ _ _)
  | wrm unit ops =>
    refine .inl ?_
    cases ops with
    | short payload => exact .ofRaise hu _ s
    | run start count byteCount data =>
      cases h : checkWriteRun s.cfg start count byteCount data with
      | addressError => exact exec_wrm_addressError h unit ▸ .ofRaise hu _ s
      | valueError => exact exec_wrm_valueError h unit ▸ .ofRaise hu _ s
      | ok => exact exec_wrm_ok h unit ▸ .ofAnswer hu (.ofApplyRun _ _ s) (echoBody_fits _ _ _ _)
  | rid unit payload =>
    refine .inl ?_
    by_cases hp : payload = []
    · subst hp
      exact .ofUnicast hu (.ofRespond (.refl s) (identBody_fits hident))
    · exact exec_rid_payload hp unit s ▸ .ofUnicast hu (.ofRaise hu _ s)
  | vid unit payload =>
    refine .inl ?_
    by_cases hp : payload = []
    · subst hp
      exact exec_vid_noPayload unit s ▸
        .ofUnicast hu (.ofRespond (.write _ _ (.refl s)) (identBody_fits hident))
    · exact exec_vid_payload hp unit s ▸ .ofUnicast hu (.ofRaise hu _ s)
  | unknown unit fc payload => exact .inl (.ofRaise hu _ s)
  | rdhR | rdiR | wrsR | wrmR | ridR | vidR | exc => cases hr

/-- While the scheduled events are admitted, nothing is refused. -/
theorem exec_unicast_request_admitted {i : Instr} {s : State} (hr : i.isRequest = true) (hu : i.unit ≠ 0x00#8)
    (hident : s.cfg.ident.length ≤ 64) (hs : schedAdmitted s) : AnsweredOnce i.function s (exec i s) :=
  (exec_unicast_request hr hu hident).resolve_right fun h => h.1 hs

/-- How a broadcast request ends: after work on the register file, with nothing sent (42_dispatcher R170). -/
def EndsSilently (s : State) (o : Result State) : Prop := ∃ u, RegSteps s u ∧ o = .next u

theorem EndsSilently.ofRaise {unit : Byte} (hu : unit = 0x00#8) (fc : Byte) (code : ExcCode) (s : State) :
    EndsSilently s (raiseExc unit fc code s) := ⟨s, .refl s, raiseExc_broadcast hu⟩

theorem EndsSilently.ofUnicastOnly {unit : Byte} (hu : unit = 0x00#8) (s : State) (k : Result State) :
    EndsSilently s (unicastOnly unit s k) := ⟨s, .refl s, if_pos hu⟩

theorem EndsSilently.ofAnswer {unit : Byte} {body : List Byte} {s u : State} (hu : unit = 0x00#8)
    (hs : RegSteps s u) : EndsSilently s (answerWrite unit body u) := ⟨u, hs, if_pos hu⟩

/-- Every broadcast request ends silently, whatever its operands. -/
theorem exec_broadcast_request {i : Instr} (s : State) (hr : i.isRequest = true) (hu : i.unit = 0x00#8) :
    EndsSilently s (exec i s) := by
  cases i with
  | rdh | rdi | rid | vid => exact .ofUnicastOnly hu s _
  | wrs unit ops =>
    cases ops with
    | badLength payload => exact .ofRaise hu _ _ s
    | fields addr value =>
      cases h : checkWrite s.cfg addr.toNat value with
      | addressError => exact exec_wrs_addressError h unit ▸ .ofRaise hu _ _ s
      | valueError => exact exec_wrs_valueError h unit ▸ .ofRaise hu _ _ s
      | ok => exact exec_wrs_ok h unit ▸ .ofAnswer hu (.write _ _ (.refl s))
  | wrm unit ops =>
    cases ops with
    | short payload => exact .ofRaise hu _ _ s
    | run start count byteCount data =>
      cases h : checkWriteRun s.cfg start count byteCount data with
      | addressError => exact exec_wrm_addressError h unit ▸ .ofRaise hu _ _ s
      | valueError => exact exec_wrm_valueError h unit ▸ .ofRaise hu _ _ s
      | ok => exact exec_wrm_ok h unit ▸ .ofAnswer hu (.ofApplyRun _ _ s)
  | unknown unit fc payload => exact .ofRaise hu _ _ s
  | rdhR | rdiR | wrsR | wrmR | ridR | vidR | exc => cases hr

/-! ## The transmitter that never reports idle (70_reset R331), and responses that do not fit (10_state R29) -/

theorem AnsweredOnce.eq_fault {fc : Byte} {s : State} {o : Result State} (h : AnsweredOnce fc s o)
    (hh : s.txHang = true) : o = .fault .txNeverIdle := by
  rcases h with ⟨u, rest, hs, -, hl, rfl⟩ | ⟨code, rfl⟩
  · exact respond_eq_fault hl (hs.regFrame.txHang.trans hh)
  · exact takeException_eq_fault hh

/-- Settles O19: an own response row and a unicast request both reach the wait, which never ends. -/
theorem emissionWaitsForTheTransmitter : Obligations.EmissionWaitsForTheTransmitter := by
  intro s i hh
  refine ⟨fun hr hw hown => ?_, fun hr hu hident hs => (exec_unicast_request_admitted hr hu hident hs).eq_fault hh⟩
  have hu := unit_ne_zero_response hr hw
  by_cases hexc : ∃ u f c, i = .exc u f c
  · obtain ⟨unit, function, code, rfl⟩ := hexc
    calc exec (.exc unit function code) s
        = takeException function code s := execExc_own hown hu
      _ = .fault .txNeverIdle := takeException_eq_fault hh
  · rw [exec_response hr (by simpa using hexc), emitResponse_own hown hu,
      respond_eq_fault (length_body_response hr hw) hh]

theorem respond_oversize {body : List Byte} {s : State} (hl : ¬ body.length + 2 ≤ txMax) :
    respond body s = .fault .txBufferOverrun := if_neg hl

/-- Settles O22: a body that does not fit stops `respond`; an exception response always fits, so no EXC row is meant. -/
theorem oversizeResponsesStop : Obligations.OversizeResponsesStop := by
  intro s
  refine ⟨fun i hr hown hu hlong => ?_, fun unit hu hlong => ?_⟩
  · have hbody : ¬ i.body.length + 2 ≤ txMax := by simpa [encode] using hlong
    have hexc : ∀ u f c, i ≠ .exc u f c := by
      rintro u f c rfl
      simp [Instr.body, Instr.payload, txMax] at hbody
    rw [exec_response hr hexc, emitResponse_own hown hu, respond_oversize hbody]
  · have hbody : ∀ fc, ¬ (identBody s.unitAddr fc s.cfg.ident).length + 2 ≤ txMax := by
      intro fc
      simp only [identBody, List.length_cons, txMax]
      omega
    constructor
    · rw [exec_rid_noPayload, unicastOnly_of_unicast hu, respond_oversize (hbody _)]
    · rw [exec_vid_noPayload, unicastOnly_of_unicast hu, respond_oversize (hbody _)]

/-! ## Each unicast request is answered once -/

/-- A response is counted once (42_dispatcher R170). -/
theorem framesSent_sent (body : List Byte) (s : State) :
    (sent body s).diag.framesSent = satInc s.cfg.diagW s.diag.framesSent := by
  simp [Diag.bump]

theorem AnsweredOnce.eq_next {fc : Byte} {s : State} {o : Result State} (h : AnsweredOnce fc s o)
    (hh : s.txHang = false) :
    ∃ t rest, o = .next t ∧ t.txLog = s.txLog ++ [withCrc (s.unitAddr :: rest)] ∧
      t.diag.framesSent = satInc s.cfg.diagW s.diag.framesSent ∧
      (rest.head? = some fc ∨ ∃ code : ExcCode, rest = [fc ||| 0x80#8, code.byte]) := by
  rcases h with ⟨u, rest, hs, hhead, hl, rfl⟩ | ⟨code, rfl⟩
  · have frame := hs.regFrame
    refine ⟨_, rest, respond_eq hl (frame.txHang.trans hh), ?_, ?_, .inl hhead⟩
    · simp [frame.txLog]
    · rw [framesSent_sent, frame.cfg, frame.diag]
  · exact ⟨_, [fc ||| 0x80#8, code.byte], takeException_eq hh, by simp, by simp, .inr ⟨code, rfl⟩⟩

/-- Settles O21: a broadcast is silent work on the register file, a unicast request is answered once. -/
theorem unicastRequestsAreAnsweredOnce : Obligations.UnicastRequestsAreAnsweredOnce := by
  intro s i hr hh hident hs
  by_cases hu : i.unit = 0x00#8
  · obtain ⟨u, hsteps, hexec⟩ := exec_broadcast_request s hr hu
    have frame := hsteps.regFrame
    exact ⟨u, hexec, fun _ => ⟨frame.txLog, frame.line, frame.diag⟩, fun hne => absurd hu hne⟩
  · obtain ⟨t, rest, hexec, hlog, hcount, hrest⟩ := (exec_unicast_request_admitted hr hu hident hs).eq_next hh
    exact ⟨t, hexec, fun h => absurd h hu, fun _ => ⟨rest, hlog, hcount, hrest⟩⟩

end Sys2Proof.Machine
end

section
/-! The read functions (43_read): a run in the bank is answered with its values, any other read raises. -/

namespace Sys2Proof.Machine

/-! ## The operation under them: `REG.READ` (46_regmap R218) -/

/-- Settles O45: outside the bank by `regRead_outOfBank`, inside it by `readRun_spec`; with nothing scheduled no event is
delivered. -/
theorem regReadGivesTheRun : Obligations.RegReadGivesTheRun := by
  intro s bank start count
  refine ⟨fun hout => regRead_outOfBank s (runInBank_eq_false hout), fun hmin hmax hin hs => ?_⟩
  obtain ⟨values, u, hlen, hvalues, hu, hrun⟩ := readRun_spec (bank := bank) count.toNat start.toNat s hs
  refine ⟨values, u, ?read, hlen, hvalues, hu, ?nothing⟩
  case read =>
    rw [regRead_inBank s (runInBank_eq_true hmin hmax hin), hrun]
    rfl
  case nothing =>
    intro hempty
    simpa [hempty, deliver] using hu.symm

/-! ## Reads in the bank (R180 to R182) -/

/-- A read of a run in the bank sends one response with the run's values, each as it stands when its turn comes. -/
theorem readFunction_answers {fc unit : Byte} {bank : Bank} {start count : Word} {s : State} (hh : s.txHang = false)
    (hs : schedAdmitted s) (hin : runInBank bank start count = true) :
    ∃ values u, values.length = count.toNat ∧
      (∀ i < count.toNat, ∃ si, deliver (s.sched.take i).flatten s = .next si ∧
        values[i]? = some (si.readReg bank (start.toNat + i))) ∧
      deliver (s.sched.take (count.toNat - 1)).flatten s = .next u ∧
      readFunction fc bank (.fields start count) unit s =
        .next (sent (s.unitAddr :: fc :: BitVec.ofNat 8 (2 * count.toNat) :: valueBytes values)
          (u.withSched (s.sched.drop (count.toNat - 1)))) := by
  obtain ⟨values, u, hlen, hvalues, hu, hrun⟩ := readRun_spec (bank := bank) count.toNat start.toNat s hs
  obtain ⟨-, hmax, -⟩ := runInBank_iff.mp hin
  have frame := (RegSteps.ofReadRun hrun).regFrame
  have hfits : (readBody s.unitAddr fc values).length + 2 ≤ txMax := readBody_fits (by omega)
  refine ⟨values, u, hlen, hvalues, hu, ?_⟩
  rw [readFunction_inBank hin, hrun, andThen_next, frame.unitAddr, respond_eq hfits (frame.txHang.trans hh),
    readBody, hlen]

/-- Settles O28: `RDH` is the read function on the holding bank. -/
theorem readHoldingAnswersTheRun : Obligations.ReadHoldingAnswersTheRun := by
  intro s unit start count hu hh hs hmin hmax hin
  rw [exec_rdh, unicastOnly_of_unicast hu]
  exact readFunction_answers hh hs (runInBank_eq_true hmin hmax hin)

/-- Settles O29: `RDI` is the read function on the input bank. -/
theorem readInputAnswersTheRun : Obligations.ReadInputAnswersTheRun := by
  intro s unit start count hu hh hs hmin hmax hin
  rw [exec_rdi, unicastOnly_of_unicast hu]
  exact readFunction_answers hh hs (runInBank_eq_true hmin hmax hin)

/-! ## Reads that raise (R183) -/

/-- A read of no register, of more than 32 or beyond the bank, unicast or broadcast. -/
theorem unicastOnly_readFunction_outOfBank {fc unit : Byte} {bank : Bank} {start count : Word} {s : State}
    (hh : s.txHang = false)
    (hout : count.toNat < 1 ∨ 32 < count.toNat ∨ bank.size < start.toNat + count.toNat) :
    unicastOnly unit s (readFunction fc bank (.fields start count) unit s) =
      .next (raised unit fc .illegalAddress s) := by
  rw [readFunction_outOfBank (runInBank_eq_false hout), unicastOnly_raiseExc, raiseExc_eq hh]

/-- A read whose frame has the wrong length, unicast or broadcast. -/
theorem unicastOnly_readFunction_badLength {fc unit : Byte} {bank : Bank} {payload : List Byte} {s : State}
    (hh : s.txHang = false) :
    unicastOnly unit s (readFunction fc bank (.badLength payload) unit s) =
      .next (raised unit fc .illegalValue s) := by
  rw [readFunction, unicastOnly_raiseExc, raiseExc_eq hh]

/-- Settles O30: both read functions share the two ways to raise. -/
theorem badReadsRaise : Obligations.BadReadsRaise := by
  intro s unit hh
  refine ⟨fun payload => ⟨?_, ?_⟩, fun start count hout => ?_, fun start count hout => ?_⟩
  · exact unicastOnly_readFunction_badLength hh
  · exact unicastOnly_readFunction_badLength hh
  · exact unicastOnly_readFunction_outOfBank hh hout
  · exact unicastOnly_readFunction_outOfBank hh hout

end Sys2Proof.Machine
end

section
/-! The write functions (44_write) and the operations under them (46_regmap R220 to R222). -/

namespace Sys2Proof.Machine

/-! ## `REG.CHECKWRITE` and `REG.APPLYWRITE` -/

/-- Settles O43: the three answers are `checkWrite_iff`, and a writable register lies inside the bank. -/
theorem checkWriteAnswers : Obligations.CheckWriteAnswers := by
  intro c a v
  obtain ⟨haddress, hvalue, hok⟩ := checkWrite_iff c a v
  refine ⟨haddress, hvalue, hok, fun hout => haddress.mpr fun hw => ?_⟩
  have hin : a < 48 := lt_of_writable hw
  omega

/-- Settles O44: a bus write is `written`, which is read at its own register and at every other. -/
theorem applyWriteStoresAndCounts : Obligations.ApplyWriteStoresAndCounts := by
  intro s a v ha
  obtain ⟨hvalue, hcount⟩ := written_at v s ha
  rw [applyWrite_eq_written]
  refine ⟨fun b => ?holding, fun b => rfl, fun b => ?counter⟩
  case holding =>
    by_cases hb : b = a
    · rw [hb, hvalue, if_pos rfl]
    · rw [(written_other v s hb).1, if_neg hb]
  case counter =>
    by_cases hb : b = a
    · simp only [hb, hcount, true_and]
    · rw [(written_other v s hb).2, if_neg fun h => hb h.1]

/-! ## Writes of one register (44_write R191 to R193) -/

/-- What a bus write leaves alone. -/
@[simp] theorem written_frame (a : Nat) (v : Word) (s : State) :
    (written a v s).cfg = s.cfg ∧ (written a v s).txHang = s.txHang ∧ (written a v s).unitAddr = s.unitAddr ∧
    (written a v s).input = s.input ∧ (written a v s).win = s.win ∧ (written a v s).diag = s.diag ∧
    (written a v s).sched = s.sched := by
  simp [written]

/-- An accepted write ends in `written`, and in its echo when it was a unicast. -/
theorem exec_wrs_accepted {s : State} {unit : Byte} {addr value : Word} (hh : s.txHang = false)
    (h : checkWrite s.cfg addr.toNat value = .ok) :
    exec (.wrs unit (.fields addr value)) s =
      if unit = 0x00#8 then .next (written addr.toNat value s)
      else .next (sent (echoBody s.unitAddr 0x06#8 addr value) (written addr.toNat value s)) := by
  rw [exec_wrs_ok h, answerWrite_eq (echoBody_fits _ _ _ _) (by simpa using hh)]

/-- Settles O31: a writable register and an allowed value pass `REG.CHECKWRITE`. -/
theorem acceptedWriteSingleStoresAndEchoes : Obligations.AcceptedWriteSingleStoresAndEchoes := by
  intro s unit addr value hh hw hv
  rw [exec_wrs_accepted hh ((checkWrite_iff _ _ _).2.2.mpr ⟨hw, hv⟩)]
  exact ⟨fun hu => if_neg hu, fun hu => if_pos hu⟩

/-- Settles O32: each clause is one answer of `REG.CHECKWRITE`, or the wrong length. -/
theorem rejectedWriteSingleRaises : Obligations.RejectedWriteSingleRaises := by
  intro s unit hh
  refine ⟨fun payload => ?_, fun addr value hw => ?_, fun addr value hw hv => ?_⟩
  · rw [exec_wrs_badLength, raiseExc_eq hh]
  · rw [exec_wrs_addressError ((checkWrite_iff _ _ _).1.mpr hw), raiseExc_eq hh]
  · rw [exec_wrs_valueError ((checkWrite_iff _ _ _).2.1.mpr ⟨hw, hv⟩), raiseExc_eq hh]

/-- A read of one register answers its value; nothing can land in between. -/
theorem exec_rdh_one {s : State} {reader : Byte} {addr : Word} (hu : reader ≠ 0x00#8) (hh : s.txHang = false)
    (ha : addr.toNat < holdingSize) :
    exec (.rdh reader (.fields addr 1#16)) s =
      .next (sent (readBody s.unitAddr 0x03#8 [s.readReg .holding addr.toNat]) s) := by
  have hin : runInBank .holding addr 1#16 = true := runInBank_eq_true (by decide) (by decide) ha
  have hrun : readRun .holding addr.toNat 1 s = .next ([s.readReg .holding addr.toNat], s) := rfl
  have hfits : (readBody s.unitAddr 0x03#8 [s.readReg .holding addr.toNat]).length + 2 ≤ txMax :=
    readBody_fits (by simp)
  calc exec (.rdh reader (.fields addr 1#16)) s
      = readFunction 0x03#8 .holding (.fields addr 1#16) reader s := unicastOnly_of_unicast hu
    _ = andThen (readRun .holding addr.toNat 1 s) fun p => respond (readBody p.2.unitAddr 0x03#8 p.1) p.2 :=
        readFunction_inBank hin
    _ = respond (readBody s.unitAddr 0x03#8 [s.readReg .holding addr.toNat]) s := by rw [hrun, andThen_next]
    _ = _ := respond_eq hfits hh

/-- Settles O35: the write leaves the value in the register, its echo leaves the register alone, and the read answers
what stands there. -/
theorem readReturnsTheWrittenValue : Obligations.ReadReturnsTheWrittenValue := by
  intro s unit reader addr value hh hu hw hv
  have haddr := lt_of_writable hw
  obtain ⟨t, hwrite, hhang, hown, hvalue⟩ : ∃ t, exec (.wrs unit (.fields addr value)) s = .next t ∧
      t.txHang = false ∧ t.unitAddr = s.unitAddr ∧ t.readReg .holding addr.toNat = value := by
    have hstored := (written_at value s haddr).1
    rw [exec_wrs_accepted hh ((checkWrite_iff _ _ _).2.2.mpr ⟨hw, hv⟩)]
    split
    · exact ⟨_, rfl, by simpa using hh, by simp, hstored⟩
    · have hkept : (sent (echoBody s.unitAddr 0x06#8 addr value) (written addr.toNat value s)).holding =
          (written addr.toNat value s).holding := by simp
      exact ⟨_, rfl, by simpa using hh, by simp, by rw [State.readReg_holding_congr hkept, hstored]⟩
  refine ⟨t, _, hwrite, exec_rdh_one hu hhang haddr, ?_⟩
  simp [hvalue, hown, readBody, valueBytes]

/-! ## Writes of a run (44_write R195 to R198) -/

section
variable {c : Config} {start count : Word} {byteCount : Byte} {data : List Byte}

/-- The first check that fails decides (R196 (2)). -/
theorem checkWriteRun_outOfBank (hin : ¬ (1 ≤ count.toNat ∧ count.toNat ≤ 32 ∧ start.toNat + count.toNat ≤ 48)) :
    checkWriteRun c start count byteCount data = .addressError :=
  if_neg fun h => hin (runInBank_iff.mp h)

/-- The byte count and the length come next (R196 (3)). -/
theorem checkWriteRun_missized (hin : runInBank .holding start count = true)
    (hsize : ¬ (byteCount.toNat = 2 * count.toNat ∧ data.length = 2 * count.toNat)) :
    checkWriteRun c start count byteCount data = .valueError := by
  rw [checkWriteRun, if_pos hin, if_neg hsize]

/-- The registers and their values come last (R196 (4), (5)). -/
theorem checkWriteRun_sized (hin : runInBank .holding start count = true)
    (hsize : byteCount.toNat = 2 * count.toNat ∧ data.length = 2 * count.toNat) :
    checkWriteRun c start count byteCount data = checkRun c start.toNat (bytesValues data) := by
  rw [checkWriteRun, if_pos hin, if_pos hsize]

/-- A run that passes the checks lies in the bank, and its data hold that many values (R196). -/
theorem checkWriteRun_ok (h : checkWriteRun c start count byteCount data = .ok) :
    runInBank .holding start count = true ∧ (bytesValues data).length = count.toNat := by
  unfold checkWriteRun at h
  split at h
  · rename_i hin
    split at h
    · rename_i hsize
      exact ⟨hin, by rw [length_bytesValues, hsize.2]; omega⟩
    · cases h
  · cases h

end

/-- A run with a wrong value, all of it writable (R196 (5)). -/
theorem checkRun_valueError {c : Config} {a : Nat} {vs : List Word} (hw : ∀ i < vs.length, writable c (a + i))
    (hv : ¬ ∀ i v, vs[i]? = some v → valueAllowed c (a + i) v) : checkRun c a vs = .valueError := by
  obtain ⟨haddress, hok⟩ := checkRun_iff c a vs
  cases h : checkRun c a vs with
  | addressError =>
    obtain ⟨i, hi, hn⟩ := haddress.mp h
    exact absurd (hw i hi) hn
  | ok => exact absurd (fun i v hiv => (hok.mp h i v hiv).2) hv
  | valueError => rfl

/-- Settles O33: the run passes the checks, `applyRun_spec` says what it writes, and the answer fits. -/
theorem acceptedWriteMultipleWritesTheRun : Obligations.AcceptedWriteMultipleWritesTheRun := by
  intro s unit start count byteCount values hh hmin hmax hin hbytes hlen hall
  have hbank : runInBank .holding start count = true := runInBank_eq_true hmin hmax hin
  have hsize : byteCount.toNat = 2 * count.toNat ∧ (valueBytes values).length = 2 * count.toNat :=
    ⟨hbytes, by rw [length_valueBytes, hlen]⟩
  have hcheck : checkWriteRun s.cfg start count byteCount (valueBytes values) = .ok := by
    rw [checkWriteRun_sized hbank hsize, bytesValues_valueBytes]
    exact (checkRun_iff _ _ _).2.mpr hall
  obtain ⟨hvalues, hcounts, hrest⟩ := applyRun_spec start.toNat values s (by rw [hlen]; exact hin)
  refine ⟨applyRun start.toNat values s, hvalues, by simpa only [hlen] using hcounts, hrest, ?_⟩
  rw [exec_wrm_ok hcheck, bytesValues_valueBytes, answerWrite_eq (echoBody_fits _ _ _ _) (by simpa using hh)]
  rfl

/-- Settles O34: the clauses are the checks of `checkWriteRun` in their order. -/
theorem rejectedWriteMultipleRaises : Obligations.RejectedWriteMultipleRaises := by
  intro s unit hh
  refine ⟨fun payload => by rw [exec_wrm_short, raiseExc_eq hh], ?_⟩
  intro start count byteCount data inRange sized allWritable allAllowed
  have hbank : inRange → runInBank .holding start count = true := fun h => runInBank_iff.mpr h
  have hlen : sized → (bytesValues data).length = count.toNat := fun h => by rw [length_bytesValues, h.2]; omega
  refine ⟨fun hin => ?_, fun hin hsize => ?_, fun hin hsize hw => ?_, fun hin hsize hw hv => ?_⟩
  · rw [exec_wrm_addressError (checkWriteRun_outOfBank hin), raiseExc_eq hh]
  · rw [exec_wrm_valueError (checkWriteRun_missized (hbank hin) hsize), raiseExc_eq hh]
  · have hcheck : checkWriteRun s.cfg start count byteCount data = .addressError := by
      rw [checkWriteRun_sized (hbank hin) hsize, (checkRun_iff _ _ _).1, hlen hsize]
      simpa [allWritable] using hw
    rw [exec_wrm_addressError hcheck, raiseExc_eq hh]
  · have hcheck : checkWriteRun s.cfg start count byteCount data = .valueError := by
      rw [checkWriteRun_sized (hbank hin) hsize]
      exact checkRun_valueError (by rw [hlen hsize]; exact hw) hv
    rw [exec_wrm_valueError hcheck, raiseExc_eq hh]

/-! ## The Identify register (45_ident R208 to R210) -/

theorem identifyAddr_lt {c : Config} (h : admittedConfig c = true) : c.identifyAddr < holdingSize := by
  obtain ⟨-, hidentify, -⟩ := admittedConfig_parts h
  by_contra hn
  have hnone : c.attr .holding c.identifyAddr = none := Vector.getElem?_eq_none (Nat.le_of_not_lt hn)
  simp [Config.identifyOk, hnone] at hidentify

/-- The Identify register takes the value VID writes, from the bus (45_ident R209, 46_regmap R217). -/
theorem checkWrite_identify {c : Config} (h : admittedConfig c = true) :
    checkWrite c c.identifyAddr c.identify41Value = .ok := by
  obtain ⟨hmap, hidentify, -⟩ := admittedConfig_parts h
  cases hattr : c.attr .holding c.identifyAddr with
  | none => simp [Config.identifyOk, hattr] at hidentify
  | some r =>
    simp only [Config.identifyOk, hattr, Bool.and_eq_true] at hidentify
    obtain ⟨-, hcommand, hpolicy⟩ := hidentify
    have hok : r.holdingOk = true := by
      simp only [Config.regmapOk, Bool.and_eq_true, List.all_eq_true] at hmap
      exact hmap.1.1 r (Vector.mem_toList_iff.mpr (Vector.mem_of_getElem? hattr))
    have haccess : r.access = .rw := by
      simp only [RegAttr.holdingOk, hcommand, if_true, Bool.and_eq_true, beq_iff_eq] at hok
      exact hok.2.1
    have haccepts : policyAccepts r.policy c.identify41Value = true := by
      cases hp : r.policy with
      | any => rfl
      | enum allowed => simpa [policyAccepts, hp] using hpolicy
      | range lo hi => simp [hp] at hpolicy
    simp only [checkWrite, hattr, haccess, haccepts, if_true]

/-- An admitted `IDENT` has at most 64 bytes (30_encoding R102). -/
theorem length_ident_le {c : Config} (h : admittedConfig c = true) : c.ident.length ≤ 64 := by
  obtain ⟨-, -, -, -, hline, -⟩ := admittedConfig_parts h
  simp only [Config.lineOk, Bool.and_eq_true, decide_eq_true_eq] at hline
  exact hline.2

theorem written_identify {s : State} (h : admittedConfig s.cfg = true) :
    written s.cfg.identifyAddr s.cfg.identify41Value s =
      { s with
        holding := s.holding.setIfInBounds s.cfg.identifyAddr s.cfg.identify41Value
        wsc := s.wsc.setIfInBounds s.cfg.identifyAddr ((s.readWsc s.cfg.identifyAddr + 1) % 2 ^ s.cfg.wscW) } := by
  obtain ⟨-, hidentify, -⟩ := admittedConfig_parts h
  rw [written, if_pos (identify_isCommand hidentify)]

/-- Settles O37: `VID` writes the Identify register and answers; a broadcast `WRS` passes the checks there and makes the
same write. -/
theorem vendorIdentifyWritesAndAnswers : Obligations.VendorIdentifyWritesAndAnswers := by
  intro s unit hu hh hconfig
  have hident := length_ident_le hconfig
  rw [← written_identify hconfig]
  refine ⟨?vid, ?wrs, fun payload hp => ?payload⟩
  case vid =>
    rw [exec_vid_noPayload, unicastOnly_of_unicast hu, respond_eq (identBody_fits hident) (by simpa using hh), identBody]
  case wrs =>
    have haddr : (BitVec.ofNat 16 s.cfg.identifyAddr).toNat = s.cfg.identifyAddr := by
      have hlt : s.cfg.identifyAddr < 48 := identifyAddr_lt hconfig
      rw [BitVec.toNat_ofNat]
      omega
    have hcheck : checkWrite s.cfg (BitVec.ofNat 16 s.cfg.identifyAddr).toNat s.cfg.identify41Value = .ok := by
      rw [haddr, checkWrite_identify hconfig]
    rw [exec_wrs_accepted hh hcheck, if_pos rfl, haddr]
  case payload => rw [exec_vid_payload hp, unicastOnly_raiseExc, raiseExc_eq hh]

/-! ## Requests and their response rows (30_encoding R93) -/

/-- A read of a run in the bank with nothing scheduled ends in its response row. -/
theorem readFunction_eq_emitResponse {fc unit : Byte} {bank : Bank} {start count : Word} {s : State}
    (hown : unit = s.unitAddr) (hu : unit ≠ 0x00#8) (hsched : s.sched = [])
    (hin : runInBank bank start count = true) :
    unicastOnly unit s (readFunction fc bank (.fields start count) unit s) =
      emitResponse unit
        (readBody unit fc ((List.range count.toNat).map fun i => s.readReg bank (start.toNat + i))) s := by
  rw [unicastOnly_of_unicast hu, emitResponse_own hown hu, readFunction_inBank hin, readRun_eq _ _ hsched,
    andThen_next, hown]

/-- Settles O40: both sides are the same response from the same state. -/
theorem requestsEndInTheirResponseRows : Obligations.RequestsEndInTheirResponseRows := by
  intro s unit hown hu
  refine ⟨?rdh, ?rdi, ?wrs, ?wrm, ?rid, ?vid, ?unknown⟩
  case rdh => exact fun start count => readFunction_eq_emitResponse hown hu
  case rdi => exact fun start count => readFunction_eq_emitResponse hown hu
  case wrs =>
    intro addr value hcheck
    rw [exec_wrs_ok hcheck, answerWrite_unicast hu, ← hown]
    exact (emitResponse_own (by simpa using hown) hu).symm
  case wrm =>
    intro start count byteCount data hcheck
    rw [exec_wrm_ok hcheck, answerWrite_unicast hu, ← hown]
    exact (emitResponse_own (by simpa using hown) hu).symm
  case rid =>
    rw [exec_rid_noPayload, unicastOnly_of_unicast hu, ← hown]
    exact (emitResponse_own hown hu).symm
  case vid =>
    rw [exec_vid_noPayload, unicastOnly_of_unicast hu, ← hown]
    exact (emitResponse_own (by simpa using hown) hu).symm
  case unknown =>
    intro fc payload
    rw [exec_unknown, raiseExc_unicast hu]
    exact (execExc_own hown hu).symm

end Sys2Proof.Machine
end

section
/-! What an instruction leaves alone (20_memory R71, R72). `exec_cases` says that an instruction works on the register file
and then answers; here the work is told by instruction. -/

namespace Sys2Proof.Machine

/-! ## The work of each instruction, and its answer -/

/-- What each instruction can do to the register file before it answers. -/
inductive Work (s : State) : Instr → State → Prop where
  | none (i : Instr) : Work s i s
  | readHolding {unit : Byte} {ops : TwoFields} {a n : Nat} {vs : List Word} {u : State}
      (h : readRun .holding a n s = .next (vs, u)) : Work s (.rdh unit ops) u
  | readInput {unit : Byte} {ops : TwoFields} {a n : Nat} {vs : List Word} {u : State}
      (h : readRun .input a n s = .next (vs, u)) : Work s (.rdi unit ops) u
  | writeOne (unit : Byte) (addr value : Word) : Work s (.wrs unit (.fields addr value)) (written addr.toNat value s)
  | writeRun {unit : Byte} {start count : Word} {byteCount : Byte} {data : List Byte}
      (h : checkWriteRun s.cfg start count byteCount data = .ok) :
      Work s (.wrm unit (.run start count byteCount data)) (applyRun start.toNat (bytesValues data) s)
  | identify {unit : Byte} (hu : unit ≠ 0x00#8) :
      Work s (.vid unit []) (written s.cfg.identifyAddr s.cfg.identify41Value s)

/-- How an instruction of this unit address answers after its work: not at all, by one frame, or by an exception. -/
inductive Answers (unit : Byte) (u : State) : State → Prop where
  | silent : Answers unit u u
  | response (body : List Byte) (hu : unit ≠ 0x00#8) : Answers unit u (sent body u)
  | exception (function : Byte) (code : ExcCode) (hu : unit ≠ 0x00#8) : Answers unit u (excepted function code u)

theorem Answers.ofNext {unit : Byte} {u t : State} (h : (.next u : Result State) = .next t) : Answers unit u t :=
  Host.Outcome.next.inj h ▸ .silent

theorem Answers.ofRespond {unit : Byte} {body : List Byte} {u t : State} (hu : unit ≠ 0x00#8)
    (h : respond body u = .next t) : Answers unit u t :=
  (respond_eq_next h).1 ▸ .response body hu

theorem Answers.ofRaise {unit fc : Byte} {code : ExcCode} {u t : State} (h : raiseExc unit fc code u = .next t) :
    Answers unit u t := by
  obtain rfl := raiseExc_eq_next h
  unfold raised
  split
  · exact .silent
  · rename_i hu
    exact .exception _ _ hu

theorem Answers.ofAnswer {unit : Byte} {body : List Byte} {u t : State} (h : answerWrite unit body u = .next t) :
    Answers unit u t := by
  unfold answerWrite at h
  split at h
  · exact .ofNext h
  · rename_i hu
    exact .ofRespond hu h

theorem Answers.ofEmit {unit : Byte} {body : List Byte} {u t : State} (h : emitResponse unit body u = .next t) :
    Answers unit u t := by
  unfold emitResponse at h
  split at h
  · rename_i hown
    exact .ofRespond (ownResponse_iff.mp hown).2 h
  · exact .ofNext h

/-- What a function that is filtered for broadcasts answers. -/
theorem unicastOnly_eq_next {unit : Byte} {s t : State} {k : Result State} (h : unicastOnly unit s k = .next t) :
    t = s ∨ unit ≠ 0x00#8 ∧ k = .next t := by
  unfold unicastOnly at h
  split at h
  · exact .inl (Host.Outcome.next.inj h).symm
  · rename_i hu
    exact .inr ⟨hu, h⟩

/-- A read that answers a next state: its run is read, or an exception is raised. -/
theorem readFunction_eq_next {fc unit : Byte} {bank : Bank} {ops : TwoFields} {s t : State} (hu : unit ≠ 0x00#8)
    (h : readFunction fc bank ops unit s = .next t) :
    Answers unit s t ∨ ∃ a n vs u, readRun bank a n s = .next (vs, u) ∧ Answers unit u t := by
  cases ops with
  | badLength payload => exact .inl (.ofRaise h)
  | fields start count =>
    cases hin : runInBank bank start count with
    | false => exact .inl (.ofRaise (readFunction_outOfBank hin ▸ h))
    | true =>
      rw [readFunction_inBank hin] at h
      obtain ⟨⟨vs, u⟩, hrun, hrespond⟩ := andThen_eq_next.mp h
      exact .inr ⟨start.toNat, count.toNat, vs, u, hrun, .ofRespond hu hrespond⟩

/-- Every instruction that answers a next state does its work and then answers. -/
theorem exec_work {i : Instr} {s t : State} (h : exec i s = .next t) : ∃ u, Work s i u ∧ Answers i.unit u t := by
  have nothing : ∀ {i : Instr}, Answers i.unit s t → ∃ u, Work s i u ∧ Answers i.unit u t := fun ha =>
    ⟨s, .none _, ha⟩
  cases i with
  | rdh unit ops =>
    obtain rfl | ⟨hu, hread⟩ := unicastOnly_eq_next h
    · exact nothing .silent
    · obtain hraise | ⟨a, n, vs, u, hrun, ha⟩ := readFunction_eq_next hu hread
      · exact nothing hraise
      · exact ⟨u, .readHolding hrun, ha⟩
  | rdi unit ops =>
    obtain rfl | ⟨hu, hread⟩ := unicastOnly_eq_next h
    · exact nothing .silent
    · obtain hraise | ⟨a, n, vs, u, hrun, ha⟩ := readFunction_eq_next hu hread
      · exact nothing hraise
      · exact ⟨u, .readInput hrun, ha⟩
  | wrs unit ops =>
    cases ops with
    | badLength payload => exact nothing (.ofRaise h)
    | fields addr value =>
      cases hcheck : checkWrite s.cfg addr.toNat value with
      | addressError => exact nothing (.ofRaise (exec_wrs_addressError hcheck unit ▸ h))
      | valueError => exact nothing (.ofRaise (exec_wrs_valueError hcheck unit ▸ h))
      | ok => exact ⟨_, .writeOne unit addr value, .ofAnswer (exec_wrs_ok hcheck unit ▸ h)⟩
  | wrm unit ops =>
    cases ops with
    | short payload => exact nothing (.ofRaise h)
    | run start count byteCount data =>
      cases hcheck : checkWriteRun s.cfg start count byteCount data with
      | addressError => exact nothing (.ofRaise (exec_wrm_addressError hcheck unit ▸ h))
      | valueError => exact nothing (.ofRaise (exec_wrm_valueError hcheck unit ▸ h))
      | ok => exact ⟨_, .writeRun hcheck, .ofAnswer (exec_wrm_ok hcheck unit ▸ h)⟩
  | rid unit payload =>
    obtain rfl | ⟨hu, hk⟩ := unicastOnly_eq_next h
    · exact nothing .silent
    · split at hk
      · exact nothing (.ofRespond hu hk)
      · exact nothing (.ofRaise hk)
  | vid unit payload =>
    by_cases hp : payload = []
    · subst hp
      obtain rfl | ⟨hu, hk⟩ := unicastOnly_eq_next (exec_vid_noPayload unit s ▸ h)
      · exact nothing .silent
      · exact ⟨_, .identify hu, .ofRespond hu hk⟩
    · rw [exec_vid_payload hp, unicastOnly_raiseExc] at h
      exact nothing (.ofRaise h)
  | unknown unit fc payload => exact nothing (.ofRaise h)
  | exc unit function code =>
    simp only [exec, execExc] at h
    split at h
    · rename_i hown
      obtain ⟨rfl, -⟩ := takeException_eq_next h
      exact nothing (.exception _ _ (ownResponse_iff.mp hown).2)
    · exact nothing (.ofNext h)
  | rdhR | rdiR | wrsR | wrmR | ridR | vidR => exact nothing (.ofEmit h)

/-! ## What an answer leaves alone -/

/-- What no answer changes: the register file but its mirrors, the receive side, the schedule; and at most one frame is
sent. -/
structure AnswerFrame (u t : State) : Prop where
  holding : t.holding = u.holding
  wsc : t.wsc = u.wsc
  sched : t.sched = u.sched
  outside : SameOutside u t
  counters : SameCounters u t
  input : SameInput u t
  transmit : SentAtMostOne u t

/-- The transmit buffer after a frame: its bytes from index 0 on, the rest as before. -/
theorem Memory.read_writeAll_zero (m : Memory) (bs : List Byte) (i : Nat) :
    (m.writeAll 0 bs).read i = (bs[i]?).getD (m.read i) := by
  rw [Memory.read_writeAll, if_pos (Nat.zero_le i), Nat.sub_zero]

theorem sentAtMostOne_refl (u : State) : SentAtMostOne u u := .inl ⟨rfl, rfl, rfl, rfl, rfl, rfl, rfl, fun _ => rfl⟩

theorem AnswerFrame.refl (u : State) : AnswerFrame u u :=
  ⟨rfl, rfl, rfl, by constructor <;> intros <;> rfl, by constructor <;> rfl, fun _ _ => rfl, sentAtMostOne_refl u⟩

theorem AnswerFrame.sent (body : List Byte) (u : State) : AnswerFrame u (Machine.sent body u) where
  holding := by simp
  wsc := by simp
  sched := by simp
  outside := by constructor <;> simp
  counters := by constructor <;> simp [Diag.bump]
  input := sent_sameInput body u
  transmit := by
    obtain ⟨hcrc, htx, hlen, hde, hidle, hline, hlog, -⟩ := sent_effect body u
    exact .inr ⟨body, hlog, hline, hde, hidle, hlen, hcrc, framesSent_sent body u,
      fun i => by rw [htx, Memory.read_writeAll_zero]⟩

theorem AnswerFrame.excepted (function : Byte) (code : ExcCode) (u : State) :
    AnswerFrame u (Machine.excepted function code u) where
  holding := by simp
  wsc := by simp
  sched := by simp
  outside := excepted_sameOutside function code u
  counters := excepted_sameCounters function code u
  input := excepted_sameInput function code u
  transmit := by
    obtain ⟨hcrc, htx, hlen, hde, hidle, hline, hlog, hdiag⟩ := excepted_effect function code u
    exact .inr ⟨_, hlog, hline, hde, hidle, hlen, hcrc, by rw [hdiag], fun i => by rw [htx, Memory.read_writeAll_zero]⟩

theorem Answers.frame {unit : Byte} {u t : State} (h : Answers unit u t) : AnswerFrame u t := by
  cases h with
  | silent => exact .refl u
  | response body _ => exact .sent body u
  | exception function code _ => exact .excepted function code u

/-! ## Functions that write no register (R71) -/

/-- Settles O41: with nothing scheduled these instructions do no work on the register file, so the frame is that of the
answer. -/
theorem nonWritingFrame : Obligations.NonWritingFrame := by
  intro i s t hexec hkind
  obtain ⟨u, hwork, hanswer⟩ := exec_work hexec
  have hsame : u = s := by
    cases hwork with
    | none => rfl
    | readHolding hrun | readInput hrun =>
      rw [readRun_eq _ _ hkind] at hrun
      exact (Prod.mk.inj (Host.Outcome.next.inj hrun)).2.symm
    | writeOne | writeRun | identify => exact hkind.elim
  subst hsame
  obtain ⟨hholding, hwsc, hsched, houtside, hcounters, hinput, htransmit⟩ := hanswer.frame
  exact ⟨hholding, hwsc, hsched, houtside, hcounters, hinput, htransmit⟩

/-! ## Functions that write registers (R72) -/

/-- Two states that differ at most in the holding bank and the Write Sequence Counters. -/
def WritesOnly (s u : State) : Prop := ∃ h w, u = { s with holding := h, wsc := w }

theorem writesOnly_written (a : Nat) (v : Word) (s : State) : WritesOnly s (written a v s) := ⟨_, _, rfl⟩

theorem applyRun_outside {a x : Nat} {vs : List Word} (s : State) (hin : a + vs.length ≤ holdingSize)
    (hx : x < a ∨ a + vs.length ≤ x) :
    (applyRun a vs s).readReg .holding x = s.readReg .holding x ∧ (applyRun a vs s).readWsc x = s.readWsc x := by
  obtain ⟨hvalues, hcounts, -⟩ := applyRun_spec a vs s hin
  rw [hvalues, hcounts, if_neg (c := _ ∧ _) (by omega)]
  refine ⟨?_, rfl⟩
  split
  · rw [List.getElem?_eq_none (by omega), Option.getD_none]
  · rfl

/-- Outside the holding bank and the counters, an answer leaves of `s` what it leaves of the state after the writes. -/
theorem AnswerFrame.ofWritesOnly {s u t : State} (h : AnswerFrame u t) (hw : WritesOnly s u) :
    t.sched = s.sched ∧ SameOutside s t ∧ SameCounters s t ∧ SameInput s t ∧ SentAtMostOne s t := by
  obtain ⟨hholding, hwsc, hsched, houtside, hcounters, hinput, htransmit⟩ := h
  obtain ⟨bank, counters, rfl⟩ := hw
  refine ⟨hsched, ?_, ?_, hinput, htransmit⟩
  · cases houtside
    constructor <;> assumption
  · cases hcounters
    constructor <;> assumption

theorem writesOnly_applyRun {a : Nat} {vs : List Word} (s : State) (hin : a + vs.length ≤ holdingSize) :
    WritesOnly s (applyRun a vs s) := ⟨_, _, (applyRun_spec a vs s hin).2.2⟩

/-- A run that passes the checks ends inside the bank. -/
theorem checkWriteRun_ok_inBank {c : Config} {start count : Word} {byteCount : Byte} {data : List Byte}
    (h : checkWriteRun c start count byteCount data = .ok) :
    start.toNat + (bytesValues data).length ≤ holdingSize := by
  obtain ⟨hin, hlen⟩ := checkWriteRun_ok h
  rw [hlen]
  exact (runInBank_iff.mp hin).2.2

/-- Settles O42: outside the registers it names, each work of a write function leaves register and counter as they
were; the rest is the frame of the answer. -/
theorem writingFrame : Obligations.WritingFrame := by
  intro i s t hexec hkind
  obtain ⟨u, hwork, hanswer⟩ := exec_work hexec
  have hframe := hanswer.frame
  have hwrites : WritesOnly s u := by
    cases hwork with
    | none => exact ⟨_, _, rfl⟩
    | writeOne unit addr value => exact writesOnly_written _ _ _
    | writeRun hcheck => exact writesOnly_applyRun _ (checkWriteRun_ok_inBank hcheck)
    | identify => exact writesOnly_written _ _ _
    | readHolding | readInput => exact hkind.elim
  refine ⟨fun a ha => ?_, hframe.ofWritesOnly hwrites⟩
  rw [State.readReg_holding_congr hframe.holding, State.readWsc_congr hframe.wsc]
  cases hwork with
  | none => exact ⟨rfl, rfl⟩
  | writeOne unit addr value => exact written_other _ _ ha
  | writeRun hcheck =>
    refine applyRun_outside s (checkWriteRun_ok_inBank hcheck) ?_
    rwa [(checkWriteRun_ok hcheck).2]
  | identify => exact written_other _ _ ha
  | readHolding | readInput => exact hkind.elim

end Sys2Proof.Machine
end

section
/-! Steps that run no request: received bytes, quiet cycles, dropped frames (41_transport, 42_dispatcher R160 to R163). -/

namespace Sys2Proof.Machine

/-- Settles O57: both clauses are the two guards of a step. -/
theorem noEventNoStep : Obligations.NoEventNoStep := by
  intro s
  refine ⟨fun hconfig hempty => ?_, fun hconfig => ?_⟩
  · rw [step, runStep, if_pos hconfig, hempty]
  · rw [step, runStep, if_neg (by rw [hconfig]; exact Bool.false_ne_true)]

/-! ## Receiving (41_transport R140 to R143) -/

theorem receive_receiving {b : Byte} {s : State} (h : s.de = false) :
    receive b s = { s with uartQ := s.uartQ ++ [b] } := if_neg (by rw [h]; exact Bool.false_ne_true)

theorem receive_driving {b : Byte} {s : State} (h : s.de = true) : receive b s = s := if_pos h

/-- Settles O9: the step is `RX`, which looks at the line's direction only. -/
theorem receivedByteIsQueuedUnlessDriving : Obligations.ReceivedByteIsQueuedUnlessDriving := by
  intro s b later hnext
  have hstep : step s = .next (receive b { s with inbox := later }) := step_eq hnext.config hnext.head
  refine ⟨fun hde => ?_, fun hde => ?_⟩
  · rw [hstep, receive_receiving (s := { s with inbox := later }) hde]
  · rw [hstep, receive_driving (s := { s with inbox := later }) hde]

/-- Storing bytes counts nothing, so `FRM.APPEND` leaves the diagnostic values at those of the anomaly test. -/
theorem frmAppend_diag (now : Time) (s : State) : (frmAppend now s).diag = (anomalyTest now s).diag := by
  simp [frmAppend]

theorem anomalyTest_diag (now : Time) (s : State) :
    (anomalyTest now s).diag = if s.frmState = .accumulating ∧ s.t15 < elapsed s.cfg now s.lastClk then
      { s.diag with anom := satInc s.cfg.diagW s.diag.anom } else s.diag := by
  unfold anomalyTest
  split
  · rw [State.countEvent_diag]
    rfl
  · rfl

/-- Settles O11: the step is `FRM.APPEND`, whose only count is that of the anomaly test. -/
theorem lateBytesCountOneAnomaly : Obligations.LateBytesCountOneAnomaly := by
  intro s now between later hnext hq
  refine ⟨_, step_cycle_append hnext hq, ?_⟩
  have hreturned : ∀ t, (returnSched t).diag = t.diag := fun t => by simp
  rw [hreturned, frmAppend_diag, anomalyTest_diag]

/-! ## Cycles without new bytes (41_transport R145 to R150) -/

/-- Settles O12: the silence is not over, so the cycle ends at once and gives the scheduled events back. -/
theorem quietCycleChangesNothing : Obligations.QuietCycleChangesNothing := by
  intro s now between later hnext hempty hquiet
  have hsilence : silenceOver now { s with inbox := later, sched := between } = false := by
    rw [Bool.eq_false_iff, Ne, silenceOver_iff]
    rintro ⟨hacc, hgap⟩
    obtain hidle | hshort := hquiet
    · exact FrmState.noConfusion (hidle.symm.trans hacc)
    · exact hshort hgap
  have hbody : cycleBody now { s with inbox := later, sched := between } =
      .next { s with inbox := later, sched := between } := cycleBody_quiet hempty hsilence
  simp only [step_eq hnext.config hnext.head, takeEvent, cycle, hbody, andThen_next]
  rfl

/-- Settles O13: a closing cycle that goes on ends in `FRM.CLEAR`. -/
theorem closedFrameIsCleared : Obligations.ClosedFrameIsCleared := by
  intro s t now between later hclosing hstep
  rw [hclosing.step_eq] at hstep
  obtain ⟨u, -, hclear⟩ := andThen_eq_next.mp hstep
  obtain rfl := Host.Outcome.next.inj hclear
  exact ⟨rfl, rfl, rfl⟩

/-! ## Closed frames that are run or dropped (42_dispatcher R160 to R165) -/

theorem addressed_iff {unit : Byte} {s : State} : addressed unit s = true ↔ unit = 0x00#8 ∨ unit = s.unitAddr := by
  simp [addressed]

/-- Settles O14: the dispatcher runs `exec`, and the cycle then clears the delimiter and returns the schedule. -/
theorem stepRunsTheDecodedFrame : Obligations.StepRunsTheDecodedFrame := by
  intro s now between later i hclosing hovf hdec hunit
  have hrun : dspProcess (handedOver between later s) =
      exec i ((runCrcCheck s.frame (handedOver between later s)).countEvent .framesOk) :=
    dspProcess_run hovf hdec (addressed_iff.mpr hunit)
  rw [hclosing.step_eq, hrun]
  dsimp only [handedOver, runCrcCheck, crcCovered]
  generalize exec i _ = outcome
  cases outcome <;> rfl

/-- Settles O15: an overflowed frame is one count of the dispatcher, which leaves the checksum accumulator alone. -/
theorem overflowedFrameIsDropped : Obligations.OverflowedFrameIsDropped := by
  intro s now between later hclosing hovf
  have hdsp : dspProcess (handedOver between later s) = .next ((handedOver between later s).countEvent .overrun) :=
    dspProcess_overflow hovf
  refine ⟨_, by rw [hclosing.step_eq, hdsp, andThen_next], ?dropped, ?diag, ?crc, ?input⟩
  case dropped => constructor <;> simp [handedOver]
  case diag => simp [handedOver, Diag.bump]
  case crc => simp [handedOver]
  case input => exact fun a ha => State.readReg_countEvent_other (s := handedOver between later s) ha

/-- A frame the dispatcher neither counts nor runs is dropped, and all diagnostic values stay. -/
theorem Closing.dropped_uncounted {s u : State} {now : Time} {between : List (List PortEvent)} {later : List Event}
    (hclosing : Closing s now between later)
    (hdsp : dspProcess (handedOver between later s) = .next u)
    (hu : ∃ w, u = { handedOver between later s with crc := w }) :
    ∃ t, step s = .next t ∧ Dropped s t ∧ t.diag = s.diag ∧ t.input = s.input := by
  refine ⟨_, by rw [hclosing.step_eq, hdsp, andThen_next], ?_⟩
  obtain ⟨w, rfl⟩ := hu
  exact ⟨by constructor <;> rfl, rfl, rfl⟩

/-- Settles O16: the decoder rejects a short frame, and the dispatcher ends. -/
theorem shortFrameIsDropped : Obligations.ShortFrameIsDropped := by
  intro s now between later hclosing hovf hlen
  have hrejected : decode s.frame = .error .tooShort := decode_short (by rwa [length_frame])
  exact hclosing.dropped_uncounted (dspProcess_short hovf hrejected) ⟨_, rfl⟩

/-- Settles O18: the address check fails, and the dispatcher ends with the checksum loaded. -/
theorem foreignFrameIsDropped : Obligations.ForeignFrameIsDropped := by
  intro s now between later i hclosing hovf hdec hbroadcast hforeign
  have haddr : addressed i.unit (handedOver between later s) = false := by
    rw [Bool.eq_false_iff, Ne, addressed_iff, not_or]
    exact ⟨hbroadcast, hforeign⟩
  exact hclosing.dropped_uncounted (dspProcess_foreign hovf hdec haddr) ⟨_, rfl⟩

end Sys2Proof.Machine
end

section
/-! The internal port (46_regmap R223 to R226, 47_stats R237): writes, samples and reads of the internal agents. -/

namespace Sys2Proof.Machine

/-- The step that takes a port event. -/
theorem NextEvent.step_port {s : State} {e : PortEvent} {later : List Event} (hnext : NextEvent s (.port e) later) :
    step s = portStep e { s with inbox := later } := step_eq hnext.config hnext.head

/-- A port write by the owner stores `portValue` (R224). -/
theorem portWrite_owner {role : Role} {bank : Bank} {a : Nat} {v : Word} {s : State}
    (howner : s.cfg.owns role bank a = true) :
    portWrite role bank a v s = .next (s.writeReg bank a (portValue s bank a v)) := by
  rw [portWrite, if_pos (Config.lt_of_owns howner), if_pos howner]

/-- A register that mirrors nothing takes the value of the write (R224). -/
theorem portValue_unmirrored {s : State} {a : Nat} (h : ∀ k, s.cfg.diagMap.addr k ≠ some a) (v : Word) :
    portValue s .input a v = v := by
  have hkey : s.cfg.diagMap.keyAt a = none := by
    rw [DiagMap.keyAt, List.find?_eq_none]
    intro k _
    simpa using h k
  simp only [portValue, hkey]

/-- A register that mirrors a diagnostic value keeps showing it (R228; log 9). -/
theorem portValue_mirrored {s : State} {a : Nat} {k : DiagKey} (hdiag : s.cfg.diagOk = true)
    (h : s.cfg.diagMap.addr k = some a) (v : Word) : portValue s .input a v = s.diag.value k := by
  simp only [portValue, keyAt_eq hdiag h]

/-- The bank of a write after it: the value at the register, every other register as before. -/
theorem State.readReg_writeReg_same {s : State} {bank : Bank} {a : Nat} (ha : a < bank.size) (v : Word) (x : Nat) :
    (s.writeReg bank a v).readReg bank x = if x = a then v else s.readReg bank x := by
  rw [State.readReg_writeReg]
  simp [ha, eq_comm]

/-- Settles O46: the owner's write is one write of `portValue`, which is the value but for a mirrored register. -/
theorem portWriteByTheOwnerStores : Obligations.PortWriteByTheOwnerStores := by
  intro s role bank a v later hnext howner
  obtain ⟨-, -, -, hdiag, -⟩ := admittedConfig_parts hnext.config
  have ha := Config.lt_of_owns howner
  have hstep : step s = .next (State.writeReg { s with inbox := later } bank a
      (portValue { s with inbox := later } bank a v)) := hnext.step_port.trans (portWrite_owner howner)
  refine ⟨_, hstep, ?holding, ?otherBank, ?plain, ?mirrored, ?otherBank', by simp⟩
  case holding =>
    rintro rfl x
    exact State.readReg_writeReg_same ha _ x
  case otherBank =>
    rintro rfl
    rfl
  case plain =>
    rintro rfl hnone x
    rw [portValue_unmirrored (s := { s with inbox := later }) hnone]
    exact State.readReg_writeReg_same ha _ x
  case mirrored =>
    rintro k rfl hk x
    rw [portValue_mirrored (s := { s with inbox := later }) hdiag hk]
    exact State.readReg_writeReg_same ha _ x
  case otherBank' =>
    rintro rfl
    rfl

/-- Settles O47: each clause is one guard of the port write or of the sample. -/
theorem eventsNotAdmittedAreRefused : Obligations.EventsNotAdmittedAreRefused := by
  refine ⟨fun s role bank a v later hnext => ⟨fun ha howner => ?_, fun ha => ?_⟩, fun s k raw t later hnext hk => ?_⟩
  · rw [hnext.step_port, portStep, portWrite, if_pos ha, if_neg (by simp [howner])]
  · rw [hnext.step_port, portStep, portWrite, if_neg (Nat.not_lt.mpr ha)]
  · have hnone : s.cfg.statCh[k]? = none := List.getElem?_eq_none hk
    rw [hnext.step_port, portStep, staSample, hnone]

/-- Settles O48: each clause is one branch of the two internal reads. -/
theorem internalReadsAnswer : Obligations.InternalReadsAnswer := by
  intro s a bank later
  refine ⟨fun hnext => ?wsc, fun hnext => ?reg⟩
  case wsc =>
    have hstep : step s = wscRead a { s with inbox := later } := step_eq hnext.config hnext.head
    refine ⟨fun hcommand => ?_, fun hcommand => ?_⟩
    · rw [hstep, wscRead, if_pos hcommand]
      rfl
    · rw [hstep, wscRead, if_neg (by simp [hcommand])]
  case reg =>
    have hstep : step s = portRead bank a { s with inbox := later } := step_eq hnext.config hnext.head
    refine ⟨fun ha => ?_, fun ha => ?_⟩
    · rw [hstep, portRead, if_pos ha]
      cases bank <;> rfl
    · rw [hstep, portRead, if_neg (Nat.not_lt.mpr ha)]

/-! ## A sample that closes its window (47_stats R239) -/

/-- An emission leaves the three results in the channel's outputs, which differ and exist (R235, R239). -/
theorem State.readReg_emit_outputs {s : State} {ch : StatChannel} (hnodup : ch.outputs.Nodup)
    (hin : ∀ a ∈ ch.outputs, a < inputSize) (w : Window) :
    (s.emit ch w).readReg .input ch.minAddr = low16 w.min ∧ (s.emit ch w).readReg .input ch.maxAddr = low16 w.max ∧
    (s.emit ch w).readReg .input ch.meanAddr = low16 w.mean := by
  simp only [StatChannel.outputs, List.nodup_cons, List.mem_cons, List.not_mem_nil, or_false, not_or] at hnodup
  obtain ⟨⟨hminMax, hminMean⟩, hmaxMean, -⟩ := hnodup
  simp only [StatChannel.outputs, List.forall_mem_cons] at hin
  obtain ⟨hmin, hmax, hmean, -⟩ := hin
  simp [State.emit, State.readReg_writeReg, Bank.size, hmin, hmax, hmean, Ne.symm hminMax, Ne.symm hminMean,
    Ne.symm hmaxMean]

/-- The registers after a window is closed are those of the emission. -/
theorem closeWindow_readReg (ch : StatChannel) (k : Nat) (v : Int) (t : Time) (s : State) (a : Nat) :
    (closeWindow ch k v t s).readReg .input a = (s.emit ch (s.window k)).readReg .input a :=
  State.readReg_setWindow _ _ _ _ _

/-- What closing a window leaves alone, and the window it opens (R239, D24). -/
theorem closeWindow_effect (ch : StatChannel) (k : Nat) (v : Int) (t : Time) (s : State) :
    (closeWindow ch k v t s).win = s.win.set k ⟨true, clockValue s.cfg t, 1, v, v, v⟩ ∧
    (closeWindow ch k v t s).holding = s.holding ∧ (closeWindow ch k v t s).wsc = s.wsc ∧
    (closeWindow ch k v t s).diag = s.diag := by
  refine ⟨?_, by simp [closeWindow], by simp [closeWindow], by simp [closeWindow]⟩
  simp [closeWindow, State.setWindow, Window.seeded]

/-- Settles O50: the sample closes the window, which emits the old one and seeds the next; the outputs of an admitted
configuration differ and exist. -/
theorem lateSampleClosesTheWindow : Obligations.LateSampleClosesTheWindow := by
  intro s k ch raw t later hnext hch _ hopen hlate
  obtain ⟨-, -, hstat, -⟩ := admittedConfig_parts hnext.config
  have hmem : ch ∈ s.cfg.statCh := List.mem_of_getElem? hch
  have hin : ∀ a ∈ ch.outputs, a < inputSize := fun a ha => Config.lt_of_owns (output_owned hstat hmem ha)
  obtain ⟨hmin, hmax, hmean⟩ := State.readReg_emit_outputs (s := { s with inbox := later })
    (outputs_nodup hstat hmem) hin (s.window k)
  obtain ⟨hwin, hholding, hwsc, hdiag⟩ := closeWindow_effect ch k (sampleValue ch raw) t { s with inbox := later }
  have hread := closeWindow_readReg ch k (sampleValue ch raw) t { s with inbox := later }
  have hstep : step s = .next (closeWindow ch k (sampleValue ch raw) t { s with inbox := later }) :=
    (hnext.step_sample hch).trans (congrArg _ (sampleChannel_close hopen hlate))
  exact ⟨_, hstep, hwin, (hread _).trans hmin, (hread _).trans hmax, (hread _).trans hmean,
    fun a ha => (hread a).trans (State.readReg_emit_other ha), hholding, hwsc, hdiag⟩

end Sys2Proof.Machine
end

section
/-! The state after reset (10_state R46 to R50). -/

namespace Sys2Proof.Machine

/-- Every register holds the reset value its table entry gives (R49). -/
theorem readReg_resetWith {c : Config} {b : Bank} {a : Nat} {r : RegAttr} (h : c.attr b a = some r) :
    (State.resetWith c).readReg b a = r.reset := by
  cases b with
  | holding =>
    have h' : c.holdingMap[a]? = some r := h
    simp [State.resetWith, State.readReg, Vector.getElem?_map, h']
  | input =>
    have h' : c.inputMap[a]? = some r := h
    simp [State.resetWith, State.readReg, Vector.getElem?_map, h']

theorem readWsc_resetWith (c : Config) (a : Nat) : (State.resetWith c).readWsc a = 0 := by
  have hread : (State.resetWith c).readWsc a = ((Vector.replicate holdingSize 0)[a]?).getD 0 := rfl
  rw [hread, Vector.getElem?_replicate]
  split <;> rfl

theorem window_resetWith (c : Config) (k : Nat) : (State.resetWith c).window k = Window.closed := by
  have hread : (State.resetWith c).window k = (c.statCh.map fun _ => Window.closed).getD k Window.closed := rfl
  rw [hread, List.getD_eq_getElem?_getD, List.getElem?_map]
  cases c.statCh[k]? <;> rfl

/-- A longer silence is not shorter: the 1.5 character times fit the clock when the 3.5 do (41_transport R149). -/
theorem silenceMicros_mono {c : Config} {m n : Nat} (h : m ≤ n) : silenceMicros c m ≤ silenceMicros c n := by
  unfold silenceMicros ceilDiv
  gcongr

theorem clockValue_of_lt {c : Config} {n : Nat} (h : n < 2 ^ c.timeW) : clockValue c n = n := Nat.mod_eq_of_lt h

/-- Settles O53: most values are those `State.resetWith` names; the thresholds fit the clock, so nothing is cut off. -/
theorem resetValues : Obligations.ResetValues := by
  refine ⟨rfl, fun c => ⟨rfl, rfl, rfl, rfl, rfl, rfl, rfl, ?counters, rfl, readWsc_resetWith c, ?registers, rfl,
    ?windows, ?thresholds⟩⟩
  case counters => exact fun x => by cases x <;> rfl
  case registers => exact fun b a r h => readReg_resetWith h
  case windows =>
    intro k
    rw [window_resetWith]
    rfl
  case thresholds =>
    intro _ hfits
    exact ⟨clockValue_of_lt (Nat.lt_of_le_of_lt (silenceMicros_mono (by omega)) hfits), clockValue_of_lt hfits⟩

end Sys2Proof.Machine
end

section
/-! What a step leaves alone, whatever it takes: the settings, the diagnostic counters, the Write Sequence Counters
(10_state R31, R33, R39, R45). -/

namespace Sys2Proof.Machine

/-! ## What dispatching a frame leaves alone -/

/-- The settings of the block, the receive buffer with its clock, and the events to come. -/
structure DispatchFrame (s t : State) : Prop where
  cfg : t.cfg = s.cfg
  t15 : t.t15 = s.t15
  t35 : t.t35 = s.t35
  txHang : t.txHang = s.txHang
  unitAddr : t.unitAddr = s.unitAddr
  rx : t.rx = s.rx
  lastClk : t.lastClk = s.lastClk
  inbox : t.inbox = s.inbox

theorem RegFrame.dispatchFrame {s t : State} (h : RegFrame s t) : DispatchFrame s t :=
  ⟨h.cfg, h.t15, h.t35, h.txHang, h.unitAddr, h.rx, h.lastClk, h.inbox⟩

theorem DispatchFrame.trans {s t u : State} (h : DispatchFrame s t) (i : DispatchFrame t u) : DispatchFrame s u where
  cfg := i.cfg.trans h.cfg
  t15 := i.t15.trans h.t15
  t35 := i.t35.trans h.t35
  txHang := i.txHang.trans h.txHang
  unitAddr := i.unitAddr.trans h.unitAddr
  rx := i.rx.trans h.rx
  lastClk := i.lastClk.trans h.lastClk
  inbox := i.inbox.trans h.inbox

theorem dispatchFrame_sent (body : List Byte) (s : State) : DispatchFrame s (sent body s) := by
  constructor <;> simp

theorem dispatchFrame_excepted (function : Byte) (code : ExcCode) (s : State) :
    DispatchFrame s (excepted function code s) := by
  constructor <;> simp

theorem dispatchFrame_countEvent (c : Counter) (s : State) : DispatchFrame s (s.countEvent c) := by
  constructor <;> simp

theorem dispatchFrame_runCrcCheck (f : List Byte) (s : State) : DispatchFrame s (runCrcCheck f s) := by
  constructor <;> simp

theorem ExecEnds.dispatchFrame {unit : Byte} {s t : State} (h : ExecEnds unit s t) : DispatchFrame s t := by
  cases h with
  | silent h => exact h.regFrame.dispatchFrame
  | response rest h _ _ => exact h.regFrame.dispatchFrame.trans (dispatchFrame_sent _ _)
  | exception function code _ => exact dispatchFrame_excepted function code s

theorem DspEnds.dispatchFrame {s t : State} (h : DspEnds s t) : DispatchFrame s t := by
  cases h with
  | overflow _ => exact dispatchFrame_countEvent _ s
  | short _ _ => exact (RegFrame.refl s).dispatchFrame
  | corrupt _ _ => exact (dispatchFrame_runCrcCheck _ s).trans (dispatchFrame_countEvent _ _)
  | foreign _ _ _ => exact dispatchFrame_runCrcCheck _ s
  | run _ _ _ hexec =>
    exact ((dispatchFrame_runCrcCheck _ s).trans (dispatchFrame_countEvent _ _)).trans (exec_cases hexec).dispatchFrame

/-! ## The settings (10_state R30, R31, R45) -/

/-- The configuration, the two thresholds, the transmitter's hang flag and the unit address are as before. -/
structure SameSettings (s t : State) : Prop where
  cfg : t.cfg = s.cfg
  t15 : t.t15 = s.t15
  t35 : t.t35 = s.t35
  txHang : t.txHang = s.txHang
  unitAddr : t.unitAddr = s.unitAddr

theorem CycleEnds.sameSettings {now : Time} {s t : State} (h : CycleEnds now s t) : SameSettings s t := by
  cases h with
  | append _ => constructor <;> simp
  | quiet _ _ => constructor <;> rfl
  | close _ _ hdsp =>
    have frame := hdsp.dispatchFrame
    exact ⟨frame.cfg, frame.t15, frame.t35, frame.txHang, frame.unitAddr⟩

/-- A step leaves the settings alone, or takes a `CFG`, which loads the unit address and nothing else. -/
theorem StepEnds.sameSettings {s t : State} (h : StepEnds s t) :
    SameSettings s t ∨ ∃ unit later, s.inbox = .cfg unit :: later ∧ t = { s with inbox := later, unitAddr := unit } := by
  cases h with
  | wait _ => exact .inl ⟨rfl, rfl, rfl, rfl, rfl⟩
  | rx _ =>
    left
    unfold receive
    split <;> exact ⟨rfl, rfl, rfl, rfl, rfl⟩
  | cycle _ hcycle =>
    obtain ⟨hcfg, ht15, ht35, hhang, hunit⟩ := hcycle.sameSettings
    exact .inl ⟨hcfg, ht15, ht35, hhang, hunit⟩
  | port _ hport =>
    have frame := (portStep_portFrame hport).toRegFrame
    exact .inl ⟨frame.cfg, frame.t15, frame.t35, frame.txHang, frame.unitAddr⟩
  | cfg hinbox => exact .inr ⟨_, _, hinbox, rfl⟩
  | answer _ _ => exact .inl ⟨rfl, rfl, rfl, rfl, rfl⟩

/-- No step changes the configuration, the thresholds or the hang flag. -/
theorem step_keeps_cfg {s t : State} (h : step s = .next t) :
    t.cfg = s.cfg ∧ t.t15 = s.t15 ∧ t.t35 = s.t35 ∧ t.txHang = s.txHang := by
  obtain ⟨-, hends⟩ := step_cases h
  obtain ⟨hcfg, ht15, ht35, hhang, -⟩ | ⟨unit, later, -, rfl⟩ := hends.sameSettings
  · exact ⟨hcfg, ht15, ht35, hhang⟩
  · exact ⟨rfl, rfl, rfl, rfl⟩

/-- Settles O54: by `StepEnds.sameSettings` a step that is no `CFG` leaves the unit address alone. -/
theorem onlyCfgChangesTheUnitAddress : Obligations.OnlyCfgChangesTheUnitAddress := by
  refine ⟨fun s unit later hnext => step_eq hnext.config hnext.head, fun s t => step_keeps_cfg, fun s t hstep hno => ?_⟩
  obtain ⟨-, hends⟩ := step_cases hstep
  obtain hsame | ⟨unit, later, hinbox, -⟩ := hends.sameSettings
  · exact hsame.unitAddr
  · exact absurd hinbox (hno unit later)

/-! ## The diagnostic counters (10_state R33) -/

/-- Every counter is as before, or has been counted once, saturating at this many bits. -/
def CountedOnce (width : Nat) (d d' : Diag) : Prop :=
  ∀ c, d'.counter c = d.counter c ∨ d'.counter c = satInc width (d.counter c)

theorem countedOnce_of_eq {width : Nat} {d d' : Diag} (h : d' = d) : CountedOnce width d d' :=
  fun _ => .inl (h ▸ rfl)

theorem countedOnce_bump (width : Nat) (d : Diag) (c : Counter) : CountedOnce width d (d.bump width c) := by
  intro c'
  rw [Diag.counter_bump]
  by_cases h : c = c'
  · rw [if_pos h, h]
    exact .inr rfl
  · rw [if_neg h]
    exact .inl rfl

/-- What an instruction counts: the frames and the exceptions it sends, each once. -/
theorem ExecEnds.countedOnce {unit : Byte} {s t : State} (h : ExecEnds unit s t) :
    CountedOnce s.cfg.diagW s.diag t.diag ∧ t.diag.framesOk = s.diag.framesOk := by
  cases h with
  | silent h => exact ⟨countedOnce_of_eq h.regFrame.diag, congrArg Diag.framesOk h.regFrame.diag⟩
  | @response u rest h _ _ =>
    have hdiag : (sent (s.unitAddr :: rest) u).diag = s.diag.bump s.cfg.diagW .framesSent := by
      simp [h.regFrame.diag, h.regFrame.cfg]
    exact ⟨hdiag ▸ countedOnce_bump _ _ _, by rw [hdiag]; rfl⟩
  | exception function code _ =>
    refine ⟨fun c => ?_, by simp⟩
    obtain ⟨-, -, -, -, -, -, -, hdiag⟩ := excepted_effect function code s
    rw [hdiag]
    cases c with
    | excSent | framesSent => exact .inr rfl
    | framesOk | crcErr | overrun | anom => exact .inl rfl

/-- What the dispatcher counts: a good frame once, beside what its request counts. -/
theorem DspEnds.countedOnce {s t : State} (h : DspEnds s t) : CountedOnce s.cfg.diagW s.diag t.diag := by
  cases h with
  | overflow _ => exact State.countEvent_diag s _ ▸ countedOnce_bump _ _ _
  | short _ _ => exact countedOnce_of_eq rfl
  | corrupt _ _ =>
    rw [State.countEvent_diag]
    exact countedOnce_bump _ _ _
  | foreign _ _ _ => exact countedOnce_of_eq rfl
  | run _ _ _ hexec =>
    obtain ⟨hcounted, hgood⟩ := (exec_cases hexec).countedOnce
    simp only [State.countEvent_diag, State.countEvent_frame, runCrcCheck_frame] at hcounted hgood
    intro c
    by_cases hc : c = .framesOk
    · subst hc
      exact .inr hgood
    · have hother : (s.diag.bump s.cfg.diagW .framesOk).counter c = s.diag.counter c := by
        rw [Diag.counter_bump, if_neg (Ne.symm hc)]
      rw [← hother]
      exact hcounted c

theorem CycleEnds.countedOnce {now : Time} {s t : State} (h : CycleEnds now s t) :
    CountedOnce s.cfg.diagW s.diag t.diag := by
  cases h with
  | append _ =>
    rw [frmAppend_diag]
    obtain hsame | hcount := anomalyTest_cases now s
    · exact countedOnce_of_eq (by rw [hsame])
    · rw [hcount, State.countEvent_diag]
      exact countedOnce_bump _ _ _
  | quiet _ _ => exact countedOnce_of_eq rfl
  | close _ _ hdsp => exact hdsp.countedOnce

theorem receive_diag (b : Byte) (s : State) : (receive b s).diag = s.diag := by
  unfold receive
  split <;> rfl

theorem StepEnds.countedOnce {s t : State} (h : StepEnds s t) : CountedOnce s.cfg.diagW s.diag t.diag := by
  cases h with
  | wait _ => exact countedOnce_of_eq rfl
  | rx _ => exact countedOnce_of_eq (receive_diag _ _)
  | cycle _ hcycle => exact hcycle.countedOnce
  | port _ hport => exact countedOnce_of_eq (portStep_portFrame hport).diag
  | cfg _ => exact countedOnce_of_eq rfl
  | answer _ _ => exact countedOnce_of_eq rfl

/-- A saturating increment counts one, below the greatest value, or nothing. -/
theorem satInc_cases (width n : Nat) : satInc width n = n ∨ satInc width n = n + 1 ∧ n + 1 < 2 ^ width := by
  unfold satInc
  split
  · rename_i hfits
    exact .inr ⟨rfl, hfits⟩
  · exact .inl rfl

/-- Settles O55: each counter is counted at most once, and a saturating count stays below `2^DIAG_W`. -/
theorem diagnosticCountersNeverDecrease : Obligations.DiagnosticCountersNeverDecrease := by
  intro s t c hstep
  obtain ⟨-, hends⟩ := step_cases hstep
  obtain hsame | hcount := hends.countedOnce c
  · exact .inl hsame
  · rw [hcount]
    exact satInc_cases _ _

/-! ## The Write Sequence Counters (10_state R39, 46_regmap R222) -/

/-- Every counter is as before or has moved by one; one that is no command register's is as before. -/
structure WscCounted (s t : State) : Prop where
  counted : ∀ a, t.readWsc a = s.readWsc a ∨ t.readWsc a = (s.readWsc a + 1) % 2 ^ s.cfg.wscW
  commandOnly : ∀ a, s.cfg.isCommand a = false → t.readWsc a = s.readWsc a

theorem wscCounted_of_eq {s t : State} (h : t.wsc = s.wsc) : WscCounted s t :=
  ⟨fun a => .inl (State.readWsc_congr h a), fun a _ => State.readWsc_congr h a⟩

theorem wscCounted_written (a : Nat) (v : Word) (s : State) : WscCounted s (written a v s) := by
  by_cases hcommand : s.cfg.isCommand a = true
  · have hbump : (written a v s).wsc = (s.bumpWsc a).wsc := by rw [written, if_pos hcommand]; rfl
    refine ⟨fun x => ?_, fun x hx => ?_⟩
    · rw [State.readWsc_congr hbump, State.readWsc_bumpWsc]
      split
      · rename_i h
        exact .inr (by rw [h.1])
      · exact .inl rfl
    · have hne : x ≠ a := by
        rintro rfl
        simp [hcommand] at hx
      exact (written_other v s hne).2
  · exact wscCounted_of_eq (by rw [written, if_neg hcommand])

theorem wscCounted_applyRun {a : Nat} {vs : List Word} (s : State) (hin : a + vs.length ≤ holdingSize) :
    WscCounted s (applyRun a vs s) := by
  obtain ⟨-, hcounts, -⟩ := applyRun_spec a vs s hin
  refine ⟨fun x => ?_, fun x hx => ?_⟩
  · rw [hcounts]
    split
    · exact .inr rfl
    · exact .inl rfl
  · rw [hcounts, if_neg (by simp [hx])]

/-- A bus write: the instructions that may count (46_regmap R222, 45_ident R208). -/
def countsWrites : Instr → Prop
  | .wrs _ _ | .wrm _ _ => True
  | .vid unit _ => unit ≠ 0x00#8
  | _ => False

/-- The work of an instruction counts each write once, and only a bus write counts. -/
theorem Work.wscCounted {s u : State} {i : Instr} (h : Work s i u) :
    WscCounted s u ∧ (u.wsc = s.wsc ∨ countsWrites i) := by
  cases h with
  | none => exact ⟨wscCounted_of_eq rfl, .inl rfl⟩
  | readHolding hrun | readInput hrun =>
    have hwsc : u.wsc = s.wsc := (readRun_portFrame hrun).wsc
    exact ⟨wscCounted_of_eq hwsc, .inl hwsc⟩
  | writeOne unit addr value => exact ⟨wscCounted_written _ _ s, .inr trivial⟩
  | writeRun hcheck => exact ⟨wscCounted_applyRun s (checkWriteRun_ok_inBank hcheck), .inr trivial⟩
  | identify hu => exact ⟨wscCounted_written _ _ s, .inr hu⟩

/-- What an instruction counts is what its work counts: no answer counts a write. -/
theorem exec_wscCounted {i : Instr} {s t : State} (h : exec i s = .next t) :
    WscCounted s t ∧ (t.wsc = s.wsc ∨ countsWrites i) := by
  obtain ⟨u, hwork, hanswer⟩ := exec_work h
  have hwsc := hanswer.frame.wsc
  obtain ⟨⟨hcounted, hcommand⟩, honly⟩ := hwork.wscCounted
  refine ⟨⟨fun a => ?_, fun a ha => ?_⟩, ?_⟩
  · rw [State.readWsc_congr hwsc]
    exact hcounted a
  · rw [State.readWsc_congr hwsc]
    exact hcommand a ha
  · rwa [hwsc]

/-- A closed frame that counts writes: one that decodes to a bus write for this block or for all. -/
def CountingFrame (s : State) : Prop :=
  ∃ i, s.rxOvf = false ∧ decode s.frame = .ok i ∧ (i.unit = 0x00#8 ∨ i.unit = s.unitAddr) ∧ countsWrites i

theorem DspEnds.wscCounted {s t : State} (h : DspEnds s t) :
    WscCounted s t ∧ (t.wsc = s.wsc ∨ CountingFrame s) := by
  have uncounted : ∀ {u : State}, u.wsc = s.wsc → WscCounted s u ∧ (u.wsc = s.wsc ∨ CountingFrame s) := fun hu =>
    ⟨wscCounted_of_eq hu, .inl hu⟩
  cases h with
  | overflow _ => exact uncounted (by simp)
  | short _ _ => exact uncounted rfl
  | corrupt _ _ => exact uncounted (by simp)
  | foreign _ _ _ => exact uncounted rfl
  | @run i _ hovf hdec haddr hexec =>
    have hstart : ((runCrcCheck s.frame s).countEvent .framesOk).wsc = s.wsc := by simp
    obtain ⟨⟨hcounted, hcommand⟩, honly⟩ := exec_wscCounted hexec
    simp only [State.readWsc_congr hstart, State.countEvent_frame, runCrcCheck_frame] at hcounted hcommand honly
    exact ⟨⟨hcounted, hcommand⟩, honly.imp_right fun hi => ⟨i, hovf, hdec, addressed_iff.mp haddr, hi⟩⟩

theorem CycleEnds.wscCounted {now : Time} {s t : State} (h : CycleEnds now s t) :
    WscCounted s t ∧ (t.wsc = s.wsc ∨ s.uartQ = [] ∧ silenceOver now s = true ∧ CountingFrame s) := by
  cases h with
  | append _ => exact ⟨wscCounted_of_eq (by simp), .inl (by simp)⟩
  | quiet _ _ => exact ⟨wscCounted_of_eq rfl, .inl rfl⟩
  | close hempty hsilent hdsp =>
    obtain ⟨⟨hcounted, hcommand⟩, honly⟩ := hdsp.wscCounted
    exact ⟨⟨hcounted, hcommand⟩, honly.imp_right fun hframe => ⟨hempty, hsilent, hframe⟩⟩

theorem receive_wsc (b : Byte) (s : State) : (receive b s).wsc = s.wsc := by
  unfold receive
  split <;> rfl

/-- A step counts each write once, and counts only when it closes a frame with a bus write. -/
theorem step_wscCounted {s t : State} (h : step s = .next t) :
    WscCounted s t ∧ (t.wsc = s.wsc ∨ ∃ now between later, Closing s now between later ∧ CountingFrame s) := by
  have uncounted : ∀ {u : State}, u.wsc = s.wsc →
      WscCounted s u ∧ (u.wsc = s.wsc ∨ ∃ now between later, Closing s now between later ∧ CountingFrame s) :=
    fun hu => ⟨wscCounted_of_eq hu, .inl hu⟩
  obtain ⟨hconfig, hends⟩ := step_cases h
  cases hends with
  | wait _ => exact uncounted rfl
  | rx _ => exact uncounted (receive_wsc _ _)
  | port _ hport => exact uncounted (portStep_portFrame hport).wsc
  | cfg _ => exact uncounted rfl
  | answer _ _ => exact uncounted rfl
  | @cycle now between later u hinbox hcycle =>
    obtain ⟨⟨hcounted, hcommand⟩, honly⟩ := hcycle.wscCounted
    refine ⟨⟨hcounted, hcommand⟩, honly.imp_right ?_⟩
    rintro ⟨hempty, hsilent, hframe⟩
    obtain ⟨hacc, hgap⟩ := silenceOver_iff.mp hsilent
    exact ⟨now, between, later, ⟨⟨hconfig, hinbox⟩, hempty, hacc, hgap⟩, hframe⟩

/-- Settles O56: the three clauses are `step_wscCounted`, with the counting frame written out. -/
theorem onlyBusWritesAreCounted : Obligations.OnlyBusWritesAreCounted := by
  intro s t hstep
  obtain ⟨⟨hcounted, hcommand⟩, honly⟩ := step_wscCounted hstep
  refine ⟨fun hchanged => ?_, hcounted, hcommand⟩
  obtain ⟨now, between, later, hclosing, i, hovf, hdec, hunit, hi⟩ := honly.resolve_left hchanged
  refine ⟨now, between, later, i, hclosing, hovf, hdec, hunit, ?_⟩
  cases i <;> exact hi

end Sys2Proof.Machine
end

section
/-! The invariant (10_state sections 4 to 6): its four parts, each kept by every operation that touches it. -/

namespace Sys2Proof.Machine

/-! ## The parts of the invariant -/

/-- The register file's part of the invariant: windows, mirrors, diagnostic values and Write Sequence Counters. -/
structure RegInv (s : State) : Prop where
  config : admittedConfig s.cfg = true
  windows : s.win.length = s.cfg.statCh.length
  windowsOk : ∀ (k : Nat) (ch : StatChannel), s.cfg.statCh[k]? = some ch → (s.window k).isOpen = true →
    Window.Ok s.cfg ch (s.window k)
  mirrored : ∀ (k : DiagKey) (a : Nat), s.cfg.diagMap.addr k = some a → s.readReg .input a = s.diag.value k
  diagFits : ∀ c : Counter, s.diag.counter c < 2 ^ s.cfg.diagW
  lastExcCode : s.diag.lastExc.toNat ≤ 3
  wscFits : ∀ a : Nat, s.readWsc a < 2 ^ s.cfg.wscW
  noCounter : ∀ a : Nat, s.cfg.isCommand a = false → s.readWsc a = 0

/-- The transmit side's part: nothing is being sent. -/
structure TxInv (s : State) : Prop where
  form : s.tx.wf ∧ s.tx.within txMax
  receiving : s.de = false
  quiet : s.txIdle = true
  empty : s.txLen = 0

/-- The receive side's part: the buffer, the delimiter and its clock. -/
structure RxInv (s : State) : Prop where
  form : s.rx.wf ∧ s.rx.within rxBuf
  fill : s.rxLen ≤ rxBuf
  notReady : s.frmState ≠ .ready
  idleEmpty : s.rxLen = 0 ↔ s.frmState = .idle
  ovfFull : s.rxOvf = true → s.rxLen = rxBuf
  lastClkFits : s.lastClk < 2 ^ s.cfg.timeW
  thresholds : s.t15 = threshold15 s.cfg ∧ s.t35 = threshold35 s.cfg

theorem State.Inv.regInv {s : State} (h : s.Inv) : RegInv s :=
  ⟨h.config, h.windows, h.windowsOk, h.mirrored, h.diagFits, h.lastExcCode, h.wscFits, h.noCounter⟩

theorem State.Inv.txInv {s : State} (h : s.Inv) : TxInv s := ⟨h.txForm, h.receiving, h.txQuiet, h.txEmpty⟩

theorem State.Inv.rxInv {s : State} (h : s.Inv) : RxInv s :=
  ⟨h.rxForm, h.rxFill, h.notReady, h.idleEmpty, h.ovfFull, h.lastClkFits, h.thresholds⟩

/-- The four parts make the invariant. -/
theorem State.Inv.ofParts {s : State} (hreg : RegInv s) (htx : TxInv s) (hrx : RxInv s) (hsched : s.sched = []) :
    s.Inv where
  config := hreg.config
  rxForm := hrx.form
  txForm := htx.form
  rxFill := hrx.fill
  notReady := hrx.notReady
  idleEmpty := hrx.idleEmpty
  ovfFull := hrx.ovfFull
  receiving := htx.receiving
  txQuiet := htx.quiet
  txEmpty := htx.empty
  schedEmpty := hsched
  windows := hreg.windows
  windowsOk := hreg.windowsOk
  mirrored := hreg.mirrored
  lastClkFits := hrx.lastClkFits
  thresholds := hrx.thresholds
  diagFits := hreg.diagFits
  wscFits := hreg.wscFits
  lastExcCode := hreg.lastExcCode
  noCounter := hreg.noCounter

/-! ## The register file's part -/

/-- Counting writes keeps every counter within `WSC_W` bits, and the others at 0. -/
theorem RegInv.ofWscCounted {s t : State} (h : RegInv s) (hwsc : WscCounted s t) (hcfg : t.cfg = s.cfg)
    (hwin : t.win = s.win) (hinput : t.input = s.input) (hdiag : t.diag = s.diag) : RegInv t where
  config := hcfg ▸ h.config
  windows := by rw [hwin, hcfg]; exact h.windows
  windowsOk := by
    intro k ch hch hopen
    rw [hcfg] at hch ⊢
    rw [State.window_congr hwin] at hopen ⊢
    exact h.windowsOk k ch hch hopen
  mirrored := by
    intro k a hk
    rw [State.readReg_input_congr hinput, hdiag]
    exact h.mirrored k a (hcfg ▸ hk)
  diagFits := by rw [hdiag, hcfg]; exact h.diagFits
  lastExcCode := by rw [hdiag]; exact h.lastExcCode
  wscFits := fun a => by
    rw [hcfg]
    obtain hsame | hcount := hwsc.counted a
    · exact hsame ▸ h.wscFits a
    · exact hcount ▸ Nat.mod_lt _ (by positivity)
  noCounter := fun a ha => by
    rw [hcfg] at ha
    rw [hwsc.commandOnly a ha, h.noCounter a ha]

/-- It depends on these fields only. -/
theorem RegInv.congr {s t : State} (h : RegInv s) (hcfg : t.cfg = s.cfg) (hwin : t.win = s.win)
    (hinput : t.input = s.input) (hdiag : t.diag = s.diag) (hwsc : t.wsc = s.wsc) : RegInv t :=
  h.ofWscCounted (wscCounted_of_eq hwsc) hcfg hwin hinput hdiag

theorem RegInv.written {s : State} (h : RegInv s) (a : Nat) (v : Word) : RegInv (Machine.written a v s) :=
  h.ofWscCounted (wscCounted_written a v s) (by simp) (by simp) (by simp) (by simp)

/-- New diagnostic values of the right widths, with the one that changed mirrored in the same step (46_regmap R228). -/
theorem RegInv.mirror {s : State} {k : DiagKey} {d : Diag} (h : RegInv s)
    (hother : ∀ k' ≠ k, d.value k' = s.diag.value k') (hfits : ∀ c, d.counter c < 2 ^ s.cfg.diagW)
    (hcode : d.lastExc.toNat ≤ 3) : RegInv (State.mirror { s with diag := d } k) := by
  obtain ⟨-, -, -, hdiagOk, -⟩ := admittedConfig_parts h.config
  have hwin : ∀ j, (State.mirror { s with diag := d } k).window j = s.window j := State.window_congr (by simp)
  have hwsc : ∀ a, (State.mirror { s with diag := d } k).readWsc a = s.readWsc a := State.readWsc_congr (by simp)
  constructor
  case config => simpa using h.config
  case windows => simpa using h.windows
  case windowsOk => simpa [hwin] using h.windowsOk
  case diagFits => simpa using hfits
  case lastExcCode => simpa using hcode
  case wscFits => simpa [hwsc] using h.wscFits
  case noCounter => simpa [hwsc] using h.noCounter
  case mirrored =>
    intro k' a hk'
    have haddr : s.cfg.diagMap.addr k' = some a := by simpa using hk'
    have ha : a < inputSize := Config.lt_of_owns (diagMap_owned hdiagOk haddr)
    have hdiag : (State.mirror { s with diag := d } k).diag = d := by simp
    rw [State.readReg_mirror, hdiag]
    by_cases hk : k' = k
    · subst hk
      rw [if_pos ⟨haddr, ha⟩]
    · have hne : s.cfg.diagMap.addr k ≠ some a := fun hka => hk (diagMap_inj hdiagOk haddr hka)
      rw [if_neg fun hc => hne hc.1, hother k' hk]
      exact h.mirrored k' a haddr

theorem RegInv.countEvent {s : State} (h : RegInv s) (c : Counter) : RegInv (s.countEvent c) := by
  refine RegInv.mirror h (fun k hk => ?_) (fun c' => ?_) ?_
  · cases k with
    | counter c' =>
      have hne : c ≠ c' := fun hc => hk (hc ▸ rfl)
      rw [Diag.value, Diag.value, Diag.counter_bump, if_neg hne]
    | lastExc => rw [Diag.value, Diag.value, Diag.lastExc_bump]
  · rw [Diag.counter_bump]
    split
    · exact satInc_lt (h.diagFits c)
    · exact h.diagFits c'
  · rw [Diag.lastExc_bump]
    exact h.lastExcCode

theorem ExcCode.toNat_byte_le (code : ExcCode) : code.byte.toNat ≤ 3 := by
  cases code <;> decide

theorem RegInv.setLastExc {s : State} (h : RegInv s) (code : ExcCode) : RegInv (s.setLastExc code) := by
  refine RegInv.mirror h (fun k hk => ?_) h.diagFits (ExcCode.toNat_byte_le code)
  cases k with
  | counter c => rfl
  | lastExc => exact absurd rfl hk

theorem RegInv.sent {s : State} (h : RegInv s) (body : List Byte) : RegInv (Machine.sent body s) := by
  refine RegInv.countEvent ?_ _
  exact h.congr rfl rfl rfl rfl rfl

theorem RegInv.excepted {s : State} (h : RegInv s) (function : Byte) (code : ExcCode) :
    RegInv (Machine.excepted function code s) := ((h.countEvent _).setLastExc _).sent _

/-! ## Windows (47_stats R242, R245) -/

/-- A sample lies in its channel's range (R236). -/
theorem sampleValue_mem (ch : StatChannel) (raw : Word) :
    StatChannel.lowest ch ≤ sampleValue ch raw ∧ sampleValue ch raw ≤ StatChannel.highest ch := by
  unfold StatChannel.lowest StatChannel.highest sampleValue
  split
  · have hmin := BitVec.le_toInt raw
    have hmax := BitVec.toInt_lt (x := raw)
    norm_num at hmin hmax
    omega
  · have hmax := raw.isLt
    omega

theorem Window.seeded_ok {c : Config} {ch : StatChannel} (hc : admittedConfig c = true) (raw : Word) (t : Time) :
    Window.Ok c ch (Window.seeded (sampleValue ch raw) (clockValue c t)) := by
  obtain ⟨hlow, hhigh⟩ := sampleValue_mem ch raw
  obtain ⟨-, -, -, hcountW⟩ := widths_pos hc
  have hcount : 1 < 2 ^ c.countW := Nat.one_lt_two_pow (by omega)
  exact ⟨clockValue_lt c t, le_rfl, hcount, hlow, le_rfl, le_rfl, hhigh⟩

/-- A truncated quotient by a positive number lies between 0 and the dividend. -/
theorem tdiv_between (d : Int) {n : Nat} (hn : 1 ≤ n) :
    (0 ≤ d → 0 ≤ d.tdiv n ∧ d.tdiv n ≤ d) ∧ (d ≤ 0 → d ≤ d.tdiv n ∧ d.tdiv n ≤ 0) := by
  have hpos : ∀ e : Int, 0 ≤ e → 0 ≤ e.tdiv n ∧ e.tdiv n ≤ e := fun e he =>
    ⟨Int.tdiv_nonneg he (by omega), Int.tdiv_le_self n he⟩
  refine ⟨hpos d, fun hd => ?_⟩
  have hneg := hpos (-d) (by omega)
  rw [Int.neg_tdiv] at hneg
  omega

/-- The mean moves towards the sample and no further, so it stays between the extrema (R242). -/
theorem Window.accumulate_ok {c : Config} {ch : StatChannel} {w : Window} (h : Window.Ok c ch w)
    (hc : admittedConfig c = true) (hopen : w.isOpen = true) (raw : Word) :
    Window.Ok c ch (w.accumulate c.countW (sampleValue ch raw)) := by
  obtain ⟨hstart, -, hfits, hlow, hminMean, hmeanMax, hhigh⟩ := h
  obtain ⟨hlowV, hhighV⟩ := sampleValue_mem ch raw
  obtain ⟨-, -, -, hcountW⟩ := widths_pos hc
  have hcounted : 1 ≤ satInc c.countW w.count := satInc_pos hcountW
  obtain ⟨hup, hdown⟩ := tdiv_between (sampleValue ch raw - w.mean) hcounted
  rw [accumulate_eq_min_max hopen]
  refine ⟨hstart, hcounted, satInc_lt hfits, le_min hlow hlowV, ?_, ?_, max_le hhigh hhighV⟩
  all_goals
    simp only
    obtain hle | hle := le_total w.mean (sampleValue ch raw)
    · have := hup (by omega)
      omega
    · have := hdown (by omega)
      omega

/-! ## Port events (46_regmap R224, 47_stats R237) -/

/-- Setting the window of a channel to one that is as R42 says. -/
theorem RegInv.setWindow {s : State} (h : RegInv s) {k : Nat} {ch : StatChannel} {w : Window}
    (hch : s.cfg.statCh[k]? = some ch) (hw : Window.Ok s.cfg ch w) : RegInv (s.setWindow k w) := by
  have hread : ∀ a, (s.setWindow k w).readReg .input a = s.readReg .input a := State.readReg_setWindow s k w .input
  have hwsc : ∀ a, (s.setWindow k w).readWsc a = s.readWsc a := State.readWsc_congr (by simp)
  constructor
  case config => simpa using h.config
  case windows => simpa using h.windows
  case mirrored => simpa [hread] using h.mirrored
  case diagFits => simpa using h.diagFits
  case lastExcCode => simpa using h.lastExcCode
  case wscFits => simpa [hwsc] using h.wscFits
  case noCounter => simpa [hwsc] using h.noCounter
  case windowsOk =>
    intro j ch' hj hopen
    have hj' : s.cfg.statCh[j]? = some ch' := by simpa using hj
    rw [State.window_setWindow] at hopen ⊢
    split at hopen
    · rename_i hset
      obtain rfl : ch = ch' := Option.some.inj (hch.symm.trans (hset.1 ▸ hj'))
      rw [if_pos hset]
      exact hw
    · rename_i hset
      rw [if_neg hset]
      exact h.windowsOk j ch' hj' hopen

/-- A change of the input bank that leaves every mirrored register at its diagnostic value. -/
theorem RegInv.ofInput {s t : State} (h : RegInv s) (hcfg : t.cfg = s.cfg) (hwin : t.win = s.win)
    (hdiag : t.diag = s.diag) (hwsc : t.wsc = s.wsc)
    (hinput : ∀ k a, s.cfg.diagMap.addr k = some a → t.readReg .input a = s.diag.value k) : RegInv t := by
  have hreg := h.congr (t := { t with input := s.input }) hcfg hwin rfl hdiag hwsc
  refine ⟨hreg.config, hreg.windows, hreg.windowsOk, fun k a hk => ?_, hreg.diagFits, hreg.lastExcCode,
    hreg.wscFits, hreg.noCounter⟩
  rw [hdiag]
  exact hinput k a (hcfg ▸ hk)

/-- An emission writes the channel's outputs, none of which is mirrored (47_stats R235; log 13). -/
theorem RegInv.emit {s : State} (h : RegInv s) {ch : StatChannel} (hmem : ch ∈ s.cfg.statCh) (w : Window) :
    RegInv (s.emit ch w) := by
  refine h.ofInput (by simp) (by simp) (by simp) (by simp) fun k a hk => ?_
  have hother : a ∉ ch.outputs := fun ha => output_not_mirrored h.config hmem ha k hk
  rw [State.readReg_emit_other hother]
  exact h.mirrored k a hk

theorem RegInv.sample {s : State} (h : RegInv s) {k : Nat} {ch : StatChannel} (hch : s.cfg.statCh[k]? = some ch)
    (raw : Word) (t : Time) : RegInv (sampleChannel ch k raw t s) := by
  cases hopen : (s.window k).isOpen with
  | false =>
    rw [sampleChannel_seed hopen]
    exact h.setWindow hch (Window.seeded_ok h.config raw t)
  | true =>
    obtain hlate | hearly := le_or_gt windowMs (elapsed s.cfg t (s.window k).start)
    · rw [sampleChannel_close hopen hlate]
      have hemit := h.emit (List.mem_of_getElem? hch) (s.window k)
      have hcfg : (s.emit ch (s.window k)).cfg = s.cfg := by simp
      exact hemit.setWindow (hcfg ▸ hch) (hcfg ▸ Window.seeded_ok h.config raw t)
    · rw [sampleChannel_accumulate hopen hearly]
      exact h.setWindow hch (Window.accumulate_ok (h.windowsOk k ch hch hopen) h.config hopen raw)

/-- A port write leaves a mirrored register at its diagnostic value (R228; log 9). -/
theorem RegInv.portWrite {s : State} (h : RegInv s) {bank : Bank} {a : Nat} (ha : a < bank.size) (v : Word) :
    RegInv (s.writeReg bank a (portValue s bank a v)) := by
  obtain ⟨-, -, -, hdiagOk, -⟩ := admittedConfig_parts h.config
  refine h.ofInput (by simp) (by simp) (by simp) (by simp) fun k x hk => ?_
  cases bank with
  | holding =>
    rw [State.readReg_input_congr (State.writeReg_holding_input s a _)]
    exact h.mirrored k x hk
  | input =>
    rw [State.readReg_writeReg_same ha]
    by_cases hx : x = a
    · rw [if_pos hx, portValue_mirrored hdiagOk (hx ▸ hk)]
    · rw [if_neg hx]
      exact h.mirrored k x hk

theorem RegInv.port {e : PortEvent} {s t : State} (h : RegInv s) (hstep : portStep e s = .next t) : RegInv t := by
  rcases portStep_eq_next hstep with ⟨role, bank, a, v, -, ha, -, rfl⟩ | ⟨k, raw, clk, ch, -, hch, rfl⟩
  · exact h.portWrite ha v
  · exact h.sample hch raw clk

/-! ## Instructions, the dispatcher and the cycle -/

theorem RegSteps.regInv {s t : State} (h : RegSteps s t) (hs : RegInv s) : RegInv t := by
  induction h with
  | refl => exact hs
  | port e _ hport ih => exact ih.port hport
  | sched x _ ih => exact ih.congr rfl rfl rfl rfl rfl
  | write a v _ ih => exact ih.written a v

theorem ExecEnds.regInv {unit : Byte} {s t : State} (h : ExecEnds unit s t) (hs : RegInv s) : RegInv t := by
  cases h with
  | silent h => exact h.regInv hs
  | response rest h _ _ => exact (h.regInv hs).sent _
  | exception function code _ => exact hs.excepted function code

theorem RegInv.runCrcCheck {s : State} (h : RegInv s) (f : List Byte) : RegInv (Machine.runCrcCheck f s) :=
  h.congr rfl rfl rfl rfl rfl

theorem DspEnds.regInv {s t : State} (h : DspEnds s t) (hs : RegInv s) : RegInv t := by
  cases h with
  | overflow _ => exact hs.countEvent _
  | short _ _ => exact hs
  | corrupt _ _ => exact (hs.runCrcCheck _).countEvent _
  | foreign _ _ _ => exact hs.runCrcCheck _
  | run _ _ _ hexec => exact (exec_cases hexec).regInv ((hs.runCrcCheck _).countEvent _)

theorem RegInv.anomalyTest {s : State} (h : RegInv s) (now : Time) : RegInv (Machine.anomalyTest now s) := by
  obtain hsame | hcount := anomalyTest_cases now s
  · rwa [hsame]
  · rw [hcount]
    exact h.countEvent _

theorem RegInv.frmAppend {s : State} (h : RegInv s) (now : Time) : RegInv (Machine.frmAppend now s) :=
  (h.anomalyTest now).congr (by simp [Machine.frmAppend]) (by simp [Machine.frmAppend])
    (by simp [Machine.frmAppend]) (frmAppend_diag now s) (by simp [Machine.frmAppend])

theorem CycleEnds.regInv {now : Time} {s t : State} (h : CycleEnds now s t) (hs : RegInv s) : RegInv t := by
  cases h with
  | append _ => exact hs.frmAppend now
  | quiet _ _ => exact hs
  | @close u _ _ hdsp =>
    have hready : RegInv { s with frmState := .ready } := hs.congr rfl rfl rfl rfl rfl
    exact (hdsp.regInv hready).congr rfl rfl rfl rfl rfl

/-! ## The transmit side's part -/

/-- It depends on these fields only. -/
theorem TxInv.congr {s t : State} (h : TxInv s) (htx : t.tx = s.tx) (hde : t.de = s.de) (hidle : t.txIdle = s.txIdle)
    (hlen : t.txLen = s.txLen) : TxInv t :=
  ⟨htx ▸ h.form, hde.trans h.receiving, hidle.trans h.quiet, hlen.trans h.empty⟩

theorem TxInv.countEvent {s : State} (h : TxInv s) (c : Counter) : TxInv (s.countEvent c) :=
  h.congr (by simp) (by simp) (by simp) (by simp)

/-- A frame that fits leaves the line in receive mode and the buffer within its size (41_transport R152). -/
theorem TxInv.sent {s : State} (h : TxInv s) {body : List Byte} (hl : body.length + 2 ≤ txMax) :
    TxInv (Machine.sent body s) := by
  obtain ⟨hwf, hwithin⟩ := h.form
  have hframe : 0 + (withCrc body).length ≤ txMax := by rwa [length_withCrc, Nat.zero_add]
  refine ⟨?_, by simp, by simp, by simp⟩
  obtain ⟨-, htx, -⟩ := sent_effect body s
  rw [htx]
  exact ⟨Memory.wf_writeAll hwf _ _, Memory.within_writeAll hwithin _ _ hframe⟩

theorem RegSteps.txInv {s t : State} (h : RegSteps s t) (hs : TxInv s) : TxInv t :=
  hs.congr h.regFrame.tx h.regFrame.de h.regFrame.txIdle h.regFrame.txLen

theorem ExecEnds.txInv {unit : Byte} {s t : State} (h : ExecEnds unit s t) (hs : TxInv s) : TxInv t := by
  cases h with
  | silent h => exact h.txInv hs
  | response rest h _ hl => exact (h.txInv hs).sent hl
  | exception function code _ =>
    have hrecorded : TxInv ((s.countEvent .excSent).setLastExc code) :=
      hs.congr (by simp) (by simp) (by simp) (by simp)
    exact hrecorded.sent (show 3 + 2 ≤ 69 by omega)

theorem DspEnds.txInv {s t : State} (h : DspEnds s t) (hs : TxInv s) : TxInv t := by
  have hchecked : TxInv (runCrcCheck s.frame s) := hs.congr rfl rfl rfl rfl
  cases h with
  | overflow _ => exact hs.countEvent _
  | short _ _ => exact hs
  | corrupt _ _ => exact hchecked.countEvent _
  | foreign _ _ _ => exact hchecked
  | run _ _ _ hexec => exact (exec_cases hexec).txInv (hchecked.countEvent _)

theorem CycleEnds.txInv {now : Time} {s t : State} (h : CycleEnds now s t) (hs : TxInv s) : TxInv t := by
  cases h with
  | append _ => exact hs.congr (by simp) (by simp) (by simp) (by simp)
  | quiet _ _ => exact hs
  | close _ _ hdsp =>
    have hready : TxInv { s with frmState := .ready } := hs.congr rfl rfl rfl rfl
    exact (hdsp.txInv hready).congr rfl rfl rfl rfl

/-! ## The receive side's part -/

/-- It depends on these fields only. -/
theorem RxInv.congr {s t : State} (h : RxInv s) (hcfg : t.cfg = s.cfg) (hrx : t.rx = s.rx) (hlen : t.rxLen = s.rxLen)
    (hstate : t.frmState = s.frmState) (hovf : t.rxOvf = s.rxOvf) (hclk : t.lastClk = s.lastClk)
    (ht15 : t.t15 = s.t15) (ht35 : t.t35 = s.t35) : RxInv t := by
  obtain ⟨hform, hfill, hready, hidle, hfull, hfits, hthresholds⟩ := h
  constructor
  case form => rwa [hrx]
  case fill => rwa [hlen]
  case notReady => rwa [hstate]
  case idleEmpty => rwa [hlen, hstate]
  case ovfFull => rwa [hovf, hlen]
  case lastClkFits => rwa [hclk, hcfg]
  case thresholds => rwa [ht15, ht35, hcfg]

/-- An append stores at least one byte, so the delimiter is not idle any more; the mark follows the fill (R144). -/
theorem RxInv.frmAppend {s : State} (h : RxInv s) (now : Time) (hq : s.uartQ ≠ []) :
    RxInv (Machine.frmAppend now s) := by
  obtain ⟨-, hlen, hovf, -, hclk, hstate⟩ := frmAppend_effect now s h.fill
  have hnew : 1 ≤ s.uartQ.length := List.length_pos_iff.mpr hq
  constructor
  case form =>
    have hkept : (anomalyTest now s).rx = s.rx := by simp
    exact storeBytes_form (anomalyTest now s).uartQ (anomalyTest now s) (hkept ▸ h.form)
  case fill => rw [hlen]; exact Nat.min_le_left _ _
  case notReady => rw [hstate]; decide
  case idleEmpty =>
    rw [hlen, hstate]
    refine ⟨fun hzero => ?_, fun hidle => by cases hidle⟩
    simp only [rxBuf] at hzero
    omega
  case ovfFull =>
    intro hmarked
    rw [hovf, Bool.or_eq_true, decide_eq_true_eq] at hmarked
    rw [hlen]
    obtain hbefore | hnow := hmarked
    · have hfull := h.ovfFull hbefore
      omega
    · omega
  case lastClkFits =>
    have hcfg : (Machine.frmAppend now s).cfg = s.cfg := by simp
    rw [hclk, hcfg]
    exact clockValue_lt _ _
  case thresholds => simpa using h.thresholds

/-- After a frame the delimiter is idle and empty (R147). -/
theorem RxInv.frmClear {s t : State} (h : RxInv s) (hframe : DispatchFrame s t) : RxInv (Machine.frmClear t) := by
  obtain ⟨hform, -, -, -, -, hfits, hthresholds⟩ := h
  constructor
  case form => rw [← hframe.rx] at hform; exact hform
  case fill => exact Nat.zero_le _
  case notReady => exact FrmState.noConfusion
  case idleEmpty => exact iff_of_true rfl rfl
  case ovfFull => exact Bool.noConfusion
  case lastClkFits => simpa [hframe.lastClk, hframe.cfg] using hfits
  case thresholds => simpa [hframe.t15, hframe.t35, hframe.cfg] using hthresholds

theorem CycleEnds.rxInv {now : Time} {s t : State} (h : CycleEnds now s t) (hs : RxInv s) : RxInv t := by
  cases h with
  | append hq => exact hs.frmAppend now hq
  | quiet _ _ => exact hs
  | close _ _ hdsp =>
    obtain ⟨hcfg, ht15, ht35, hhang, hunit, hrx, hclk, hinbox⟩ := hdsp.dispatchFrame
    exact hs.frmClear ⟨hcfg, ht15, ht35, hhang, hunit, hrx, hclk, hinbox⟩

/-! ## Reset and the step -/

/-- The state after reset has the invariant: everything is empty, closed or zero, and a mirrored register resets to 0
(46_regmap R228). -/
theorem inv_resetWith {c : Config} (hc : admittedConfig c = true) : (State.resetWith c).Inv := by
  obtain ⟨-, -, -, hdiagOk, -⟩ := admittedConfig_parts hc
  refine .ofParts ?reg ?tx ?rx rfl
  case tx => exact ⟨⟨Memory.wf_nil, by simp [State.resetWith]⟩, rfl, rfl, rfl⟩
  case rx =>
    exact ⟨⟨Memory.wf_nil, by simp [State.resetWith]⟩, Nat.zero_le _, FrmState.noConfusion, iff_of_true rfl rfl,
      Bool.noConfusion, Nat.two_pow_pos _, rfl, rfl⟩
  case reg =>
    constructor
    case config => exact hc
    case windows => simp [State.resetWith]
    case windowsOk =>
      intro k ch _ hopen
      rw [window_resetWith] at hopen
      cases hopen
    case mirrored =>
      intro k a hk
      simp only [Config.diagOk, Bool.and_eq_true, List.all_eq_true, beq_iff_eq] at hdiagOk
      obtain ⟨-, hreset⟩ := hdiagOk.1 a (List.mem_filterMap.mpr ⟨k, diagKey_mem_all k, hk⟩)
      obtain ⟨r, hr, hzero⟩ := Option.map_eq_some_iff.mp hreset
      have hvalue : (State.resetWith c).diag.value k = 0x0000#16 := by
        cases k with
        | counter x => cases x <;> rfl
        | lastExc => rfl
      rw [readReg_resetWith (b := .input) hr, hzero, hvalue]
    case diagFits =>
      intro x
      have hzero : (State.resetWith c).diag.counter x = 0 := by cases x <;> rfl
      rw [hzero]
      exact Nat.two_pow_pos _
    case lastExcCode => exact Nat.zero_le _
    case wscFits =>
      intro a
      rw [readWsc_resetWith]
      exact Nat.two_pow_pos _
    case noCounter => exact fun a _ => readWsc_resetWith c a

/-- Settles O58: the reference configuration is one of the admitted ones. -/
theorem resetHasInvariant : Obligations.ResetHasInvariant :=
  ⟨inv_resetWith (by decide +kernel), fun _ => inv_resetWith⟩

theorem RegFrame.rxInv {s t : State} (h : RegFrame s t) (hs : RxInv s) : RxInv t :=
  hs.congr h.cfg h.rx h.rxLen h.frmState h.rxOvf h.lastClk h.t15 h.t35

theorem RegFrame.txInv {s t : State} (h : RegFrame s t) (hs : TxInv s) : TxInv t :=
  hs.congr h.tx h.de h.txIdle h.txLen

/-- The invariant does not speak of the events, the queue of received bytes, the unit address or the outputs. -/
theorem State.Inv.withInbox {s : State} (h : s.Inv) (later : List Event) (uart : List Byte) (unit : Byte)
    (answers : List Answer) :
    State.Inv { s with inbox := later, uartQ := uart, unitAddr := unit, answers := answers } :=
  .ofParts (h.regInv.congr rfl rfl rfl rfl rfl) (h.txInv.congr rfl rfl rfl rfl)
    (h.rxInv.congr rfl rfl rfl rfl rfl rfl rfl rfl) h.schedEmpty

theorem State.Inv.receive {s : State} (h : s.Inv) (b : Byte) : (Machine.receive b s).Inv := by
  unfold Machine.receive
  split
  · exact h
  · exact h.withInbox s.inbox (s.uartQ ++ [b]) s.unitAddr s.answers

/-- Settles O59: each part of the invariant is kept by each of a step's ends. -/
theorem stepKeepsInvariant : Obligations.StepKeepsInvariant := by
  intro s t hs hstep
  obtain ⟨-, hends⟩ := step_cases hstep
  have htaken : ∀ later, State.Inv { s with inbox := later } := fun later =>
    hs.withInbox later s.uartQ s.unitAddr s.answers
  cases hends with
  | wait _ => exact hs
  | @rx b later _ => exact (htaken later).receive b
  | @cycle now between later u _ hcycle =>
    have hreg : RegInv { s with inbox := later, sched := between } := hs.regInv.congr rfl rfl rfl rfl rfl
    have htx : TxInv { s with inbox := later, sched := between } := hs.txInv.congr rfl rfl rfl rfl
    have hrx : RxInv { s with inbox := later, sched := between } := hs.rxInv.congr rfl rfl rfl rfl rfl rfl rfl rfl
    exact .ofParts ((hcycle.regInv hreg).congr rfl rfl rfl rfl rfl) ((hcycle.txInv htx).congr rfl rfl rfl rfl)
      ((hcycle.rxInv hrx).congr rfl rfl rfl rfl rfl rfl rfl rfl) rfl
  | @port e later _ _ hport =>
    have frame := portStep_portFrame hport
    exact .ofParts ((htaken later).regInv.port hport) (frame.toRegFrame.txInv (htaken later).txInv)
      (frame.toRegFrame.rxInv (htaken later).rxInv) (frame.sched.trans (htaken later).schedEmpty)
  | @cfg unit later _ => exact hs.withInbox later s.uartQ unit s.answers
  | @answer a later _ _ _ => exact hs.withInbox later s.uartQ s.unitAddr (s.answers ++ [a])

end Sys2Proof.Machine
end

section
/-! Progress (60_exceptions R289, 70_reset R331): while the transmitter reports idle, every event the environment may issue
is taken, and no run faults. -/

namespace Sys2Proof.Machine

/-! ## The schedule inside a cycle (log 4) -/

/-- What is left of a schedule: its first batches have landed. -/
def SchedRest (s t : State) : Prop := ∃ n, t.sched = s.sched.drop n

theorem schedRest_of_eq {s t : State} (h : t.sched = s.sched) : SchedRest s t := ⟨0, h⟩

theorem SchedRest.trans {s t u : State} (h : SchedRest s t) (i : SchedRest t u) : SchedRest s u := by
  obtain ⟨m, hm⟩ := h
  obtain ⟨n, hn⟩ := i
  exact ⟨m + n, by rw [hn, hm, List.drop_drop]⟩

theorem deliverNext_schedRest {s t : State} (h : deliverNext s = .next t) : SchedRest s t := by
  rw [deliverNext_eq] at h
  obtain ⟨u, -, hu⟩ := andThen_eq_next.mp h
  obtain rfl := Host.Outcome.next.inj hu
  exact ⟨1, rfl⟩

theorem readRun_schedRest {bank : Bank} {a n : Nat} {s t : State} {vs : List Word}
    (h : readRun bank a n s = .next (vs, t)) : SchedRest s t := by
  induction n generalizing a s vs with
  | zero =>
    obtain ⟨-, rfl⟩ := Prod.mk.inj (Host.Outcome.next.inj h)
    exact schedRest_of_eq rfl
  | succ n ih =>
    obtain ⟨u, hgap, hrest⟩ := andThen_eq_next.mp h
    obtain ⟨⟨ws, w⟩, hrun, hlast⟩ := andThen_eq_next.mp hrest
    obtain ⟨-, rfl⟩ := Prod.mk.inj (Host.Outcome.next.inj hlast)
    have hu : SchedRest s u := by
      split at hgap
      · obtain rfl := Host.Outcome.next.inj hgap
        exact schedRest_of_eq rfl
      · exact deliverNext_schedRest hgap
    exact hu.trans (ih hrun)

theorem Work.schedRest {s u : State} {i : Instr} (h : Work s i u) : SchedRest s u := by
  cases h with
  | none => exact schedRest_of_eq rfl
  | readHolding hrun | readInput hrun => exact readRun_schedRest hrun
  | writeOne unit addr value => exact schedRest_of_eq rfl
  | writeRun _ => exact schedRest_of_eq (by simp)
  | identify _ => exact schedRest_of_eq rfl

theorem exec_schedRest {i : Instr} {s t : State} (h : exec i s = .next t) : SchedRest s t := by
  obtain ⟨u, hwork, hanswer⟩ := exec_work h
  exact hwork.schedRest.trans (schedRest_of_eq hanswer.frame.sched)

theorem DspEnds.schedRest {s t : State} (h : DspEnds s t) : SchedRest s t := by
  cases h with
  | overflow _ => exact schedRest_of_eq (by simp)
  | short _ _ => exact schedRest_of_eq rfl
  | corrupt _ _ => exact schedRest_of_eq (by simp)
  | foreign _ _ _ => exact schedRest_of_eq rfl
  | run _ _ _ hexec => exact (schedRest_of_eq (by simp)).trans (exec_schedRest hexec)

theorem CycleEnds.schedRest {now : Time} {s t : State} (h : CycleEnds now s t) : SchedRest s t := by
  cases h with
  | append _ => exact schedRest_of_eq (by simp)
  | quiet _ _ => exact schedRest_of_eq rfl
  | close _ _ hdsp => exact hdsp.schedRest

theorem CycleEnds.inbox {now : Time} {s t : State} (h : CycleEnds now s t) : t.inbox = s.inbox := by
  cases h with
  | append _ => simp
  | quiet _ _ => rfl
  | close _ _ hdsp => exact hdsp.dispatchFrame.inbox

theorem receive_inbox (b : Byte) (s : State) : (receive b s).inbox = s.inbox := by
  unfold receive
  split <;> rfl

/-- The queue after a step holds later events, and what a cycle gives back of the events scheduled in it. -/
theorem StepEnds.inbox {s t : State} {e : Event} {later : List Event} (h : StepEnds s t) (hinbox : s.inbox = e :: later)
    (he : eventAdmitted s.cfg e) : ∀ x ∈ t.inbox, x ∈ later ∨ eventAdmitted s.cfg x := by
  have hlater : ∀ {later' : List Event} {e' : Event}, s.inbox = e' :: later' → e' = e ∧ later' = later := fun h' =>
    List.cons.inj (h'.symm.trans hinbox)
  cases h with
  | wait hempty => simp [hinbox] at hempty
  | rx h' =>
    obtain ⟨-, rfl⟩ := hlater h'
    intro x hx
    rw [receive_inbox] at hx
    exact .inl hx
  | @cycle now between later' u h' hcycle =>
    obtain ⟨rfl, rfl⟩ := hlater h'
    obtain ⟨n, hsched⟩ := hcycle.schedRest
    have hqueue : u.inbox = later' := hcycle.inbox
    intro x hx
    obtain hreturned | hkept := List.mem_append.mp hx
    · obtain ⟨pe, hpe, rfl⟩ := List.mem_map.mp hreturned
      obtain ⟨batch, hbatch, hmem⟩ := List.mem_flatten.mp hpe
      rw [hsched] at hbatch
      exact .inr (he batch (List.mem_of_mem_drop hbatch) pe hmem)
    · exact .inl (hqueue ▸ hkept)
  | port h' hport =>
    obtain ⟨-, rfl⟩ := hlater h'
    intro x hx
    rw [(portStep_portFrame hport).inbox] at hx
    exact .inl hx
  | cfg h' =>
    obtain ⟨-, rfl⟩ := hlater h'
    exact fun x hx => .inl hx
  | answer h' _ =>
    obtain ⟨-, rfl⟩ := hlater h'
    exact fun x hx => .inl hx

/-! ## Admitted events are taken -/

/-- Whatever frame is closed, the dispatcher stops only where the request it runs does. -/
theorem dspProcess_next_or_exec (s : State) :
    (∃ t, dspProcess s = .next t) ∨ ∃ i, i.isRequest = true ∧
      dspProcess s = exec i ((runCrcCheck s.frame s).countEvent .framesOk) := by
  cases hovf : s.rxOvf with
  | true => exact .inl ⟨_, dspProcess_overflow hovf⟩
  | false =>
    cases hdec : decode s.frame with
    | error e =>
      rcases decode_error hdec with rfl | rfl
      · exact .inl ⟨_, dspProcess_short hovf hdec⟩
      · exact .inl ⟨_, dspProcess_corrupt hovf hdec⟩
    | ok i =>
      cases haddr : addressed i.unit s with
      | false => exact .inl ⟨_, dspProcess_foreign hovf hdec haddr⟩
      | true =>
        obtain ⟨-, hrequest⟩ := decodedFramesReencode _ _ hdec
        exact .inr ⟨i, hrequest, dspProcess_run hovf hdec haddr⟩

/-- A cycle stops only where the dispatcher does. -/
theorem cycleBody_next_or_close (now : Time) (s : State) :
    (∃ t, cycleBody now s = .next t) ∨
      cycleBody now s = andThen (dspProcess { s with frmState := .ready }) fun t => .next (frmClear t) := by
  by_cases hq : s.uartQ = []
  · cases hsilence : silenceOver now s with
    | false => exact .inl ⟨_, cycleBody_quiet hq hsilence⟩
    | true => exact .inr (cycleBody_close hq hsilence)
  · exact .inl ⟨_, cycleBody_append hq⟩

theorem dspProcess_admitted {s : State} (hc : admittedConfig s.cfg = true) (hh : s.txHang = false)
    (hs : schedAdmitted s) : ∃ t, dspProcess s = .next t := by
  obtain hnext | ⟨i, hrequest, hexec⟩ := dspProcess_next_or_exec s
  · exact hnext
  · have hs' : schedAdmitted ((runCrcCheck s.frame s).countEvent .framesOk) := by simpa [schedAdmitted] using hs
    obtain ⟨t, ht, -⟩ := unicastRequestsAreAnsweredOnce ((runCrcCheck s.frame s).countEvent .framesOk) i hrequest
      (by simpa using hh) (by simpa using length_ident_le hc) hs'
    exact ⟨t, hexec.trans ht⟩

theorem cycle_admitted {now : Time} {between : List (List PortEvent)} {s : State} (hc : admittedConfig s.cfg = true)
    (hh : s.txHang = false) (hs : ∀ batch ∈ between, ∀ e ∈ batch, admitted s.cfg e = true) :
    ∃ t, cycle now between s = .next t := by
  have hbody : ∃ t, cycleBody now { s with sched := between } = .next t := by
    obtain hnext | hclose := cycleBody_next_or_close now { s with sched := between }
    · exact hnext
    · obtain ⟨t, ht⟩ := dspProcess_admitted (s := { s with sched := between, frmState := .ready }) hc hh hs
      exact ⟨frmClear t, by rw [hclose, ht, andThen_next]⟩
  obtain ⟨t, ht⟩ := hbody
  exact ⟨returnSched t, by rw [cycle, ht, andThen_next]⟩

theorem takeEvent_admitted {e : Event} {s : State} (hc : admittedConfig s.cfg = true) (hh : s.txHang = false)
    (he : eventAdmitted s.cfg e) : ∃ t, takeEvent e s = .next t := by
  cases e with
  | rx b => exact ⟨_, rfl⟩
  | cycle now between => exact cycle_admitted hc hh he
  | port e => exact portStep_admitted he
  | cfg unit => exact ⟨_, rfl⟩
  | wscRead a => exact ⟨_, if_pos he⟩
  | portRead bank a => exact ⟨_, if_pos he⟩

/-- An admitted event is taken by a step that keeps the invariant and leaves only admitted events in its place. -/
theorem step_admitted {s : State} {e : Event} {later : List Event} (hs : s.Inv) (hh : s.txHang = false)
    (hinbox : s.inbox = e :: later) (he : eventAdmitted s.cfg e) :
    ∃ t, step s = .next t ∧ t.Inv ∧ t.txHang = false ∧ t.cfg = s.cfg ∧
      ∀ x ∈ t.inbox, x ∈ later ∨ eventAdmitted s.cfg x := by
  obtain ⟨t, ht⟩ := takeEvent_admitted (s := { s with inbox := later }) hs.config hh he
  have hstep : step s = .next t := (step_eq hs.config hinbox).trans ht
  obtain ⟨hcfg, -, -, hhang⟩ := step_keeps_cfg hstep
  obtain ⟨-, hends⟩ := step_cases hstep
  exact ⟨t, hstep, stepKeepsInvariant s t hs hstep, hhang.trans hh, hcfg, hends.inbox hinbox he⟩

/-! ## No run faults -/

/-- While the transmitter reports idle and `IDENT` fits, no request faults; a read may still be refused. -/
theorem exec_request_ne_fault {i : Instr} {s : State} (hr : i.isRequest = true) (hh : s.txHang = false)
    (hident : s.cfg.ident.length ≤ 64) (f : Fault) : exec i s ≠ .fault f := by
  by_cases hu : i.unit = 0x00#8
  · obtain ⟨u, -, hexec⟩ := exec_broadcast_request s hr hu
    simp [hexec]
  · obtain hanswered | ⟨-, r, hrefused⟩ := exec_unicast_request hr hu hident
    · obtain ⟨t, -, hexec, -⟩ := hanswered.eq_next hh
      simp [hexec]
    · simp [hrefused]

theorem dspProcess_ne_fault {s : State} (hc : admittedConfig s.cfg = true) (hh : s.txHang = false) (f : Fault) :
    dspProcess s ≠ .fault f := by
  obtain ⟨t, hnext⟩ | ⟨i, hrequest, hexec⟩ := dspProcess_next_or_exec s
  · simp [hnext]
  · rw [hexec]
    exact exec_request_ne_fault hrequest (by simpa using hh) (by simpa using length_ident_le hc) f

theorem cycle_ne_fault {now : Time} {between : List (List PortEvent)} {s : State} (hc : admittedConfig s.cfg = true)
    (hh : s.txHang = false) (f : Fault) : cycle now between s ≠ .fault f := by
  have hbody : cycleBody now { s with sched := between } ≠ .fault f := by
    obtain ⟨t, hnext⟩ | hclose := cycleBody_next_or_close now { s with sched := between }
    · simp [hnext]
    · have hdsp := dspProcess_ne_fault (s := { s with sched := between, frmState := .ready }) hc hh f
      rw [hclose, Ne, andThen_eq_fault, not_or]
      exact ⟨hdsp, by simp⟩
  rw [cycle, Ne, andThen_eq_fault, not_or]
  exact ⟨hbody, by simp⟩

theorem takeEvent_ne_fault {e : Event} {s : State} (hc : admittedConfig s.cfg = true) (hh : s.txHang = false)
    (f : Fault) : takeEvent e s ≠ .fault f := by
  cases e with
  | rx b => simp [takeEvent]
  | cycle now between => exact cycle_ne_fault hc hh f
  | port e => exact portStep_ne_fault e s f
  | cfg unit => simp [takeEvent]
  | wscRead a =>
    rw [takeEvent, wscRead]
    split <;> simp
  | portRead bank a =>
    rw [takeEvent, portRead]
    split <;> simp

theorem step_ne_fault {s : State} (hs : s.Inv) (hh : s.txHang = false) (f : Fault) : step s ≠ .fault f := by
  cases hinbox : s.inbox with
  | nil => rw [(noEventNoStep s).1 hs.config hinbox]; simp
  | cons e later =>
    rw [step_eq hs.config hinbox]
    exact takeEvent_ne_fault (s := { s with inbox := later }) hs.config hh f

/-! ## Runs -/

theorem run_succ_of_next {s t : State} (h : step s = .next t) (n : Nat) :
    Sys2Proof.core.run (n + 1) s = Sys2Proof.core.run n t := by
  have hstep : Sys2Proof.core.step s = .next t := h
  simp only [Host.Core.run, hstep]

theorem run_succ_of_refused {s : State} {r : Refusal} (h : step s = .refused r) (n : Nat) :
    Sys2Proof.core.run (n + 1) s = .refused r := by
  have hstep : Sys2Proof.core.step s = .refused r := h
  simp only [Host.Core.run, hstep]

/-- A run of admitted events never stops. -/
theorem run_admitted (n : Nat) {s : State} (hs : s.Inv) (hh : s.txHang = false)
    (hall : ∀ e ∈ s.inbox, eventAdmitted s.cfg e) : ∃ t, Sys2Proof.core.run n s = .next t := by
  induction n generalizing s with
  | zero => exact ⟨s, rfl⟩
  | succ n ih =>
    cases hinbox : s.inbox with
    | nil =>
      rw [run_succ_of_next ((noEventNoStep s).1 hs.config hinbox)]
      exact ih hs hh hall
    | cons e later =>
      have hhead : eventAdmitted s.cfg e := hall e (by simp [hinbox])
      have htail : ∀ x ∈ later, eventAdmitted s.cfg x := fun x hx => hall x (by simp [hinbox, hx])
      obtain ⟨t, hstep, ht, hht, hcfg, hqueue⟩ := step_admitted hs hh hinbox hhead
      rw [run_succ_of_next hstep]
      refine ih ht hht fun x hx => ?_
      rw [hcfg]
      exact (hqueue x hx).elim (htail x) id

/-- No run stops with a fault: each step keeps the invariant or is a refusal. -/
theorem safe_of_inv {s : State} (hs : s.Inv) (hh : s.txHang = false) : s.Safe := by
  intro n f
  induction n generalizing s with
  | zero => exact nofun
  | succ n ih =>
    cases hstep : step s with
    | next t =>
      rw [run_succ_of_next hstep]
      exact ih (stepKeepsInvariant s t hs hstep) ((step_keeps_cfg hstep).2.2.2.trans hh)
    | fault g => exact absurd hstep (step_ne_fault hs hh g)
    | refused r =>
      rw [run_succ_of_refused hstep]
      exact nofun

/-- Settles O60: one step, runs of admitted events by induction on it, and all runs by induction on the invariant. -/
theorem admittedEventsAlwaysStep : Obligations.AdmittedEventsAlwaysStep :=
  ⟨fun _ _ _ => step_admitted, fun _ n => run_admitted n, fun _ => safe_of_inv⟩

end Sys2Proof.Machine
end
